-- ==== Sys2Proof/Word.lean ====
section
/-! DEFINITION. The word types of the block: bytes, command and status words (00_scope.md R7, 10_state.md). -/

namespace Sys2Proof

/-- A byte on the wire or in a memory (00_scope.md R7). -/
abbrev Byte := BitVec 8

/-- A 32-bit command parameter word or status word (30_encoding.md R70, R72). -/
abbrev Word := BitVec 32

end Sys2Proof
end

