-- ==== Sys2Proof/Config.lean ====
section
/-! DEFINITION. What an implementation fixes (00_scope.md R6): the fixed parameters as constants, the OPEN
parameters of an instance as plain data, and the values the spec leaves open as constants with no body. -/

namespace Sys2Proof

/-- The command family of a master instance (00_scope.md R6, `VARIANT`). -/
inductive Variant where
  | i2c
  | rffe
  deriving DecidableEq, Repr

/-- The three slave outputs (00_scope.md R9, 44_slave_fsm.md R172). -/
inductive Hook where
  | busFree
  | writeDone
  | readDone
  deriving DecidableEq, Repr

/-- Which wait-parameter functions an instance has (40_delay_engine.md R91): uninterpreted ones, or the spec's own
instantiation of R101 with its parameter CYC. DESIGN CHOICE, log entry 9. -/
inductive WaitFns where
  | free
  | r101 (cyc : Nat)
  deriving DecidableEq, Repr

/-- The OPEN parameters of a master instance (00_scope.md R6). -/
structure MasterCfg where
  variant : Variant
  timerHooked : Bool
  tOvfUs : Nat
  defaultMinBps : Word
  rffeMaxBps : Word
  waitFns : WaitFns
  deriving DecidableEq, Repr

/-- The parameters of a slave instance (00_scope.md R6, 10_state.md R18). -/
structure SlaveCfg where
  memSize : Nat
  addr : List Byte
  hookBusFree : Bool
  hookWriteDone : Bool
  hookReadDone : Bool
  spyEn : Bool
  cursorRestore : Bool
  honoursNack : Bool
  deriving DecidableEq, Repr

/-- `HOOK_EN[h]` (00_scope.md R6). -/
def hookEn (c : SlaveCfg) : Hook → Bool
  | .busFree => c.hookBusFree
  | .writeDone => c.hookWriteDone
  | .readDone => c.hookReadDone

/-- `I2C_MAX_BPS`, the highest legal I2C bit rate (00_scope.md R6, 40_delay_engine.md R93). -/
def Config.i2cMaxBps : Word := 400000#32

/-- `ERRREC_STOPS` (00_scope.md R6). -/
def Config.errRecStops : Nat := 8

/-- `SPY_EOL`, the spy's line terminator U+000A (00_scope.md R6). -/
def Config.spyEol : Char := '\n'

/-- What a byte that no construction, host or slave has written reads as. DESIGN CHOICE, log entries 12 and 13. -/
def Config.unwritten : Byte := 0#8

/-- `WaitParamTimer(bps, T_OVF_US)`, open (40_delay_engine.md R91, log entry 9). -/
opaque Config.waitParamTimer : Nat → Nat → Nat

/-- `WaitParamSpin(bps, CORE_HZ)`, open (40_delay_engine.md R91, log entry 9). -/
opaque Config.waitParamSpin : Nat → Nat → Nat

/-- `MinCoreHzFor(bps)`, open (40_delay_engine.md R91, log entry 9). -/
opaque Config.minCoreHzFor : Nat → Nat

/-- The 32-bit register value after a wait parameter of 2^32 or more: no rule states it (log entry 10). -/
opaque Config.wideWaitParam : Nat → Word

/-- The 32-bit register value after a clock requirement of 2^32 or more: no rule states it (log entry 11). -/
opaque Config.wideMinCoreHz : Nat → Word

/-- The n-th RFFE sample the environment chose and State does not list (42_master_rffe.md R139, log entry 14). -/
opaque Config.freeSample : Nat → Bool

end Sys2Proof
end

