-- ==== Sys2Proof/Syntax.lean ====
section
/-! DEFINITION. The nine symbols, the seven states, the instructions (one constructor per row of
spec/opcode_table.json) and the coded words they are read from (30_encoding.md R60). -/

namespace Sys2Proof

/-- The closed enumeration of protocol symbols (30_encoding.md R63). -/
inductive Symbol where
  | start
  | stop
  | error
  | timeout
  | void
  | re0
  | re1
  | fe0
  | fe1
  deriving DecidableEq, Repr

/-- The named slave states (30_encoding.md R66). -/
inductive StateName where
  | idle
  | waitForStart
  | startBitReceived
  | receiveAddress
  | receiveSubAddress
  | receiveData
  | transmit
  deriving DecidableEq, Repr

/-- Every row of the opcode table: seven commands (30_encoding.md R70), nine symbols (R63), sixteen snapshots
(R61, 43_classifier.md R152), seven states (R66). -/
inductive Instr where
  | cfg (bps : Word) (tl th : BitVec 16)
  | start (addr8 : Byte)
  | move (buf count : Word) (more : Bool)
  | stop
  | rstart (cmd12 : BitVec 12)
  | rmove (txbuf rxbuf count : Word)
  | rpark
  | symStart
  | symStop
  | symError
  | symTimeout
  | symVoid
  | symRe0
  | symRe1
  | symFe0
  | symFe1
  | snap0000
  | snap0001
  | snap0010
  | snap0011
  | snap0100
  | snap0101
  | snap0110
  | snap0111
  | snap1000
  | snap1001
  | snap1010
  | snap1011
  | snap1100
  | snap1101
  | snap1110
  | snap1111
  | stateIdle
  | stateWaitForStart
  | stateStartBitReceived
  | stateReceiveAddress
  | stateReceiveSubAddress
  | stateReceiveData
  | stateTransmit
  deriving DecidableEq, Repr

/-- A word of one of the four instruction formats (30_encoding.md R60): CMD is the parameter array `P[0..3]`. -/
inductive Coded where
  | cmd (p0 p1 p2 p3 : Word)
  | sym (code : BitVec 4)
  | snap (code : BitVec 4)
  | state (code : BitVec 5)
  deriving DecidableEq, Repr

end Sys2Proof
end

