-- ==== Sys2Proof/WellFormed.lean ====
section
/-! DEFINITION. Well-formedness: which coded words are instructions (30_encoding.md R74) and which instance
parameters are legal (92_eei_decisions.md D8, D20; 40_delay_engine.md R101). The operand fields of an
instruction have their exact widths as types, so an instruction's operands are legal by their types. -/

namespace Sys2Proof

/-- The seven assigned opcodes (30_encoding.md R70). -/
def opcodes : List (BitVec 8) := [0x00#8, 0x01#8, 0x02#8, 0x03#8, 0x11#8, 0x12#8, 0x13#8]

/-- A coded word is an instruction unless its code is reserved (30_encoding.md R74). -/
def Coded.wf : Coded → Bool
  | .cmd p0 _ _ _ => opcodes.contains (p0.extractLsb' 0 8)
  | .sym c => decide (c.toNat < 9)
  | .snap _ => true
  | .state c => decide (c.toNat < 7)

/-- `DEFAULT_MIN_BPS` is at least 1 and at most the variant's maximum, CYC is at least 1 (D8, R101). -/
def MasterCfg.wf (c : MasterCfg) : Bool :=
  decide (1 ≤ c.defaultMinBps.toNat) &&
  (match c.variant with
   | .i2c => decide (c.defaultMinBps.toNat ≤ Config.i2cMaxBps.toNat)
   | .rffe => decide (c.defaultMinBps.toNat ≤ c.rffeMaxBps.toNat)) &&
  (match c.waitFns with
   | .free => true
   | .r101 cyc => decide (1 ≤ cyc))

/-- `MEM_SIZE` is at least 1 (D20). -/
def SlaveCfg.wf (c : SlaveCfg) : Bool := decide (1 ≤ c.memSize)

end Sys2Proof
end

