-- ==== Sys2Proof/Decode.lean ====
section
/-! DEFINITION. Decoding of the four instruction formats (30_encoding.md R61, R63, R66, R70, R71), total, with each
refusal named, and the encoder written from the same tables. -/

namespace Sys2Proof

/-- Why a coded word is no instruction (30_encoding.md R74). -/
inductive DecodeError where
  /-- An opcode other than the seven of R70. -/
  | reservedOpcode (op : BitVec 8)
  /-- A SYM code 9 to 15. -/
  | reservedSymbol (code : BitVec 4)
  /-- A STATE index 7 to 31. -/
  | reservedState (code : BitVec 5)
  deriving DecidableEq, Repr

/-- SYM codes (30_encoding.md R63). -/
def symbolOfCode (c : BitVec 4) : Option Symbol :=
  match c.toNat with
  | 0 => some .start
  | 1 => some .stop
  | 2 => some .error
  | 3 => some .timeout
  | 4 => some .void
  | 5 => some .re0
  | 6 => some .re1
  | 7 => some .fe0
  | 8 => some .fe1
  | _ => none

/-- The SYM code of a symbol (30_encoding.md R63). -/
def symbolCode : Symbol → BitVec 4
  | .start => 0#4
  | .stop => 1#4
  | .error => 2#4
  | .timeout => 3#4
  | .void => 4#4
  | .re0 => 5#4
  | .re1 => 6#4
  | .fe0 => 7#4
  | .fe1 => 8#4

/-- STATE codes (30_encoding.md R66): `STATE_FN`'s used entries. -/
def stateOfCode (c : BitVec 5) : Option StateName :=
  match c.toNat with
  | 0 => some .idle
  | 1 => some .waitForStart
  | 2 => some .startBitReceived
  | 3 => some .receiveAddress
  | 4 => some .receiveSubAddress
  | 5 => some .receiveData
  | 6 => some .transmit
  | _ => none

/-- The STATE index of a state (30_encoding.md R66). -/
def stateCode : StateName → BitVec 5
  | .idle => 0#5
  | .waitForStart => 1#5
  | .startBitReceived => 2#5
  | .receiveAddress => 3#5
  | .receiveSubAddress => 4#5
  | .receiveData => 5#5
  | .transmit => 6#5

/-- The instruction of a symbol. -/
def symbolInstr : Symbol → Instr
  | .start => .symStart
  | .stop => .symStop
  | .error => .symError
  | .timeout => .symTimeout
  | .void => .symVoid
  | .re0 => .symRe0
  | .re1 => .symRe1
  | .fe0 => .symFe0
  | .fe1 => .symFe1

/-- The instruction of a state function. -/
def stateInstr : StateName → Instr
  | .idle => .stateIdle
  | .waitForStart => .stateWaitForStart
  | .startBitReceived => .stateStartBitReceived
  | .receiveAddress => .stateReceiveAddress
  | .receiveSubAddress => .stateReceiveSubAddress
  | .receiveData => .stateReceiveData
  | .transmit => .stateTransmit

/-- The instruction of a snapshot `{e_sda, l_sda, e_scl, l_scl}` (30_encoding.md R61). -/
def snapInstr (c : BitVec 4) : Instr :=
  match c.toNat with
  | 0 => .snap0000
  | 1 => .snap0001
  | 2 => .snap0010
  | 3 => .snap0011
  | 4 => .snap0100
  | 5 => .snap0101
  | 6 => .snap0110
  | 7 => .snap0111
  | 8 => .snap1000
  | 9 => .snap1001
  | 10 => .snap1010
  | 11 => .snap1011
  | 12 => .snap1100
  | 13 => .snap1101
  | 14 => .snap1110
  | _ => .snap1111

/-- Decoding of `P[0..3]` (30_encoding.md R70, R71): every bit the table does not name is ignored. -/
def decodeCmd (p0 p1 p2 p3 : Word) : Except DecodeError Instr :=
  match (p0.extractLsb' 0 8).toNat with
  | 0x00 => .ok (.cfg p1 (p2.extractLsb' 0 16) (p2.extractLsb' 16 16))
  | 0x01 => .ok (.start (p1.extractLsb' 0 8))
  | 0x02 => .ok (.move p1 p2 (p3.getLsbD 0))
  | 0x03 => .ok .stop
  | 0x11 => .ok (.rstart (p1.extractLsb' 0 12))
  | 0x12 => .ok (.rmove p1 p2 p3)
  | 0x13 => .ok .rpark
  | _ => .error (.reservedOpcode (p0.extractLsb' 0 8))

/-- The decoder, total on the words of every format. -/
def decode : Coded → Except DecodeError Instr
  | .cmd p0 p1 p2 p3 => decodeCmd p0 p1 p2 p3
  | .sym c =>
    match symbolOfCode c with
    | some y => .ok (symbolInstr y)
    | none => .error (.reservedSymbol c)
  | .snap c => .ok (snapInstr c)
  | .state c =>
    match stateOfCode c with
    | some x => .ok (stateInstr x)
    | none => .error (.reservedState c)

/-- The encoder: fields where R70 puts them, every ignored bit 0 (log entry 32). -/
def encode : Instr → Coded
  | .cfg bps tl th => .cmd 0x00#32 bps (th ++ tl) 0#32
  | .start a => .cmd 0x01#32 (a.setWidth 32) 0#32 0#32
  | .move b n m => .cmd 0x02#32 b n ((BitVec.ofBool m).setWidth 32)
  | .stop => .cmd 0x03#32 0#32 0#32 0#32
  | .rstart c => .cmd 0x11#32 (c.setWidth 32) 0#32 0#32
  | .rmove t r n => .cmd 0x12#32 t r n
  | .rpark => .cmd 0x13#32 0#32 0#32 0#32
  | .symStart => .sym 0#4
  | .symStop => .sym 1#4
  | .symError => .sym 2#4
  | .symTimeout => .sym 3#4
  | .symVoid => .sym 4#4
  | .symRe0 => .sym 5#4
  | .symRe1 => .sym 6#4
  | .symFe0 => .sym 7#4
  | .symFe1 => .sym 8#4
  | .snap0000 => .snap 0b0000#4
  | .snap0001 => .snap 0b0001#4
  | .snap0010 => .snap 0b0010#4
  | .snap0011 => .snap 0b0011#4
  | .snap0100 => .snap 0b0100#4
  | .snap0101 => .snap 0b0101#4
  | .snap0110 => .snap 0b0110#4
  | .snap0111 => .snap 0b0111#4
  | .snap1000 => .snap 0b1000#4
  | .snap1001 => .snap 0b1001#4
  | .snap1010 => .snap 0b1010#4
  | .snap1011 => .snap 0b1011#4
  | .snap1100 => .snap 0b1100#4
  | .snap1101 => .snap 0b1101#4
  | .snap1110 => .snap 0b1110#4
  | .snap1111 => .snap 0b1111#4
  | .stateIdle => .state 0#5
  | .stateWaitForStart => .state 1#5
  | .stateStartBitReceived => .state 2#5
  | .stateReceiveAddress => .state 3#5
  | .stateReceiveSubAddress => .state 4#5
  | .stateReceiveData => .state 5#5
  | .stateTransmit => .state 6#5

/-- Word k of a bit string numbered from bit 0 of `P[0]` upward (log entry 22). -/
def tableWord (w k : Nat) : Word := BitVec.ofNat 32 (w / 2 ^ (32 * k))

/-- Which format a table word of `nbits` bits is (log entry 22): a word of at most 4 bits is a snapshot, one of 5 bits
a STATE index, one byte that is no assigned opcode but holds a 4-bit code is a snapshot, any other one a command. -/
def tableCoded (nbits w : Nat) : Coded :=
  if nbits ≤ 4 then .snap (BitVec.ofNat 4 w)
  else if nbits = 5 then .state (BitVec.ofNat 5 w)
  else if nbits ≤ 8 ∧ w < 16 ∧ opcodes.contains (BitVec.ofNat 8 w) = false then .snap (BitVec.ofNat 4 w)
  else .cmd (tableWord w 0) (tableWord w 1) (tableWord w 2) (tableWord w 3)

/-- The instruction read from an instruction whose bits are `w`, numbered as spec/opcode_table.json numbers them. -/
def decodeTableWord (nbits w : Nat) : Option Instr :=
  match decode (tableCoded nbits w) with
  | .ok i => some i
  | .error _ => none

end Sys2Proof
end

