-- ==== Sys2Proof/Machine/State.lean ====
section
/-! DEFINITION. The machine's state, plain data: the master and slave contexts, the latches, the backing memory and
the host buffers, the collaborators, the interfaces, what the outside still does and who moves next
(10_state.md; INVENTORY.md lists every field). Faults, refusals and the state after reset. -/

namespace Sys2Proof.Machine

/-- A pin's direction (10_state.md R20). -/
inductive Dir where
  | inp
  | out
  deriving DecidableEq, Repr

/-- `M.strategy` (10_state.md R17). -/
inductive Strategy where
  | none
  | timer
  | spin
  deriving DecidableEq, Repr

/-- The causes of a configuration fault (30_encoding.md R73); their codes are `faultCode` in Machine/Flags.lean. -/
inductive ConfigFault where
  | nullPin
  | noClockTree
  | rateTooHigh
  | rateUnreachable
  | moveZeroLen
  | moveDualDir
  | moveNoBuffer
  | badCommand
  | notConfigured
  | memSizeZero
  | badState
  deriving DecidableEq, Repr

/-- A master micro-operation (30_encoding.md R76): drive SDA, release SDA, drive SCL, sample SDA, one delay unit. -/
inductive Micro where
  | sda (b : Bool)
  | relSda
  | scl (b : Bool)
  | get
  | wait
  deriving DecidableEq, Repr

/-- An item of a command's expansion: a micro-operation, or an action between micro-operations that takes no step
(46_common_semantics.md R198, log entry 28). -/
inductive Op where
  /-- One micro-operation. -/
  | micro (u : Micro)
  /-- `if v = 0 then ERRREC` of START (41_master_i2c.md R110). -/
  | stuckTest
  /-- `M.ackFail <- M.ackFail | a` of TXBYTE (R112). -/
  | orAck
  /-- `M.acc <- ((M.acc << 1) | b)[7:0]` (R113, 42_master_rffe.md R134). -/
  | shiftAcc
  /-- `if p != P(M.acc) then M.parityErr <- 1` (R134). -/
  | parityTest
  /-- `BufWrite(i, v)` with v = `M.acc` (R117, R136). -/
  | store (buf : Word) (i : Nat)
  /-- TXBYTE(v) with its skip test (R112). -/
  | txByte (v : Byte)
  /-- `n` more TXBYTE, from buffer index `i` (R117). -/
  | txBytes (buf : Word) (i n : Nat)
  /-- `n` more RXBYTE, from buffer index `i`, of a MOVE with this count and more flag (R117). -/
  | rxBytes (buf : Word) (i n count : Nat) (more : Bool)
  /-- `n` more RSENDBYTE, from buffer index `i` (R136). -/
  | rsendBytes (buf : Word) (i n : Nat)
  /-- `n` more RREADBYTE, from buffer index `i` (R136). -/
  | rreadBytes (buf : Word) (i n : Nat)
  deriving DecidableEq, Repr

/-- The master context `M` (10_state.md R10, R13, R14, R16, R17, R20) and its instance's parameters. `todo`, `sampled`
and `waiting` are the model's rendering of the position inside the running command (log entries 3, 5, 28). -/
structure Master where
  addr : Byte
  acc : Byte
  busy : Bool
  pos : Nat
  todo : List Op
  sampled : Bool
  waiting : Bool
  ackFail : Bool
  parityErr : Bool
  fault : Bool
  faultCode : BitVec 4
  bps : Word
  tl : BitVec 16
  th : BitVec 16
  waitParam : Word
  strategy : Strategy
  pinsOk : Bool
  clockTreeOk : Bool
  sdaDir : Dir
  sdaVal : Bool
  sclDir : Dir
  sclVal : Bool
  cfg : MasterCfg
  deriving DecidableEq, Repr

/-- The slave context `S` (10_state.md R11, R12, R15, R16, R18, R20, R25) and its instance's parameters. `sym` is the
model's own: the current symbol, operand of the state functions (log entry 18). -/
structure Slave where
  state : BitVec 5
  sr : Byte
  mask : Byte
  ackPhase : Bool
  decodedAddr : Byte
  cursor : Nat
  initCursor : Nat
  memWritten : Bool
  memRead : Bool
  busBusy : Bool
  flagBusFree : Bool
  flagWriteDone : Bool
  flagReadDone : Bool
  fault : Bool
  faultCode : BitVec 4
  pinsOk : Bool
  sdaDir : Dir
  sdaVal : Bool
  spyNibble : BitVec 4
  spyCount : BitVec 4
  sym : Symbol
  cfg : SlaveCfg
  deriving DecidableEq, Repr

/-- The slave's latches (10_state.md R22, R23) and whether its edge interrupts are enabled (60_exceptions.md R228,
R236). -/
structure Latches where
  sda : Bool
  scl : Bool
  tmo : Bool
  enabled : Bool
  deriving DecidableEq, Repr

/-- The wires at the two instances' pins: the master's and the slave's SDA and SCL (10_state.md R20, R24). -/
inductive Line where
  | mSda
  | mScl
  | sSda
  | sScl
  deriving DecidableEq, Repr

/-- The environment: its contribution to each wire (10_state.md R21; true is 1), the RFFE samples it will give
(42_master_rffe.md R139) and how many it gave that were not listed (log entries 14, 24). -/
structure Env where
  mSda : Bool
  mScl : Bool
  sSda : Bool
  sScl : Bool
  samples : List Bool
  freeCount : Nat
  deriving DecidableEq, Repr

/-- The countdown timer's channel of the master (60_exceptions.md R244). `dead`: its done flag never comes
(93_implementation_defined.md U15, log entry 6). -/
structure Timer where
  running : Bool
  count : Nat
  done : Bool
  dead : Bool
  deriving DecidableEq, Repr

/-- The clock tree (60_exceptions.md R245, 10_state.md R19): `CORE_HZ` or unknown, `CT.minCoreHzReq`. -/
structure ClockTree where
  coreHz : Option Nat
  minCoreHzReq : Word
  deriving DecidableEq, Repr

/-- What a host operation received (46_common_semantics.md R201). -/
inductive Reading where
  | status (w : Word)
  | bufByte (buf i : Word) (v : Byte)
  | memByte (i : Nat) (v : Byte)
  | flag (h : Hook) (b : Bool)
  | hook (h : Hook)
  | busBusy (b : Bool)
  | spy (text : List Char)
  deriving DecidableEq, Repr

/-- The outgoing interfaces (10_state.md R24), oldest first: status words and hook events not yet received, the spy
stream, and what the host has received (log entry 23). -/
structure Outputs where
  status : List Word
  hooks : List Hook
  spy : List Char
  received : List Reading
  deriving DecidableEq, Repr

/-- The host's operations (46_common_semantics.md R201) and the environment's (R202, `TimerDone` apart: a `Turn`). -/
inductive Input where
  /-- `HostIssue(P)`. -/
  | issue (p0 p1 p2 p3 : Word)
  /-- `HostStatus`. -/
  | status
  /-- `HostBufWrite` of byte i of the buffer of this handle. DESIGN CHOICE, log entry 35: one byte of one handle a step. -/
  | bufWrite (buf i : Word) (v : Byte)
  /-- `HostBufRead` of byte i of the buffer of this handle. DESIGN CHOICE, log entry 35: one byte of one handle a step. -/
  | bufRead (buf i : Word)
  /-- `HostMemRead(i)`. -/
  | memRead (i : Nat)
  /-- `HostMemWrite(i, v)`. -/
  | memWrite (i : Nat) (v : Byte)
  /-- `HostFlagRead(h)`. -/
  | flagRead (h : Hook)
  /-- `HostFlagClear(h)`. -/
  | flagClear (h : Hook)
  /-- `HostHookEvent(h)`. -/
  | hookEvent (h : Hook)
  /-- `HostTimeout`. -/
  | timeout
  /-- `HostSpyRead`. -/
  | spyRead
  /-- The host reads `S.busBusy`. -/
  | busBusyRead
  /-- `HostConstruct` of the master (70_reset_and_hazards.md R261). -/
  | constructMaster (cfg : MasterCfg) (pinsOk clockTreeOk : Bool)
  /-- `HostConstruct` of the slave (70_reset_and_hazards.md R262). -/
  | constructSlave (cfg : SlaveCfg) (pinsOk : Bool)
  /-- `EnvDrive(line, v)`. -/
  | envDrive (line : Line) (v : Bool)
  /-- The environment fixes its next RFFE sample (42_master_rffe.md R139). -/
  | envSample (b : Bool)
  /-- `ClockKnown(f)`. -/
  | clockKnown (hz : Nat)
  /-- Another user re-arms the master's timer channel (70_reset_and_hazards.md R275, log entry 33). -/
  | timerArm (n : Nat)
  deriving DecidableEq, Repr

/-- Who may be given the next step (00_scope.md R3): the slave handler, the master, the timer (`TimerDone`), or the
host and environment. -/
inductive Turn where
  | slave
  | master
  | timer
  | outside
  deriving DecidableEq, Repr

/-- Bytes by address, in one canonical form: addresses strictly rising, no entry equal to `Config.unwritten`. -/
abbrev Memory := List Host.Cell

/-- Every address of the list is above `a`, rising, and no entry equals what an unlisted address reads as. -/
def wfAbove : Nat → Memory → Bool
  | _, [] => true
  | a, (b, v) :: r => decide (a < b) && decide (v ≠ Config.unwritten) && wfAbove b r

/-- The canonical form of a memory. -/
def Memory.wf : Memory → Bool
  | [] => true
  | (b, v) :: r => decide (v ≠ Config.unwritten) && wfAbove b r

/-- The whole machine. `shared`: the two instances' pins are on one bus (00_scope.md R3, log entry 24). `inputs` and
`turns`: what the outside still does and who moves next (20_memory.md R50, log entry 1). -/
structure State where
  m : Master
  s : Slave
  e : Latches
  env : Env
  timer : Timer
  ct : ClockTree
  mem : Memory
  bufs : Memory
  out : Outputs
  inputs : List Input
  turns : List Turn
  shared : Bool
  deriving DecidableEq, Repr

/-- Why a step stops. Every one of them is SAFE: the model stops where the spec gives no effect. -/
inductive Fault where
  /-- Raised by a slave state function or a host operation that reaches an index outside the backing memory, where
  20_memory.md R41 requires 0 <= addr < MEM_SIZE. Safe. -/
  | memIndex
  /-- Raised by the master's `Wait` with strategy None, which 40_delay_engine.md R97 calls unreachable. Safe. -/
  | waitUnconfigured
  /-- Raised by step when the master waits for a done flag that never comes and no other agent can step
  (93_implementation_defined.md U15: stuck). Safe. -/
  | timerStuck
  /-- Raised by a host operation whose fixed precondition does not hold (46_common_semantics.md R201: `HostSpyRead`
  without `SPY_EN`, `HostHookEvent(h)` without `HOOK_EN[h]`). Safe. -/
  | hostPrecondition
  deriving DecidableEq, Repr

/-- Why an instruction is refused. No instruction is: every row of the table has its meaning. -/
inductive Refusal where
  /-- Raised by exec's arm for an instruction that has no meaning yet (none). Safe. -/
  | notModelled (mnemonic : String)
  deriving DecidableEq, Repr

/-- What a step or a meaning answers. -/
abbrev Result := Host.Outcome State Fault Refusal

/-- The master context right after construction (70_reset_and_hazards.md R261). -/
def masterReset (cfg : MasterCfg) (pinsOk clockTreeOk : Bool) : Master where
  addr := 0#8
  acc := 0#8
  busy := false
  pos := 0
  todo := []
  sampled := false
  waiting := false
  ackFail := false
  parityErr := false
  fault := false
  faultCode := 0#4
  bps := 0#32
  tl := 0#16
  th := 0#16
  waitParam := 0#32
  strategy := .none
  pinsOk := pinsOk
  clockTreeOk := clockTreeOk
  sdaDir := .inp
  sdaVal := true
  sclDir := .inp
  sclVal := true
  cfg := cfg

/-- The slave context right after a construction that raises no fault (70_reset_and_hazards.md R262). -/
def slaveReset (cfg : SlaveCfg) (pinsOk : Bool) : Slave where
  state := 1#5
  sr := 0#8
  mask := 0x80#8
  ackPhase := false
  decodedAddr := 0#8
  cursor := 0
  initCursor := 0
  memWritten := false
  memRead := false
  busBusy := false
  flagBusFree := false
  flagWriteDone := false
  flagReadDone := false
  fault := false
  faultCode := 0#4
  pinsOk := pinsOk
  sdaDir := .inp
  sdaVal := true
  spyNibble := 0#4
  spyCount := 0#4
  sym := .void
  cfg := cfg

/-- The master parameters at reset. The spec leaves them OPEN. DESIGN CHOICE, log entries 8 and 9. -/
def resetMasterCfg : MasterCfg where
  variant := .i2c
  timerHooked := true
  tOvfUs := 1
  defaultMinBps := 1#32
  rffeMaxBps := 0xFFFFFFFF#32
  waitFns := .r101 4

/-- The slave parameters at reset. The spec leaves them OPEN but for the last two. DESIGN CHOICE, log entry 8. -/
def resetSlaveCfg : SlaveCfg where
  memSize := 16
  addr := [0x40#8, 0xB0#8, 0xC0#8, 0xD0#8]
  hookBusFree := false
  hookWriteDone := false
  hookReadDone := false
  spyEn := true
  cursorRestore := true
  honoursNack := false

/-- The machine right after reset: both contexts constructed (70_reset_and_hazards.md R260 to R263). -/
def State.reset : State where
  m := masterReset resetMasterCfg true true
  s := slaveReset resetSlaveCfg true
  e := { sda := false, scl := false, tmo := false, enabled := true }
  env := { mSda := true, mScl := true, sSda := true, sScl := true, samples := [], freeCount := 0 }
  timer := { running := false, count := 0, done := false, dead := false }
  ct := { coreHz := none, minCoreHzReq := 0#32 }
  mem := []
  bufs := []
  out := { status := [], hooks := [], spy := [], received := [] }
  inputs := []
  turns := []
  shared := true

/-- `s` with another master context. -/
def State.setM (s : State) (m : Master) : State := { s with m := m }

/-- `s` with another slave context. -/
def State.setS (s : State) (x : Slave) : State := { s with s := x }

/-- `s` with other latches. -/
def State.setE (s : State) (e : Latches) : State := { s with e := e }

/-- `s` with another environment. -/
def State.setEnv (s : State) (v : Env) : State := { s with env := v }

/-- `s` with another timer state. -/
def State.setTimer (s : State) (t : Timer) : State := { s with timer := t }

/-- `s` with another clock tree state. -/
def State.setCt (s : State) (c : ClockTree) : State := { s with ct := c }

/-- `s` with another backing memory. -/
def State.setMem (s : State) (m : Memory) : State := { s with mem := m }

/-- `s` with other host buffers. -/
def State.setBufs (s : State) (b : Memory) : State := { s with bufs := b }

/-- `s` with other interface contents. -/
def State.setOut (s : State) (o : Outputs) : State := { s with out := o }

end Sys2Proof.Machine
end

