-- ==== Sys2Proof/Machine/Flags.lean ====
section
/-! DEFINITION. Flag computations: the fault codes (30_encoding.md R73), the status word (R72), parity
(42_master_rffe.md R133) and the sticky flags (41_master_i2c.md R112, 42_master_rffe.md R134). -/

namespace Sys2Proof.Machine

/-- The 4-bit code of a fault cause (30_encoding.md R73). -/
def faultCode : ConfigFault → BitVec 4
  | .nullPin => 1#4
  | .noClockTree => 2#4
  | .rateTooHigh => 3#4
  | .rateUnreachable => 4#4
  | .moveZeroLen => 5#4
  | .moveDualDir => 6#4
  | .moveNoBuffer => 7#4
  | .badCommand => 8#4
  | .notConfigured => 9#4
  | .memSizeZero => 10#4
  | .badState => 11#4

/-- The status word (30_encoding.md R72): bit 0 ackFail, bit 1 parityErr, bit 7 fault, bits 11:8 the code. -/
def statusWord (m : Master) : Word :=
  (BitVec.ofBool m.ackFail).setWidth 32 ||| ((BitVec.ofBool m.parityErr).setWidth 32 <<< 1) |||
  ((BitVec.ofBool m.fault).setWidth 32 <<< 7) ||| (m.faultCode.setWidth 32 <<< 8)

/-- The number of 1 bits among the `n` lowest of `v` (00_scope.md R7). -/
def popcountBelow {w : Nat} (v : BitVec w) : Nat → Nat
  | 0 => 0
  | n + 1 => (v.getLsbD n).toNat + popcountBelow v n

/-- `popcount(v)` (00_scope.md R7). -/
def popcount {w : Nat} (v : BitVec w) : Nat := popcountBelow v w

/-- `P(v) = 1 - (popcount(v) mod 2)`, the odd-parity bit (42_master_rffe.md R133). -/
def parity {w : Nat} (v : BitVec w) : Bool := decide (popcount v % 2 = 0)

/-- `M.ackFail <- M.ackFail | a` with the sampled level a (41_master_i2c.md R112). -/
def orAckFail (m : Master) : Master := { m with ackFail := m.ackFail || m.sampled }

/-- `if p != P(M.acc) then M.parityErr <- 1` with the sampled bit p (42_master_rffe.md R134). -/
def testParity (m : Master) : Master :=
  { m with parityErr := m.parityErr || (m.sampled != parity m.acc) }

/-- `M.acc <- ((M.acc << 1) | b)[7:0]` with the sampled bit b (41_master_i2c.md R113). -/
def shiftInAcc (m : Master) : Master :=
  { m with acc := (m.acc <<< 1) ||| (BitVec.ofBool m.sampled).setWidth 8 }

/-- The poll flag of a hook (10_state.md R15). -/
def hookFlag (x : Slave) : Hook → Bool
  | .busFree => x.flagBusFree
  | .writeDone => x.flagWriteDone
  | .readDone => x.flagReadDone

/-- Write the poll flag of a hook (44_slave_fsm.md R172, 46_common_semantics.md R201). -/
def setHookFlag (x : Slave) (h : Hook) (b : Bool) : Slave :=
  match h with
  | .busFree => { x with flagBusFree := b }
  | .writeDone => { x with flagWriteDone := b }
  | .readDone => { x with flagReadDone := b }

end Sys2Proof.Machine
end

