-- ==== Sys2Proof/Machine/Ops.lean ====
section
/-! DEFINITION. The named operations every meaning uses: memory (20_memory.md), line levels, pins and edge latches
(10_state.md R20 to R22), the one operation that raises a configuration fault on each context
(60_exceptions.md R226), the construction that alone clears it (70_reset_and_hazards.md R261, R262), and the end
of a command. -/

namespace Sys2Proof.Machine

/-! ## Memory -/

/-- The byte at an address (20_memory.md R41). -/
def Memory.read : Memory → Nat → Byte
  | [], _ => Config.unwritten
  | (b, v) :: r, a => if b = a then v else Memory.read r a

/-- Replace the byte at an address, keeping the canonical form (20_memory.md R42). -/
def Memory.write : Memory → Nat → Byte → Memory
  | [], a, v => if v = Config.unwritten then [] else [(a, v)]
  | (b, w) :: r, a, v =>
    if a < b then (if v = Config.unwritten then (b, w) :: r else (a, v) :: (b, w) :: r)
    else if a = b then (if v = Config.unwritten then r else (a, v) :: r)
    else (b, w) :: Memory.write r a v

/-- `MemRead(i, 1)` with its bound (20_memory.md R41). -/
def readMem (s : State) (i : Nat) : Except Fault Byte :=
  if i < s.s.cfg.memSize then .ok (s.mem.read i) else .error .memIndex

/-- `MemWrite(i, 1, v)` with its bound (20_memory.md R42). -/
def writeMem (s : State) (i : Nat) (v : Byte) : Except Fault State :=
  if i < s.s.cfg.memSize then .ok (s.setMem (s.mem.write i v)) else .error .memIndex

/-- Where byte i of a handle's buffer stands among the host buffers (20_memory.md R47, log entry 13). -/
def bufKey (buf : Word) (i : Nat) : Nat := buf.toNat * 2 ^ 32 + i

/-- `BufRead(i)` (20_memory.md R47). -/
def readBuf (s : State) (buf : Word) (i : Nat) : Byte := s.bufs.read (bufKey buf i)

/-- `BufWrite(i, v)` (20_memory.md R47). -/
def writeBuf (s : State) (buf : Word) (i : Nat) (v : Byte) : State :=
  s.setBufs (s.bufs.write (bufKey buf i) v)

/-! ## Lines, pins and latches -/

/-- A pin's contribution to its line: 1 if input, else the driven value (10_state.md R21). -/
def contribution (d : Dir) (v : Bool) : Bool :=
  match d with
  | .inp => true
  | .out => v

/-- The master's contribution to SDA. -/
def masterSda (s : State) : Bool := contribution s.m.sdaDir s.m.sdaVal

/-- The master's contribution to SCL. -/
def masterScl (s : State) : Bool := contribution s.m.sclDir s.m.sclVal

/-- The slave's contribution to SDA. -/
def slaveSda (s : State) : Bool := contribution s.s.sdaDir s.s.sdaVal

/-- The level of SDA at the master's pin: the AND of every contribution to that wire (10_state.md R21). -/
def sdaAtMaster (s : State) : Bool :=
  if s.shared then masterSda s && slaveSda s && s.env.mSda && s.env.sSda else masterSda s && s.env.mSda

/-- The level of SDA at the slave's pin (10_state.md R21). -/
def sdaAtSlave (s : State) : Bool :=
  if s.shared then masterSda s && slaveSda s && s.env.mSda && s.env.sSda else slaveSda s && s.env.sSda

/-- The level of SCL at the slave's pin; the slave's own SCL pin is always an input (10_state.md R20, R21). -/
def sclAtSlave (s : State) : Bool :=
  if s.shared then masterScl s && s.env.mScl && s.env.sScl else s.env.sScl

/-- `after`, with the latch of every slave line whose level differs from `before` set (10_state.md R22,
46_common_semantics.md R202). -/
def latchEdges (before after : State) : State :=
  after.setE { after.e with
    sda := after.e.sda || (after.e.enabled && (sdaAtSlave before != sdaAtSlave after)),
    scl := after.e.scl || (after.e.enabled && (sclAtSlave before != sclAtSlave after)) }

/-- The master's `PinSet(SDA, b)` (00_scope.md R8, 10_state.md R20). -/
def masterSetSda (b : Bool) (s : State) : State :=
  latchEdges s (s.setM { s.m with sdaDir := .out, sdaVal := b })

/-- The master's `PinRelease(SDA)`. -/
def masterReleaseSda (s : State) : State :=
  latchEdges s (s.setM { s.m with sdaDir := .inp })

/-- The master's `PinSet(SCL, b)`. -/
def masterSetScl (b : Bool) (s : State) : State :=
  latchEdges s (s.setM { s.m with sclDir := .out, sclVal := b })

/-- The slave's `PinSet(SDA, b)`. -/
def slaveSetSda (b : Bool) (s : State) : State :=
  latchEdges s (s.setS { s.s with sdaDir := .out, sdaVal := b })

/-- The slave's `PinRelease(SDA)`. -/
def slaveReleaseSda (s : State) : State :=
  latchEdges s (s.setS { s.s with sdaDir := .inp })

/-- `EnvDrive(line, v)` (46_common_semantics.md R202). -/
def envDrive (line : Line) (v : Bool) (s : State) : State :=
  latchEdges s (s.setEnv (match line with
    | .mSda => { s.env with mSda := v }
    | .mScl => { s.env with mScl := v }
    | .sSda => { s.env with sSda := v }
    | .sScl => { s.env with sScl := v }))

/-- The master's `PinGet(SDA)`, its value kept for the command: on I2C the level of the line (10_state.md R21), on
RFFE the environment's next choice (42_master_rffe.md R139, log entry 14). -/
def masterSample (s : State) : State :=
  match s.m.cfg.variant with
  | .i2c => s.setM { s.m with sampled := sdaAtMaster s }
  | .rffe =>
    match s.env.samples with
    | b :: r => (s.setM { s.m with sampled := b }).setEnv { s.env with samples := r }
    | [] =>
      (s.setM { s.m with sampled := Config.freeSample s.env.freeCount }).setEnv
        { s.env with freeCount := s.env.freeCount + 1 }

/-! ## The end of a command, the configuration fault, construction -/

/-- A command ends: `M.busy` becomes 0, its status word is returned, and the master accepts the next command
(10_state.md R13, 30_encoding.md R72; log entry 3). -/
def returnStatus (s : State) : State :=
  (s.setM { s.m with busy := false }).setOut { s.out with status := s.out.status ++ [statusWord s.m] }

/-- `raise ConfigFault(c)` on the master: latch, and the command ends with its status word (60_exceptions.md R226). -/
def raiseMaster (c : ConfigFault) (s : State) : State :=
  returnStatus (s.setM { s.m with fault := true, faultCode := faultCode c })

/-- `raise ConfigFault(c)` on the slave: latch; the handler is disabled from then on (60_exceptions.md R226, R227). -/
def raiseSlave (c : ConfigFault) (s : State) : State :=
  s.setS { s.s with fault := true, faultCode := faultCode c }

/-- `HostConstruct` of the master: the only way its fault latch clears (70_reset_and_hazards.md R260, R261). Both pins
become inputs, so a line level may change. A status word already returned stays (DESIGN CHOICE, log entry 26). -/
def constructMaster (cfg : MasterCfg) (pinsOk clockTreeOk : Bool) (s : State) : State :=
  latchEdges s ((s.setM (masterReset cfg pinsOk clockTreeOk)).setCt { s.ct with minCoreHzReq := 0#32 })

/-- `HostConstruct` of the slave: the checks in order (60_exceptions.md R228), SDA released, the latches cleared, the
edge interrupts enabled unless a check failed (70_reset_and_hazards.md R262), the spy stream empty and the memory
kept (R263). DESIGN CHOICE, log entry 34: a construction whose check fails still leaves every other row of R262, as one
that passes does; R226 and R262 leave open whether a running slave keeps its registers there. -/
def constructSlave (cfg : SlaveCfg) (pinsOk : Bool) (s : State) : State :=
  let ok := pinsOk && decide (cfg.memSize ≠ 0)
  let t := ((s.setS (slaveReset cfg pinsOk)).setE
    { sda := false, scl := false, tmo := false, enabled := ok }).setOut { s.out with spy := [] }
  if pinsOk = false then raiseSlave .nullPin t
  else if cfg.memSize = 0 then raiseSlave .memSizeZero t
  else t

/-! ## Hooks and the spy stream -/

/-- `Fire(h)`: an event if the hook is registered, else its poll flag (44_slave_fsm.md R172). -/
def fire (h : Hook) (s : State) : State :=
  if hookEn s.s.cfg h then s.setOut { s.out with hooks := s.out.hooks ++ [h] }
  else s.setS (setHookFlag s.s h true)

/-- `Emit` of some characters, in order (45_bus_spy.md R211). -/
def emit (text : List Char) (s : State) : State :=
  s.setOut { s.out with spy := s.out.spy ++ text }

end Sys2Proof.Machine
end

