-- ==== Sys2Proof/Machine/Operands.lean ====
section
/-! DEFINITION. Operand forms: the delay unit's tick count and product (40_delay_engine.md R96 to R98), the rate and
wait parameters of CFG (R92 to R94), MSB-first bits (20_memory.md R43), byte counts (46_common_semantics.md R195),
the address match (44_slave_fsm.md R189), and the cursor's reduction and advance (R182, R184). -/

namespace Sys2Proof.Machine

/-- The bits of a value in wire order, most significant first (20_memory.md R43). -/
def msbFirst {w : Nat} (v : BitVec w) : List Bool := (List.range w).map v.getMsbD

/-- The tick count of a delay unit: `M.TL` while SCL is driven low, else `M.TH` (40_delay_engine.md R96). -/
def delayTicks (m : Master) : BitVec 16 := if m.sclVal then m.th else m.tl

/-- `M.waitParam * k` as a natural number, never wrapped (40_delay_engine.md R98). -/
def waitCount (m : Master) : Nat := m.waitParam.toNat * (delayTicks m).toNat

/-- The requested rate after the zero substitution (40_delay_engine.md R93). -/
def effectiveRate (c : MasterCfg) (bps : Word) : Word := if bps = 0#32 then c.defaultMinBps else bps

/-- The variant's highest legal rate (40_delay_engine.md R93). -/
def maxRate (c : MasterCfg) : Word :=
  match c.variant with
  | .i2c => Config.i2cMaxBps
  | .rffe => c.rffeMaxBps

/-- `WaitParamTimer(bps, t)`: open, or the instantiation of 40_delay_engine.md R101. -/
def waitParamTimer (f : WaitFns) (bps t : Nat) : Nat :=
  match f with
  | .free => Config.waitParamTimer bps t
  | .r101 _ => if t = 0 then 0 else 1000000 / (2 * bps * t)

/-- `WaitParamSpin(bps, f)`: open, or the instantiation of 40_delay_engine.md R101. -/
def waitParamSpin (f : WaitFns) (bps hz : Nat) : Nat :=
  match f with
  | .free => Config.waitParamSpin bps hz
  | .r101 cyc => hz / (2 * bps * cyc)

/-- `MinCoreHzFor(bps)`: open, or the instantiation of 40_delay_engine.md R101. -/
def minCoreHzFor (f : WaitFns) (bps : Nat) : Nat :=
  match f with
  | .free => Config.minCoreHzFor bps
  | .r101 cyc => 2 * bps * cyc

/-- The timer strategy's parameter: 0 when no timer is hooked (40_delay_engine.md R92). -/
def timerParam (c : MasterCfg) (r : Word) : Nat :=
  if c.timerHooked then waitParamTimer c.waitFns r.toNat c.tOvfUs else 0

/-- A non-zero wait parameter in its 32-bit register; above 32 bits the value is free, but not zero (40_delay_engine.md
R95, log entry 10). -/
def storedWaitParam (n : Nat) : Word :=
  if n < 2 ^ 32 then BitVec.ofNat 32 n
  else if Config.wideWaitParam n = 0#32 then 1#32 else Config.wideWaitParam n

/-- `max(CT.minCoreHzReq, MinCoreHzFor(r))` in its 32-bit register; above 32 bits the value is free, but never below
the old one (10_state.md R19, log entry 11). -/
def raisedClockReq (old : Word) (need : Nat) : Word :=
  if max old.toNat need < 2 ^ 32 then BitVec.ofNat 32 (max old.toNat need)
  else if (Config.wideMinCoreHz need).toNat < old.toNat then old else Config.wideMinCoreHz need

/-- The bytes a MOVE receives: `max(count, 1)` (41_master_i2c.md R117). -/
def receiveCount (count : Word) : Nat := max count.toNat 1

/-- `MATCH(v)`: bit 0 is ignored on both sides (44_slave_fsm.md R189). -/
def addrMatch (c : SlaveCfg) (v : Byte) : Bool :=
  c.addr.any (fun a => (v &&& 0xFE#8) == (a &&& 0xFE#8))

/-- A sub-address byte reduced modulo `MEM_SIZE` (44_slave_fsm.md R182), which has no meaning for size 0
(60_exceptions.md R228). -/
def reduceIndex (c : SlaveCfg) (v : Byte) : Except Fault Nat :=
  if c.memSize = 0 then .error .memIndex else .ok (v.toNat % c.memSize)

/-- `(cursor + 1) mod N` (46_common_semantics.md R195). -/
def nextCursor (x : Slave) : Nat := (x.cursor + 1) % x.cfg.memSize

end Sys2Proof.Machine
end

