-- ==== Sys2Proof/Machine/Fsm.lean ====
section
/-! DEFINITION. The slave state machine (44_slave_fsm.md): the seven state functions, the table `STATE_FN`, the
pass-through of Idle and StartBitReceived (R166), and the meaning of the seven STATE rows: the state function applied
to the current symbol. -/

namespace Sys2Proof.Machine

/-- What a state function answers: the context after its actions and the next state, or a stop. -/
abbrev Moved := Except Fault (State × StateName)

/-- Idle (44_slave_fsm.md R171). -/
def idleFn (y : Symbol) (s : State) : State × StateName :=
  let s := slaveReleaseSda s
  let s := if y = .stop then fire .busFree s else s
  let s := if s.s.memWritten then (fun t : State => t.setS { t.s with memWritten := false }) (fire .writeDone s) else s
  let s := if s.s.memRead then (fun t : State => t.setS { t.s with memRead := false }) (fire .readDone s) else s
  let s := if s.s.cfg.cursorRestore then s.setS { s.s with cursor := s.s.initCursor } else s
  (s, .waitForStart)

/-- StartBitReceived (44_slave_fsm.md R175). -/
def startBitFn (s : State) : State × StateName :=
  (s.setS { s.s with busBusy := true, sr := 0#8, mask := 0x80#8, ackPhase := false }, .receiveAddress)

/-- Stop in any stored state: the bus is marked free (44_slave_fsm.md R174, R176). -/
def busFreed (s : State) : State := s.setS { s.s with busBusy := false }

/-- WaitForStart (44_slave_fsm.md R173, R174). -/
def waitForStartFn (y : Symbol) (s : State) : State × StateName :=
  match y with
  | .start => (s, .startBitReceived)
  | .stop => (busFreed s, .idle)
  | .error => (s, .idle)
  | .timeout => (s, .idle)
  | .void => (s, .waitForStart)
  | .re0 => (s, .waitForStart)
  | .re1 => (s, .waitForStart)
  | .fe0 => (s, .waitForStart)
  | .fe1 => (s, .waitForStart)

/-- The handling common to the four data-bearing states (44_slave_fsm.md R176), around a state's own answer to a
rising edge with its bit and to a falling edge, whose bit no state uses (R168). -/
def commonFn (here : StateName) (rise : Bool → State → Moved) (fall : State → Moved) (y : Symbol) (s : State) :
    Moved :=
  match y with
  | .start => .ok (s, .startBitReceived)
  | .stop => .ok (busFreed s, .idle)
  | .error => .ok (s, .idle)
  | .timeout => .ok (s, .idle)
  | .void => .ok (s, here)
  | .re0 => rise false s
  | .re1 => rise true s
  | .fe0 => fall s
  | .fe1 => fall s

/-- ACCUM(b) (44_slave_fsm.md R177). -/
def accum (b : Bool) (x : Slave) : Slave :=
  if x.mask ≠ 0#8 then { x with sr := if b then x.sr ||| x.mask else x.sr, mask := x.mask >>> 1 } else x

/-- A falling edge in a receive state (44_slave_fsm.md R177, ACKEDGE): nothing while bits are due, then the acknowledge
is set up, then the state's own commit ends the byte. -/
def ackEdge (here : StateName) (commit : State → Moved) (s : State) : Moved :=
  if s.s.mask ≠ 0#8 then .ok (s, here)
  else if s.s.ackPhase = false then
    .ok ((fun t : State => t.setS { t.s with ackPhase := true }) (slaveSetSda false s), here)
  else commit (s.setS { s.s with ackPhase := false, mask := 0x80#8 })

/-- ReceiveAddress on a rising edge (44_slave_fsm.md R178). -/
def addressRise (b : Bool) (s : State) : Moved :=
  let t := s.setS (accum b s.s)
  if s.s.mask ≠ 0#8 ∧ t.s.mask = 0#8 then
    if addrMatch t.s.cfg t.s.sr then .ok (t.setS { t.s with decodedAddr := t.s.sr }, .receiveAddress)
    else .ok (t, .idle)
  else .ok (t, .receiveAddress)

/-- Stage the byte at the cursor: `S.sr` takes it and its bit 7 is driven (44_slave_fsm.md R180, R188). -/
def stageByte (s : State) : Except Fault State :=
  match readMem s s.s.cursor with
  | .ok v => .ok (slaveSetSda (v.getLsbD 7) (s.setS { s.s with sr := v }))
  | .error e => .error e

/-- The end of the address byte's acknowledge clock (44_slave_fsm.md R180). -/
def addressCommit (s : State) : Moved :=
  if s.s.decodedAddr.getLsbD 0 = false then
    .ok ((fun t : State => t.setS { t.s with sr := 0#8 }) (slaveReleaseSda s), .receiveSubAddress)
  else match stageByte s with
    | .ok t => .ok (t, .transmit)
    | .error e => .error e

/-- ReceiveAddress (44_slave_fsm.md R178 to R180). -/
def receiveAddressFn (y : Symbol) (s : State) : Moved :=
  commonFn .receiveAddress addressRise (ackEdge .receiveAddress addressCommit) y s

/-- The cursor commit (44_slave_fsm.md R182). -/
def subAddressCommit (s : State) : Moved :=
  match reduceIndex s.s.cfg s.s.sr with
  | .ok c => .ok ((fun t : State => t.setS { t.s with cursor := c, initCursor := c, sr := 0#8 }) (slaveReleaseSda s),
      .receiveData)
  | .error e => .error e

/-- ReceiveSubAddress (44_slave_fsm.md R181, R182). -/
def receiveSubAddressFn (y : Symbol) (s : State) : Moved :=
  commonFn .receiveSubAddress (fun b t => .ok (t.setS (accum b t.s), .receiveSubAddress))
    (ackEdge .receiveSubAddress subAddressCommit) y s

/-- The memory commit, the only write to the backing memory by the slave (44_slave_fsm.md R184). -/
def dataCommit (s : State) : Moved :=
  match writeMem (slaveReleaseSda s) s.s.cursor s.s.sr with
  | .ok t => .ok (t.setS { t.s with cursor := nextCursor t.s, memWritten := true, sr := 0#8 }, .receiveData)
  | .error e => .error e

/-- ReceiveData (44_slave_fsm.md R183, R184). -/
def receiveDataFn (y : Symbol) (s : State) : Moved :=
  commonFn .receiveData (fun b t => .ok (t.setS (accum b t.s), .receiveData))
    (ackEdge .receiveData dataCommit) y s

/-- The bit of the staged byte at the mask (44_slave_fsm.md R185, R187). -/
def stagedBit (x : Slave) : Bool := decide (x.sr &&& x.mask ≠ 0#8)

/-- Transmit on a rising edge: the readback check and the mask step (44_slave_fsm.md R185), then the master's
acknowledge bit, ignored unless `SLAVE_TX_HONOURS_NACK` (R186). -/
def transmitRise (b : Bool) (s : State) : Moved :=
  if s.s.mask ≠ 0#8 then
    if b ≠ stagedBit s.s then .ok (s, .idle)
    else .ok (s.setS { s.s with mask := s.s.mask >>> 1 }, .transmit)
  else if s.s.cfg.honoursNack ∧ s.s.ackPhase ∧ b then .ok (s.setS { s.s with memRead := true }, .idle)
  else .ok (s, .transmit)

/-- Transmit on a falling edge: drive the next bit, release for the acknowledge bit, stage the next byte
(44_slave_fsm.md R187, R188). -/
def transmitFall (s : State) : Moved :=
  if s.s.mask ≠ 0#8 then .ok (slaveSetSda (stagedBit s.s) s, .transmit)
  else if s.s.ackPhase = false then
    .ok ((fun t : State => t.setS { t.s with ackPhase := true }) (slaveReleaseSda s), .transmit)
  else match stageByte (s.setS { s.s with cursor := nextCursor s.s, memRead := true, mask := 0x80#8, ackPhase := false }) with
    | .ok t => .ok (t, .transmit)
    | .error e => .error e

/-- Transmit (44_slave_fsm.md R185 to R188). -/
def transmitFn (y : Symbol) (s : State) : Moved :=
  commonFn .transmit transmitRise transmitFall y s

/-- `STATE_FN` (44_slave_fsm.md R165); its entries 7 to 31 are no state of the enumeration (R170). -/
def stateFn (x : StateName) (y : Symbol) (s : State) : Moved :=
  match x with
  | .idle => .ok (idleFn y s)
  | .waitForStart => .ok (waitForStartFn y s)
  | .startBitReceived => .ok (startBitFn s)
  | .receiveAddress => receiveAddressFn y s
  | .receiveSubAddress => receiveSubAddressFn y s
  | .receiveData => receiveDataFn y s
  | .transmit => transmitFn y s

/-- Idle and StartBitReceived are pass-through (44_slave_fsm.md R166). -/
def passThrough : StateName → Bool
  | .idle => true
  | .startBitReceived => true
  | .waitForStart => false
  | .receiveAddress => false
  | .receiveSubAddress => false
  | .receiveData => false
  | .transmit => false

/-- The loop of the dispatcher, which runs at most twice (44_slave_fsm.md R166). -/
def passOn : Nat → Symbol → State × StateName → Moved
  | 0, _, r => .ok r
  | n + 1, y, r =>
    if passThrough r.2 then
      match stateFn r.2 y r.1 with
      | .ok q => passOn n y q
      | .error e => .error e
    else .ok r

/-- Run a state's function on a symbol, pass on, store the next state (44_slave_fsm.md R166). -/
def runState (x : StateName) (y : Symbol) (s : State) : Except Fault State :=
  match stateFn x y s with
  | .error e => .error e
  | .ok r =>
    match passOn 2 y r with
    | .error e => .error e
    | .ok q => .ok (q.1.setS { q.1.s with state := stateCode q.2 })

/-- A STATE row: its function on the current symbol, unless the slave is halted (60_exceptions.md R227, log entry
18). -/
def execState (x : StateName) (s : State) : Result :=
  if s.s.fault then .next s
  else match runState x s.s.sym s with
    | .ok t => .next t
    | .error e => .fault e

/-- STATE_Idle (44_slave_fsm.md R171). -/
def execStateIdle (s : State) : Result := execState .idle s

/-- STATE_WaitForStart (44_slave_fsm.md R174). -/
def execStateWaitForStart (s : State) : Result := execState .waitForStart s

/-- STATE_StartBitReceived (44_slave_fsm.md R175). -/
def execStateStartBitReceived (s : State) : Result := execState .startBitReceived s

/-- STATE_ReceiveAddress (44_slave_fsm.md R178). -/
def execStateReceiveAddress (s : State) : Result := execState .receiveAddress s

/-- STATE_ReceiveSubAddress (44_slave_fsm.md R181). -/
def execStateReceiveSubAddress (s : State) : Result := execState .receiveSubAddress s

/-- STATE_ReceiveData (44_slave_fsm.md R183). -/
def execStateReceiveData (s : State) : Result := execState .receiveData s

/-- STATE_Transmit (44_slave_fsm.md R185). -/
def execStateTransmit (s : State) : Result := execState .transmit s

end Sys2Proof.Machine
end

