-- ==== Sys2Proof/Machine/Spy.lean ====
section
/-! DEFINITION. The bus spy (45_bus_spy.md R212). -/

namespace Sys2Proof.Machine

/-- `HEX(n)`: `0` to `9` stand from code point 0x30 on, `A` to `F` from 0x41 on (45_bus_spy.md R212). -/
def hexDigit (n : BitVec 4) : Char :=
  Char.ofNat (n.toNat + if n.toNat < 10 then 0x30 else 0x41 - 10)

/-- The spy's counters. -/
def setSpy (count nibble : BitVec 4) (s : State) : State :=
  s.setS { s.s with spyCount := count, spyNibble := nibble }

/-- A rising edge with bit b (45_bus_spy.md R212). -/
def spyRise (b : Bool) (s : State) : State :=
  let c := s.s.spyCount + 1#4
  let n := (s.s.spyNibble <<< 1) ||| (BitVec.ofBool b).setWidth 4
  if c.toNat ≤ 8 then
    if c = 4#4 ∨ c = 8#4 then emit [hexDigit n] (setSpy c 0#4 s) else setSpy c n s
  else emit [if b then 'n' else 'a'] (setSpy 0#4 s.s.spyNibble s)

/-- The spy step (45_bus_spy.md R212). -/
def spyStep (y : Symbol) (s : State) : State :=
  match y with
  | .start => emit ['S'] (setSpy 0#4 0#4 s)
  | .stop => emit ['P', Config.spyEol] (setSpy 0#4 0#4 s)
  | .error => emit ['?'] s
  | .timeout => s
  | .void => s
  | .re0 => spyRise false s
  | .re1 => spyRise true s
  | .fe0 => s
  | .fe1 => s

end Sys2Proof.Machine
end

