-- ==== Sys2Proof/Machine/Symbols.lean ====
section
/-! DEFINITION. The nine symbols as instructions: the dispatcher runs the stored state's function on the symbol
(44_slave_fsm.md R166), then the spy consumes the same symbol (45_bus_spy.md R212). -/

namespace Sys2Proof.Machine

/-- A stored index of a state that is no pass-through state (44_slave_fsm.md R166, R167). -/
def storedState (c : BitVec 5) : Option StateName :=
  match stateOfCode c with
  | some x => if passThrough x then none else some x
  | none => none

/-- The spy runs in a slave instance with `SPY_EN` (45_bus_spy.md R210). -/
def spyIfEnabled (y : Symbol) (s : State) : State :=
  if s.s.cfg.spyEn then spyStep y s else s

/-- One symbol consumed: nothing on a halted slave (60_exceptions.md R227); DISPATCH, whose only test is the stored
index (44_slave_fsm.md R166, R170), then the spy (20_memory.md R51; log entries 17, 20). -/
def consume (y : Symbol) (s : State) : Result :=
  if s.s.fault then .next s
  else match storedState s.s.state with
    | none => .next (raiseSlave .badState s)
    | some x =>
      match runState x y (s.setS { s.s with sym := y }) with
      | .ok t => .next (spyIfEnabled y t)
      | .error e => .fault e

/-- Start (44_slave_fsm.md R173, R176). -/
def execSymStart (s : State) : Result := consume .start s

/-- Stop (44_slave_fsm.md R174, R176). -/
def execSymStop (s : State) : Result := consume .stop s

/-- Error (44_slave_fsm.md R174, R176). -/
def execSymError (s : State) : Result := consume .error s

/-- Timeout (43_classifier.md R155, 44_slave_fsm.md R176). -/
def execSymTimeout (s : State) : Result := consume .timeout s

/-- Void (44_slave_fsm.md R169). -/
def execSymVoid (s : State) : Result := consume .void s

/-- RisingEdgeBit0 (44_slave_fsm.md R177). -/
def execSymRe0 (s : State) : Result := consume .re0 s

/-- RisingEdgeBit1 (44_slave_fsm.md R177). -/
def execSymRe1 (s : State) : Result := consume .re1 s

/-- FallingEdgeBit0 (44_slave_fsm.md R177). -/
def execSymFe0 (s : State) : Result := consume .fe0 s

/-- FallingEdgeBit1 (44_slave_fsm.md R177). -/
def execSymFe1 (s : State) : Result := consume .fe1 s

end Sys2Proof.Machine
end

