-- ==== Sys2Proof/Machine/Classifier.lean ====
section
/-! DEFINITION. The edge classifier: `CLASSIFY_LUT`, sixteen entries (43_classifier.md R152, R157), the capture of the
snapshot (R151), and the sixteen SNAP rows: classify, then consume the symbol. -/

namespace Sys2Proof.Machine

/-- `CLASSIFY_LUT` in the order of the snapshots 0000 to 1111 (43_classifier.md R152). -/
def classifyLut : Vector Symbol 16 :=
  #v[.void, .void, .fe0, .re0, .void, .void, .fe1, .re1, .void, .start, .error, .error, .void, .stop, .error, .error]

/-- `sym <- CLASSIFY_LUT[snap]` (43_classifier.md R152). -/
def classify (snap : BitVec 4) : Symbol := classifyLut.get snap.toFin

/-- A level or a latch as one bit of the snapshot. -/
def bitAt (b : Bool) (k : Nat) : BitVec 4 := (BitVec.ofBool b).setWidth 4 <<< k

/-- The snapshot `{e_sda, l_sda, e_scl, l_scl}` (30_encoding.md R61, 43_classifier.md R151). -/
def snapshot (s : State) : BitVec 4 :=
  bitAt s.e.sda 3 ||| bitAt (sdaAtSlave s) 2 ||| bitAt s.e.scl 1 ||| bitAt (sclAtSlave s) 0

/-- Both edge latches cleared, whichever was set (43_classifier.md R151). -/
def clearEdges (s : State) : State := s.setE { s.e with sda := false, scl := false }

/-- Classify a snapshot and consume its symbol (43_classifier.md R150, log entry 19). -/
def consumeSnapshot (snap : BitVec 4) (s : State) : Result := consume (classify snap) s

/-- SNAP_0000 (43_classifier.md R152). -/
def execSnap0000 (s : State) : Result := consumeSnapshot 0b0000#4 s

/-- SNAP_0001 (43_classifier.md R152). -/
def execSnap0001 (s : State) : Result := consumeSnapshot 0b0001#4 s

/-- SNAP_0010 (43_classifier.md R152). -/
def execSnap0010 (s : State) : Result := consumeSnapshot 0b0010#4 s

/-- SNAP_0011 (43_classifier.md R152). -/
def execSnap0011 (s : State) : Result := consumeSnapshot 0b0011#4 s

/-- SNAP_0100 (43_classifier.md R152). -/
def execSnap0100 (s : State) : Result := consumeSnapshot 0b0100#4 s

/-- SNAP_0101 (43_classifier.md R152). -/
def execSnap0101 (s : State) : Result := consumeSnapshot 0b0101#4 s

/-- SNAP_0110 (43_classifier.md R152). -/
def execSnap0110 (s : State) : Result := consumeSnapshot 0b0110#4 s

/-- SNAP_0111 (43_classifier.md R152). -/
def execSnap0111 (s : State) : Result := consumeSnapshot 0b0111#4 s

/-- SNAP_1000 (43_classifier.md R152). -/
def execSnap1000 (s : State) : Result := consumeSnapshot 0b1000#4 s

/-- SNAP_1001 (43_classifier.md R152). -/
def execSnap1001 (s : State) : Result := consumeSnapshot 0b1001#4 s

/-- SNAP_1010 (43_classifier.md R152). -/
def execSnap1010 (s : State) : Result := consumeSnapshot 0b1010#4 s

/-- SNAP_1011 (43_classifier.md R152). -/
def execSnap1011 (s : State) : Result := consumeSnapshot 0b1011#4 s

/-- SNAP_1100 (43_classifier.md R152). -/
def execSnap1100 (s : State) : Result := consumeSnapshot 0b1100#4 s

/-- SNAP_1101 (43_classifier.md R152). -/
def execSnap1101 (s : State) : Result := consumeSnapshot 0b1101#4 s

/-- SNAP_1110 (43_classifier.md R152). -/
def execSnap1110 (s : State) : Result := consumeSnapshot 0b1110#4 s

/-- SNAP_1111 (43_classifier.md R152). -/
def execSnap1111 (s : State) : Result := consumeSnapshot 0b1111#4 s

end Sys2Proof.Machine
end

