-- ==== Sys2Proof/Machine/Sequences.lean ====
section
/-! DEFINITION. The internal sequences of the master as lists of micro-operations: STOPSEQ, ERRREC, TXBYTE, RXBYTE and
START's condition (41_master_i2c.md), SSC, PARKSEQ, TXBIT, RXBIT, RSENDBYTE, RREADBYTE (42_master_rffe.md). Their
lengths are those of 46_common_semantics.md R199. -/

namespace Sys2Proof.Machine

/-- A list of micro-operations as items of an expansion. -/
def micros (us : List Micro) : List Op := us.map Op.micro

/-- STOPSEQ: `C0 W D0 W C1 W D1` (41_master_i2c.md R108). -/
def stopSeq : List Op :=
  micros [.scl false, .wait, .sda false, .wait, .scl true, .wait, .sda true]

/-- ERRREC: eight times STOPSEQ and a wait (41_master_i2c.md R109). -/
def errRec : List Op :=
  (List.replicate Config.errRecStops (stopSeq ++ micros [.wait])).flatten

/-- One transmitted bit of TXBYTE: `D<b> W C1 W C0` (41_master_i2c.md R112). -/
def txByteBit (b : Bool) : List Op := micros [.sda b, .wait, .scl true, .wait, .scl false]

/-- TXBYTE once its skip test passed: eight bits, then the acknowledge slot `DZ W C1 W G C0` whose sample is
accumulated (41_master_i2c.md R112). -/
def txByteOps (v : Byte) : List Op :=
  (msbFirst v).flatMap txByteBit ++
  micros [.relSda, .wait, .scl true, .wait, .get, .scl false] ++ [.orAck]

/-- One received bit of RXBYTE: `W C1 W G`, the shift, `C0` (41_master_i2c.md R113). -/
def rxByteBit : List Op := micros [.wait, .scl true, .wait, .get] ++ [.shiftAcc] ++ micros [.scl false]

/-- RXBYTE(doAck), with its automatic Stop sequence when not acknowledging (41_master_i2c.md R113). -/
def rxByteOps (doAck : Bool) : List Op :=
  micros [.relSda] ++ (List.replicate 8 rxByteBit).flatten ++
  micros [.sda (!doAck), .wait, .scl true, .wait, .scl false] ++
  (if doAck then [] else stopSeq)

/-- START: `D1 G`, the stuck test, `C1 W D0 W C0`, TXBYTE of the address; this order is normative
(41_master_i2c.md R110, R111). -/
def startOps (addr8 : Byte) : List Op :=
  micros [.sda true, .get] ++ [.stuckTest] ++
  micros [.scl true, .wait, .sda false, .wait, .scl false] ++ [.txByte addr8]

/-- MOVE (41_master_i2c.md R117), by the low bit of the address given to START. -/
def moveOps (addr : Byte) (buf count : Word) (more : Bool) : List Op :=
  if addr.getLsbD 0 then [.rxBytes buf 0 (receiveCount count) count.toNat more]
  else .txBytes buf 0 count.toNat :: (if more then [] else stopSeq)

/-- TXBIT: `D<b> C1 W C0 W` (42_master_rffe.md R132). -/
def txBit (b : Bool) : List Op := micros [.sda b, .scl true, .wait, .scl false, .wait]

/-- A value's bits, most significant first, then its parity bit (42_master_rffe.md R131, R132). -/
def txFrame {w : Nat} (v : BitVec w) : List Op := (msbFirst v).flatMap txBit ++ txBit (parity v)

/-- RSENDBYTE(v) (42_master_rffe.md R132). -/
def rsendByteOps (v : Byte) : List Op := txFrame v

/-- RXBIT: `C1 W C0 G W` (42_master_rffe.md R134). -/
def rxBit : List Op := micros [.scl true, .wait, .scl false, .get, .wait]

/-- RREADBYTE: eight bits shifted in, then the parity bit compared (42_master_rffe.md R134). -/
def rreadByteOps : List Op :=
  (List.replicate 8 (rxBit ++ [.shiftAcc])).flatten ++ rxBit ++ [.parityTest]

/-- SSC: `C0 D1 W D0 W` (42_master_rffe.md R137). -/
def sscSeq : List Op := micros [.scl false, .sda true, .wait, .sda false, .wait]

/-- PARKSEQ: `C1 D0 W DZ C0 W DZ` (42_master_rffe.md R138). -/
def parkSeq : List Op :=
  micros [.scl true, .sda false, .wait, .relSda, .scl false, .wait, .relSda]

/-- RSTART (42_master_rffe.md R131). -/
def rstartOps (cmd12 : BitVec 12) : List Op := sscSeq ++ txFrame cmd12

/-- RMOVE once its three tests passed (42_master_rffe.md R136). -/
def rmoveOps (txbuf rxbuf count : Word) : List Op :=
  if txbuf ≠ 0#32 then [.rsendBytes txbuf 0 count.toNat]
  else parkSeq ++ [.rreadBytes rxbuf 0 count.toNat]

end Sys2Proof.Machine
end

