-- ==== Sys2Proof/Machine/Engine.lean ====
section
/-! DEFINITION. The master sequencer: how a command is entered (60_exceptions.md R230, 41_master_i2c.md R106), how its
expansion is computed as it runs (10_state.md R13, 46_common_semantics.md R198), and one step of it: one
micro-operation, or the arming of the countdown a `Wait` then blocks on (40_delay_engine.md R97). -/

namespace Sys2Proof.Machine

/-- Run the actions at the head of an expansion that take no step, until a micro-operation is next or the expansion
is exhausted (46_common_semantics.md R198). -/
def settle : List Op → State → State × List Op
  | [], s => (s, [])
  | .micro u :: r, s => (s, .micro u :: r)
  | .stuckTest :: r, s => if s.m.sampled then settle r s else (s, errRec ++ r)
  | .orAck :: r, s => settle r (s.setM (orAckFail s.m))
  | .shiftAcc :: r, s => settle r (s.setM (shiftInAcc s.m))
  | .parityTest :: r, s => settle r (s.setM (testParity s.m))
  | .store buf i :: r, s => settle r (writeBuf s buf i s.m.acc)
  | .txByte v :: r, s => if s.m.ackFail then settle r s else (s, txByteOps v ++ r)
  | .txBytes buf i n :: r, s =>
    match n with
    | 0 => settle r s
    | k + 1 =>
      if s.m.ackFail then settle r s
      else (s, txByteOps (readBuf s buf i) ++ .txBytes buf (i + 1) k :: r)
  | .rxBytes buf i n count more :: r, s =>
    match n with
    | 0 => settle r s
    | k + 1 =>
      (s, rxByteOps (decide (0 < k) || more) ++
        ((if i < count then [.store buf i] else []) ++ .rxBytes buf (i + 1) k count more :: r))
  | .rsendBytes buf i n :: r, s =>
    match n with
    | 0 => settle r s
    | k + 1 => (s, rsendByteOps (readBuf s buf i) ++ .rsendBytes buf (i + 1) k :: r)
  | .rreadBytes buf i n :: r, s =>
    match n with
    | 0 => settle r s
    | k + 1 => (s, rreadByteOps ++ .store buf i :: .rreadBytes buf (i + 1) k :: r)

/-- Go on with an expansion: the next micro-operation waits in `M.todo`, or the command ends (10_state.md R13). -/
def resume (ops : List Op) (s : State) : State :=
  let t := (settle ops s).1
  match (settle ops s).2 with
  | [] => returnStatus (t.setM { t.m with todo := [] })
  | o :: r => t.setM { t.m with todo := o :: r }

/-- `HostIssue`'s `M.busy <- 1`, for every command; one that is refused, faults or needs no micro-operation ends in the same
step, and `returnStatus` takes it back (46_common_semantics.md R201, 10_state.md R13, log entry 3). -/
def accept (s : State) : State := s.setM { s.m with busy := true }

/-- What every command meets first: while another runs it is not accepted (60_exceptions.md R246, log entry 21); on a
halted master its status word is all there is (R227, R230). -/
def acceptCommand (run : State → State) (s : State) : Result :=
  if s.m.busy then .next s
  else if s.m.fault then .next (returnStatus (accept s))
  else .next (run (accept s))

/-- Start the expansion of an accepted command (10_state.md R13). -/
def beginCommand (ops : List Op) (s : State) : State :=
  resume ops (s.setM { s.m with pos := 0, waiting := false })

/-- The entry checks of a bus command in the order of 60_exceptions.md R230: not configured, other variant. -/
def checkBus (v : Variant) (run : State → State) (s : State) : State :=
  if s.m.strategy = .none then raiseMaster .notConfigured s
  else if s.m.cfg.variant ≠ v then raiseMaster .badCommand s
  else run s

/-- A bus command (60_exceptions.md R230). -/
def enterBus (v : Variant) (run : State → State) (s : State) : Result := acceptCommand (checkBus v run) s

/-- A command whose opcode is none of the seven (60_exceptions.md R230, 30_encoding.md R74). -/
def rejectOpcode (s : State) : Result := acceptCommand (raiseMaster .badCommand) s

/-- A micro-operation was executed: `M.pos` counts it and the rest of the expansion goes on (10_state.md R13). -/
def advance (rest : List Op) (s : State) : State :=
  resume rest (s.setM { s.m with pos := s.m.pos + 1, waiting := false })

/-- `ArmCountdown(timer, channel, n)` (60_exceptions.md R244). -/
def armTimer (n : Nat) (s : State) : State :=
  s.setTimer { s.timer with running := true, count := n, done := false }

/-- `TimerDone` (46_common_semantics.md R202). -/
def timerDone (s : State) : State :=
  s.setTimer { s.timer with running := false, done := true }

/-- One step at a `Wait` (40_delay_engine.md R97, log entry 5). -/
def waitStep (rest : List Op) (s : State) : Result :=
  if waitCount s.m = 0 then .next (advance rest s)
  else match s.m.strategy with
    | .spin => .next (advance rest s)
    | .timer =>
      if s.m.waiting then (if s.timer.done then .next (advance rest s) else .next s)
      else .next (armTimer (waitCount s.m) (s.setM { s.m with waiting := true }))
    | .none => .fault .waitUnconfigured

/-- One micro-operation (30_encoding.md R76), then the rest of the expansion. -/
def microStep (u : Micro) (rest : List Op) (s : State) : Result :=
  match u with
  | .sda b => .next (advance rest (masterSetSda b s))
  | .relSda => .next (advance rest (masterReleaseSda s))
  | .scl b => .next (advance rest (masterSetScl b s))
  | .get => .next (advance rest (masterSample s))
  | .wait => waitStep rest s

/-- One step of the master (00_scope.md R3). -/
def masterStep (s : State) : Result :=
  match s.m.todo with
  | .micro u :: r => microStep u r s
  | ops => .next (resume ops s)

/-- The master is inside a `Wait` whose done flag is not up (40_delay_engine.md R97). -/
def masterBlocked (s : State) : Bool :=
  match s.m.todo with
  | .micro .wait :: _ =>
    decide (waitCount s.m ≠ 0) && decide (s.m.strategy = .timer) && s.m.waiting && !s.timer.done
  | _ => false

/-- The master has an enabled step: a command runs, no fault is latched (60_exceptions.md R227), no `Wait` blocks. -/
def masterReady (s : State) : Bool := s.m.busy && !s.m.fault && !masterBlocked s

end Sys2Proof.Machine
end

