-- ==== Sys2Proof/Machine/Delay.lean ====
section
/-! DEFINITION. The delay engine's command CFG (40_delay_engine.md R92 to R95). -/

namespace Sys2Proof.Machine

/-- The configuration registers CFG writes at once (10_state.md R17). -/
def configure (r : Word) (tl th : BitVec 16) (st : Strategy) (p : Word) (s : State) : State :=
  s.setM { s.m with bps := r, tl := tl, th := th, strategy := st, waitParam := p, pos := 0 }

/-- The strategy choice of CFG at the legal rate r: timer first, then the spin loop, then a raised clock requirement
(40_delay_engine.md R92, R94). -/
def chooseStrategy (r : Word) (tl th : BitVec 16) (s : State) : State :=
  if timerParam s.m.cfg r ≠ 0 then
    returnStatus (configure r tl th .timer (storedWaitParam (timerParam s.m.cfg r)) s)
  else match s.ct.coreHz with
    | some f =>
      if waitParamSpin s.m.cfg.waitFns r.toNat f = 0 then raiseMaster .rateUnreachable s
      else returnStatus (configure r tl th .spin (storedWaitParam (waitParamSpin s.m.cfg.waitFns r.toNat f)) s)
    | none =>
      returnStatus ((configure r tl th .none 0#32 s).setCt
        { s.ct with minCoreHzReq := raisedClockReq s.ct.minCoreHzReq (minCoreHzFor s.m.cfg.waitFns r.toNat) })

/-- CFG (40_delay_engine.md R92): the checks in the order written; a fault leaves every register as it was. -/
def runCfg (bps : Word) (tl th : BitVec 16) (s : State) : State :=
  if s.m.pinsOk = false then raiseMaster .nullPin s
  else if s.m.clockTreeOk = false then raiseMaster .noClockTree s
  else if (maxRate s.m.cfg).toNat < (effectiveRate s.m.cfg bps).toNat then raiseMaster .rateTooHigh s
  else chooseStrategy (effectiveRate s.m.cfg bps) tl th s

/-- CFG, for any variant and strategy (60_exceptions.md R230, 40_delay_engine.md R92). -/
def execCfg (bps : Word) (tl th : BitVec 16) (s : State) : Result := acceptCommand (runCfg bps tl th) s

end Sys2Proof.Machine
end

