-- ==== Sys2Proof/Machine/I2c.lean ====
section
/-! DEFINITION. The I2C master's commands START, MOVE, STOP (41_master_i2c.md R110, R117, R119): the entry checks, the
command's register writes, and its expansion, which the master's following steps execute. -/

namespace Sys2Proof.Machine

/-- START (41_master_i2c.md R110): `M.ackFail` cleared and `M.addr` written before the first micro-operation. -/
def execStart (addr8 : Byte) (s : State) : Result :=
  enterBus .i2c (fun t => beginCommand (startOps addr8) (t.setM { t.m with ackFail := false, addr := addr8 })) s

/-- MOVE (41_master_i2c.md R117). -/
def execMove (buf count : Word) (more : Bool) (s : State) : Result :=
  enterBus .i2c (fun t => beginCommand (moveOps t.m.addr buf count more) t) s

/-- STOP (41_master_i2c.md R119). -/
def execStop (s : State) : Result :=
  enterBus .i2c (beginCommand stopSeq) s

end Sys2Proof.Machine
end

