-- ==== Sys2Proof/Machine/Rffe.lean ====
section
/-! DEFINITION. The RFFE master's commands RSTART, RMOVE, RPARK (42_master_rffe.md R131, R136, R135). -/

namespace Sys2Proof.Machine

/-- RSTART (42_master_rffe.md R131): `M.parityErr` cleared, SSC, the 12 bits and their parity bit. -/
def execRstart (cmd12 : BitVec 12) (s : State) : Result :=
  enterBus .rffe (fun t => beginCommand (rstartOps cmd12) (t.setM { t.m with parityErr := false })) s

/-- RMOVE (42_master_rffe.md R136): the three tests in the order written, then the transfer. -/
def execRmove (txbuf rxbuf count : Word) (s : State) : Result :=
  enterBus .rffe (fun t =>
    if txbuf ≠ 0#32 ∧ rxbuf ≠ 0#32 then raiseMaster .moveDualDir t
    else if count = 0#32 then raiseMaster .moveZeroLen t
    else if txbuf = 0#32 ∧ rxbuf = 0#32 then raiseMaster .moveNoBuffer t
    else beginCommand (rmoveOps txbuf rxbuf count) t) s

/-- RPARK (42_master_rffe.md R135). -/
def execRpark (s : State) : Result :=
  enterBus .rffe (beginCommand parkSeq) s

end Sys2Proof.Machine
end

