-- ==== Sys2Proof/Machine/Dispatch.lean ====
section
/-! DEFINITION. One arm per constructor of Instr, each one direct call of its meaning. -/

namespace Sys2Proof.Machine

/-- The meaning of an instruction. -/
def exec (i : Instr) (s : State) : Host.Outcome State Fault Refusal :=
  match i with
  | .cfg bps tl th => Sys2Proof.Machine.execCfg bps tl th s
  | .start addr8 => Sys2Proof.Machine.execStart addr8 s
  | .move buf count more => Sys2Proof.Machine.execMove buf count more s
  | .stop => Sys2Proof.Machine.execStop s
  | .rstart cmd12 => Sys2Proof.Machine.execRstart cmd12 s
  | .rmove txbuf rxbuf count => Sys2Proof.Machine.execRmove txbuf rxbuf count s
  | .rpark => Sys2Proof.Machine.execRpark s
  | .symStart => Sys2Proof.Machine.execSymStart s
  | .symStop => Sys2Proof.Machine.execSymStop s
  | .symError => Sys2Proof.Machine.execSymError s
  | .symTimeout => Sys2Proof.Machine.execSymTimeout s
  | .symVoid => Sys2Proof.Machine.execSymVoid s
  | .symRe0 => Sys2Proof.Machine.execSymRe0 s
  | .symRe1 => Sys2Proof.Machine.execSymRe1 s
  | .symFe0 => Sys2Proof.Machine.execSymFe0 s
  | .symFe1 => Sys2Proof.Machine.execSymFe1 s
  | .snap0000 => Sys2Proof.Machine.execSnap0000 s
  | .snap0001 => Sys2Proof.Machine.execSnap0001 s
  | .snap0010 => Sys2Proof.Machine.execSnap0010 s
  | .snap0011 => Sys2Proof.Machine.execSnap0011 s
  | .snap0100 => Sys2Proof.Machine.execSnap0100 s
  | .snap0101 => Sys2Proof.Machine.execSnap0101 s
  | .snap0110 => Sys2Proof.Machine.execSnap0110 s
  | .snap0111 => Sys2Proof.Machine.execSnap0111 s
  | .snap1000 => Sys2Proof.Machine.execSnap1000 s
  | .snap1001 => Sys2Proof.Machine.execSnap1001 s
  | .snap1010 => Sys2Proof.Machine.execSnap1010 s
  | .snap1011 => Sys2Proof.Machine.execSnap1011 s
  | .snap1100 => Sys2Proof.Machine.execSnap1100 s
  | .snap1101 => Sys2Proof.Machine.execSnap1101 s
  | .snap1110 => Sys2Proof.Machine.execSnap1110 s
  | .snap1111 => Sys2Proof.Machine.execSnap1111 s
  | .stateIdle => Sys2Proof.Machine.execStateIdle s
  | .stateWaitForStart => Sys2Proof.Machine.execStateWaitForStart s
  | .stateStartBitReceived => Sys2Proof.Machine.execStateStartBitReceived s
  | .stateReceiveAddress => Sys2Proof.Machine.execStateReceiveAddress s
  | .stateReceiveSubAddress => Sys2Proof.Machine.execStateReceiveSubAddress s
  | .stateReceiveData => Sys2Proof.Machine.execStateReceiveData s
  | .stateTransmit => Sys2Proof.Machine.execStateTransmit s

end Sys2Proof.Machine
end

