-- ==== Sys2Proof/Machine/HostOps.lean ====
section
/-! DEFINITION. The operations of the host and the environment (46_common_semantics.md R201, R202), one step each: when
one may take its step, and its effect (log entry 23). -/

namespace Sys2Proof.Machine

/-- The host receives a value. -/
def receive (r : Reading) (s : State) : State := s.setOut { s.out with received := s.out.received ++ [r] }

/-- The precondition of an operation that may still come true holds; otherwise the operation waits
(46_common_semantics.md R201). HostStatus takes the oldest word returned, while no command's expansion is left to run; a
receive buffer is read after HostStatus, so once no word waits (log entries 3, 23). -/
def inputReady (i : Input) (s : State) : Bool :=
  match i with
  | .issue _ _ _ _ => !s.m.busy
  | .status => (s.m.todo.isEmpty || s.m.fault) && !s.out.status.isEmpty
  | .bufWrite _ _ _ => !s.m.busy
  | .bufRead _ _ => !s.m.busy && s.out.status.isEmpty
  | .memRead _ => true
  | .memWrite _ _ => true
  | .flagRead _ => true
  | .flagClear _ => true
  | .hookEvent h => !hookEn s.s.cfg h || decide (s.out.hooks.head? = some h)
  | .timeout => true
  | .spyRead => true
  | .busBusyRead => true
  | .constructMaster _ _ _ => true
  | .constructSlave _ _ => true
  | .envDrive _ _ => true
  | .envSample _ => true
  | .clockKnown _ => true
  | .timerArm _ => true

/-- `HostIssue(P)`: the master decodes `P[0..3]` and starts the command (46_common_semantics.md R201,
60_exceptions.md R230). -/
def issueCommand (p0 p1 p2 p3 : Word) (s : State) : Result :=
  match decodeCmd p0 p1 p2 p3 with
  | .ok i => exec i s
  | .error _ => rejectOpcode s

/-- The effect of one operation (46_common_semantics.md R201, R202). -/
def applyInput (i : Input) (s : State) : Result :=
  match i with
  | .issue p0 p1 p2 p3 => issueCommand p0 p1 p2 p3 s
  | .status =>
    match s.out.status with
    | [] => .next s
    | w :: r => .next (receive (.status w) ((s.setM { s.m with busy := false }).setOut { s.out with status := r }))
  | .bufWrite buf k v => .next (writeBuf s buf k.toNat v)
  | .bufRead buf k => .next (receive (.bufByte buf k (readBuf s buf k.toNat)) s)
  | .memRead k =>
    match readMem s k with
    | .ok v => .next (receive (.memByte k v) s)
    | .error e => .fault e
  | .memWrite k v =>
    match writeMem s k v with
    | .ok t => .next t
    | .error e => .fault e
  | .flagRead h => .next (receive (.flag h (hookFlag s.s h)) s)
  | .flagClear h => .next (s.setS (setHookFlag s.s h false))
  | .hookEvent h =>
    if hookEn s.s.cfg h then .next (receive (.hook h) (s.setOut { s.out with hooks := s.out.hooks.tail }))
    else .fault .hostPrecondition
  | .timeout => .next (s.setE { s.e with tmo := true })
  | .spyRead =>
    if s.s.cfg.spyEn then .next (receive (.spy s.out.spy) s) else .fault .hostPrecondition
  | .busBusyRead => .next (receive (.busBusy s.s.busBusy) s)
  | .constructMaster cfg pinsOk clockTreeOk => .next (constructMaster cfg pinsOk clockTreeOk s)
  | .constructSlave cfg pinsOk => .next (constructSlave cfg pinsOk s)
  | .envDrive line v => .next (envDrive line v s)
  | .envSample b => .next (s.setEnv { s.env with samples := s.env.samples ++ [b] })
  | .clockKnown hz => .next (s.setCt { s.ct with coreHz := some hz })
  | .timerArm n => .next (armTimer n s)

/-- The next operation of the outside may take its step. -/
def outsideReady (s : State) : Bool :=
  match s.inputs with
  | [] => false
  | i :: _ => inputReady i s

/-- One step of the outside: its next operation, removed from the list. -/
def outsideStep (s : State) : Result :=
  match s.inputs with
  | [] => .next s
  | i :: r => applyInput i { s with inputs := r }

end Sys2Proof.Machine
end

