-- ==== Sys2Proof/Machine/Schedule.lean ====
section
/-! DEFINITION. Who takes the next step (20_memory.md R50, 60_exceptions.md R237, 70_reset_and_hazards.md R273; log
entries 1 and 2), the handler's invocation (43_classifier.md R150 to R156), and how a table word is placed where the
machine fetches it (log entry 22). -/

namespace Sys2Proof.Machine

/-- The interrupt request is up and the slave is not halted (43_classifier.md R150). -/
def handlerReady (s : State) : Bool := (s.e.sda || s.e.scl || s.e.tmo) && !s.s.fault

/-- One handler invocation, one atomic step (43_classifier.md R150, R151, R155; 20_memory.md R49). -/
def handlerStep (s : State) : Result :=
  if s.e.tmo then exec (symbolInstr .timeout) (s.setE { s.e with tmo := false })
  else exec (snapInstr (snapshot s)) (clearEdges s)

/-- The armed countdown may finish (60_exceptions.md R244, log entry 6). -/
def timerReady (s : State) : Bool := s.timer.running && !s.timer.dead

/-- A given turn: its agent's step if it has one, else nothing but the turn's passing (log entry 1). -/
def turnStep (t : Turn) (s : State) : Result :=
  match t with
  | .slave => if handlerReady s then handlerStep s else .next s
  | .master => if masterReady s then masterStep s else .next s
  | .timer => if timerReady s then .next (timerDone s) else .next s
  | .outside => if outsideReady s then outsideStep s else .next s

/-- No turn is given: the handler first (60_exceptions.md R237), then the master, the timer, the outside (log entry 1).
With none of them able to step the machine rests, or is stuck inside a `Wait` (93_implementation_defined.md U15). -/
def defaultStep (s : State) : Result :=
  if handlerReady s then handlerStep s
  else if masterReady s then masterStep s
  else if timerReady s then .next (timerDone s)
  else if outsideReady s then outsideStep s
  else if s.m.busy && !s.m.fault && masterBlocked s then .fault .timerStuck
  else .next s

/-- One step of the machine. -/
def nextStep (s : State) : Result :=
  match s.turns with
  | t :: ts => turnStep t { s with turns := ts }
  | [] => defaultStep s

/-- A command placed as the host's next operation, the master free to accept it, and the outside given the turn. -/
def placeCommand (p0 p1 p2 p3 : Word) (s : State) : State :=
  { s with
    m := { s.m with busy := false, todo := [], waiting := false }
    inputs := .issue p0 p1 p2 p3 :: s.inputs
    turns := .outside :: s.turns }

/-- A snapshot placed on the slave's latches and lines, and the handler given the turn. -/
def placeSnapshot (c : BitVec 4) (s : State) : State :=
  { s with
    m := { s.m with sdaDir := .inp, sclDir := .inp }
    s := { s.s with sdaDir := .inp, fault := false }
    e := { s.e with sda := c.getLsbD 3, scl := c.getLsbD 1, tmo := false }
    env := { s.env with mSda := true, mScl := true, sSda := c.getLsbD 2, sScl := c.getLsbD 0 }
    turns := .slave :: s.turns }

/-- A table word placed where step fetches its next instruction: a command as the host's operation, a snapshot on the
slave's lines, a STATE index in `S.state` with a Void snapshot to consume (log entry 22). -/
def placeWord (nbits w : Nat) (s : State) : State :=
  match tableCoded nbits w with
  | .cmd p0 p1 p2 p3 => placeCommand p0 p1 p2 p3 s
  | .snap c => placeSnapshot c s
  | .state c => (placeSnapshot 0b1000#4 s).setS { (placeSnapshot 0b1000#4 s).s with state := c }
  | .sym _ => s

end Sys2Proof.Machine
end

