-- ==== Sys2Proof/Machine/Step.lean ====
section
/-! DEFINITION. One step of the machine, and a table word placed where the step fetches. -/

namespace Sys2Proof.Machine

/-- One step of one agent (00_scope.md R3, Machine/Schedule.lean). -/
def step (s : State) : Host.Outcome State Fault Refusal := nextStep s

/-- `s` with a table word where step fetches its next instruction (log entry 22). -/
def State.withFetchWord (s : State) (nbits w : Nat) : State := placeWord nbits w s

end Sys2Proof.Machine
end

