-- ==== Sys2Proof/Safety.lean ====
section
/-! DEFINITION. What a safe run keeps, in the terms the claims use: the invariants of the slave (44_slave_fsm.md R190),
of the master (10_state.md R13, R17; 40_delay_engine.md R95), of the two memories and of the spy (45_bus_spy.md R213),
what a command is accepted under (60_exceptions.md R230), and the master running alone. -/

namespace Sys2Proof.Safety

open Sys2Proof.Machine

/-- The nine values `S.mask` has between invocations (44_slave_fsm.md R190 (b)). -/
def masks : List Byte := [0x80#8, 0x40#8, 0x20#8, 0x10#8, 0x08#8, 0x04#8, 0x02#8, 0x01#8, 0x00#8]

/-- A live slave in a stored state: not halted, its index one the dispatcher accepts (44_slave_fsm.md R166). -/
def Stored (x : StateName) (s : State) : Prop := s.s.fault = false ∧ storedState s.s.state = some x

/-- 44_slave_fsm.md R190 (a), (b), (c), (d), (f), (g) and R167, on a slave that is not halted. -/
def SlaveInv (s : State) : Prop :=
  s.s.fault = false →
    (s.s.cursor < s.s.cfg.memSize ∧ s.s.initCursor < s.s.cfg.memSize) ∧
    s.s.mask ∈ masks ∧
    (s.s.ackPhase = true → s.s.mask = 0#8) ∧
    (s.s.state = stateCode .waitForStart → slaveSda s = true) ∧
    (s.s.state = stateCode .receiveAddress → s.s.mask = 0#8 →
      addrMatch s.s.cfg s.s.sr = true ∧ s.s.decodedAddr = s.s.sr) ∧
    (s.s.state = stateCode .waitForStart → s.s.memWritten = false ∧ s.s.memRead = false) ∧
    storedState s.s.state ≠ none

/-- 44_slave_fsm.md R190 (e), with what makes it inductive: the edge interrupts are enabled, and while the slave holds
SDA low no Start can be in the latches (R175 "a Start can only be seen while the slave's contribution to SDA is 1"). -/
def DriveInv (s : State) : Prop :=
  s.s.fault = false →
    (s.s.state = stateCode .receiveAddress ∨ s.s.state = stateCode .receiveSubAddress ∨
      s.s.state = stateCode .receiveData → slaveSda s = !s.s.ackPhase) ∧
    s.e.enabled = true ∧
    (slaveSda s = false → s.e.sda = true → sclAtSlave s = true → s.e.scl = true)

/-- What the master keeps. A configured master has a non-zero wait parameter (40_delay_engine.md R95). While `M.busy` is
1 a configured, unhalted master has a micro-operation to execute; while it is 0 nothing is left to do (10_state.md R13).
A `Wait` that armed its countdown finds it running or its done flag up (R97). -/
def MasterInv (s : State) : Prop :=
  (s.m.strategy ≠ .none → s.m.waitParam ≠ 0#32) ∧
  (s.m.busy = true → s.m.strategy ≠ .none ∧ s.m.fault = false ∧ ∃ u r, s.m.todo = .micro u :: r) ∧
  (s.m.busy = false → s.m.todo = []) ∧
  (s.m.waiting = true → s.timer.running = true ∨ s.timer.done = true)

/-- Both memories are in canonical form. -/
def MemoriesWf (s : State) : Prop := s.mem.wf = true ∧ s.bufs.wf = true

/-- 45_bus_spy.md R213: between invocations the counter is at most 8 and the nibble below 2^(counter mod 4). -/
def SpyInv (s : State) : Prop :=
  s.s.spyCount.toNat ≤ 8 ∧ s.s.spyNibble.toNat < 2 ^ (s.s.spyCount.toNat % 4)

/-- A bus command of this family is run, not refused (60_exceptions.md R230). -/
def Accepts (v : Variant) (s : State) : Prop :=
  s.m.busy = false ∧ s.m.fault = false ∧ s.m.strategy ≠ .none ∧ s.m.cfg.variant = v

/-- CFG passes its two wiring checks (40_delay_engine.md R92). -/
def Wired (s : State) : Prop :=
  s.m.busy = false ∧ s.m.fault = false ∧ s.m.pinsOk = true ∧ s.m.clockTreeOk = true

/-- `k` steps of the master, no other agent stepping between them. -/
def runMaster : Nat → State → Result
  | 0, s => .next s
  | k + 1, s =>
    match masterStep s with
    | .next t => runMaster k t
    | .fault e => .fault e
    | .refused r => .refused r

/-- How many micro-operations a list of items holds. -/
def microCount (ops : List Op) : Nat :=
  (ops.filter (fun o => match o with | .micro _ => true | _ => false)).length

/-- The bus commands (30_encoding.md R70) of a family. -/
def busCommandOf : Instr → Option Variant
  | .start _ => some .i2c
  | .move _ _ _ => some .i2c
  | .stop => some .i2c
  | .rstart _ => some .rffe
  | .rmove _ _ _ => some .rffe
  | .rpark => some .rffe
  | _ => none

/-- The rows of the slave: symbols, snapshots and states. -/
def isSlaveRow : Instr → Bool
  | .cfg _ _ _ => false
  | .start _ => false
  | .move _ _ _ => false
  | .stop => false
  | .rstart _ => false
  | .rmove _ _ _ => false
  | .rpark => false
  | _ => true

/-- The hooks a pass through Idle signals, in order (44_slave_fsm.md R171). -/
def idleHooks (y : Symbol) (x : Slave) : List Hook :=
  (if y = .stop then [.busFree] else []) ++ (if x.memWritten then [.writeDone] else []) ++
    (if x.memRead then [.readDone] else [])

/-- What a pass through Idle with symbol y does to `s` (44_slave_fsm.md R171, R172): `t` is `s` with SDA released (and
the latches of R22 where that changed a level), each hook signalled as an event or a poll flag, both sticky flags
cleared, the cursor reloaded if `CURSOR_RESTORE_AT_IDLE`, the stored state WaitForStart; everything else as in `s`. -/
def IdleDone (y : Symbol) (s t : State) : Prop :=
  t = { slaveReleaseSda s with
    s := { s.s with
      sdaDir := .inp, state := stateCode .waitForStart, memWritten := false, memRead := false
      cursor := if s.s.cfg.cursorRestore then s.s.initCursor else s.s.cursor
      flagBusFree := s.s.flagBusFree || ((idleHooks y s.s).contains .busFree && !s.s.cfg.hookBusFree)
      flagWriteDone := s.s.flagWriteDone || ((idleHooks y s.s).contains .writeDone && !s.s.cfg.hookWriteDone)
      flagReadDone := s.s.flagReadDone || ((idleHooks y s.s).contains .readDone && !s.s.cfg.hookReadDone) }
    out := { s.out with hooks := s.out.hooks ++ (idleHooks y s.s).filter (hookEn s.s.cfg) } }

/-- The symbol of a rising edge with bit b (30_encoding.md R64). -/
def rising (b : Bool) : Symbol := if b then .re1 else .re0

/-- The four data-bearing states (30_encoding.md R66). -/
def dataStates : List StateName := [.receiveAddress, .receiveSubAddress, .receiveData, .transmit]

/-- The three states that receive a byte (44_slave_fsm.md R177). -/
def receiveStates : List StateName := [.receiveAddress, .receiveSubAddress, .receiveData]

/-- `s` with its current symbol replaced, nothing else. -/
def withSym (y : Symbol) (s : State) : State := { s with s := { s.s with sym := y } }

/-- Symbols consumed one after the other, in arrival order (20_memory.md R51). -/
def consumeAll : List Symbol → State → Result
  | [], s => .next s
  | y :: r, s =>
    match exec (symbolInstr y) s with
    | .next t => consumeAll r t
    | .fault e => .fault e
    | .refused e => .refused e

/-- The symbols a slave sees of one byte with its acknowledge clock: a rising and a falling edge per bit, bit 7 first
(20_memory.md R43, 43_classifier.md R158). -/
def byteSymbols (v : Byte) : List Symbol :=
  (msbFirst v).flatMap (fun b => [rising b, if b then .fe1 else .fe0]) ++ [.re0, .fe0]

/-- The state of the master when an accepted command has been entered and nothing of it has run (10_state.md R13). -/
def entered (s : State) (todo : List Op) : State :=
  { s with m := { s.m with busy := true, pos := 0, waiting := false, todo := todo } }

/-- An RMOVE that passes its three tests (42_master_rffe.md R136). -/
def RmoveLegal (txbuf rxbuf count : Word) : Prop :=
  (txbuf = 0#32 ∨ rxbuf = 0#32) ∧ count ≠ 0#32 ∧ (txbuf ≠ 0#32 ∨ rxbuf ≠ 0#32)

/-- The number of micro-operations of a bus command, with `M.addr` as it stands (46_common_semantics.md R199). -/
def CommandLength (i : Instr) (addr : Byte) (k : Nat) : Prop :=
  match i with
  | .start _ => k = 53 ∨ k = 117
  | .stop => k = 7
  | .move _ count more =>
    if addr.getLsbD 0 then k = 46 * receiveCount count + (if more then 0 else 7)
    else ∃ j, j ≤ count.toNat ∧ k = 46 * j + (if more then 0 else 7)
  | .rstart _ => k = 70
  | .rmove txbuf _ count => k = (if txbuf = 0#32 then 7 else 0) + 45 * count.toNat
  | .rpark => k = 7
  | _ => False

end Sys2Proof.Safety
end

