-- ==== Sys2Proof/Certificates/Slice0/Obligations.lean ====
section
/-! DEFINITION. The statements for the provers. Each docstring names the rules of spec/ its statement formalises. -/

section

open Sys2Proof Sys2Proof.Machine Sys2Proof.Safety

/-! ## Encoding -/

/-- Decoding what the encoder writes gives the instruction back, for every instruction and every operand value
(30_encoding.md R61, R63, R66, R70, R71). -/
def Obligations.DecodeInvertsEncode : Prop := ∀ i : Instr, decode (encode i) = .ok i

/-- A word decodes exactly when its code is assigned; a reserved opcode, SYM code 9 to 15 or STATE index 7 to 31 is
refused by its own name, and every SNAP value is legal (30_encoding.md R74). -/
def Obligations.DecodesExactlyTheAssignedCodes : Prop :=
  (∀ c : Coded, c.wf = true ↔ ∃ i, decode c = .ok i) ∧
  (∀ p0 p1 p2 p3 : Word, p0.extractLsb' 0 8 ∉ opcodes →
    decode (.cmd p0 p1 p2 p3) = .error (.reservedOpcode (p0.extractLsb' 0 8))) ∧
  (∀ c : BitVec 4, 9 ≤ c.toNat → decode (.sym c) = .error (.reservedSymbol c)) ∧
  (∀ c : BitVec 5, 7 ≤ c.toNat → decode (.state c) = .error (.reservedState c)) ∧
  (∀ c : BitVec 4, decode (.snap c) = .ok (snapInstr c))

/-- The fields of `P[0..3]` for each opcode; every bit the table does not name is ignored (30_encoding.md R70). -/
def Obligations.CommandFieldsAreTheTables : Prop :=
  ∀ p0 p1 p2 p3 : Word,
    (p0.extractLsb' 0 8 = 0x00#8 →
      decode (.cmd p0 p1 p2 p3) = .ok (.cfg p1 (p2.extractLsb' 0 16) (p2.extractLsb' 16 16))) ∧
    (p0.extractLsb' 0 8 = 0x01#8 → decode (.cmd p0 p1 p2 p3) = .ok (.start (p1.extractLsb' 0 8))) ∧
    (p0.extractLsb' 0 8 = 0x02#8 → decode (.cmd p0 p1 p2 p3) = .ok (.move p1 p2 (p3.getLsbD 0))) ∧
    (p0.extractLsb' 0 8 = 0x03#8 → decode (.cmd p0 p1 p2 p3) = .ok .stop) ∧
    (p0.extractLsb' 0 8 = 0x11#8 → decode (.cmd p0 p1 p2 p3) = .ok (.rstart (p1.extractLsb' 0 12))) ∧
    (p0.extractLsb' 0 8 = 0x12#8 → decode (.cmd p0 p1 p2 p3) = .ok (.rmove p1 p2 p3)) ∧
    (p0.extractLsb' 0 8 = 0x13#8 → decode (.cmd p0 p1 p2 p3) = .ok .rpark)

/-- Words written out from the encoding tables decode to the instructions they stand for (30_encoding.md R61, R63, R66,
R70). -/
def Obligations.HandWrittenWordsDecode : Prop :=
  decode (.cmd 0x00000000#32 0x000186A0#32 0x00020001#32 0#32) = .ok (.cfg 100000#32 1#16 2#16) ∧
  decode (.cmd 0x00000001#32 0x00000041#32 0#32 0#32) = .ok (.start 0x41#8) ∧
  decode (.cmd 0x00000002#32 0x00000007#32 3#32 1#32) = .ok (.move 7#32 3#32 true) ∧
  decode (.cmd 0xFFFFFF11#32 0xFFFFF123#32 0#32 0#32) = .ok (.rstart 0x123#12) ∧
  decode (.sym 0b0101#4) = .ok .symRe0 ∧
  decode (.snap 0b1001#4) = .ok .snap1001 ∧
  decode (.state 0b00110#5) = .ok .stateTransmit ∧
  decode (.cmd 0x00000004#32 0#32 0#32 0#32) = .error (.reservedOpcode 0x04#8)

/-! ## The step -/

/-- The step that gives the outside its turn, with `HostIssue(P)` next and the master free, runs the decoded command,
on the state with the turn and the operation removed and nothing else changed; with no turn given it does so when no
other agent can step (log entry 1). A reserved opcode is turned away (46_common_semantics.md R201, 60_exceptions.md
R230). -/
def Obligations.StepRunsTheIssuedCommand : Prop :=
  ∀ (s : State) (p0 p1 p2 p3 : Word) (r : List Input),
    s.inputs = .issue p0 p1 p2 p3 :: r → s.m.busy = false →
    (∀ ts i, s.turns = .outside :: ts → decode (.cmd p0 p1 p2 p3) = .ok i →
      step s = exec i { s with turns := ts, inputs := r }) ∧
    (∀ i, s.turns = [] → handlerReady s = false → timerReady s = false → decode (.cmd p0 p1 p2 p3) = .ok i →
      step s = exec i { s with inputs := r }) ∧
    (∀ ts e, s.turns = .outside :: ts → decode (.cmd p0 p1 p2 p3) = .error e → s.m.fault = false →
      step s = .next (raiseMaster .badCommand (accept { s with turns := ts, inputs := r })))

/-- The handler's step, with the slave's turn given or with no turn given (the handler goes first): with the Timeout
latch set it clears that latch alone and runs the Timeout row; otherwise it runs the row decoded from the snapshot of
both latches and both levels, on the state with both edge latches cleared, whichever was set (43_classifier.md R150,
R151, R155; 30_encoding.md R61). R237 gives the handler precedence over the master alone; the turn list, and that with no
turn given the handler also goes before the timer and the outside, are the model's choice (log entries 1, 2). -/
def Obligations.StepRunsTheHandler : Prop :=
  ∀ s u : State,
    ((∃ ts, s.turns = .slave :: ts ∧ u = { s with turns := ts }) ∨ (s.turns = [] ∧ u = s)) →
    s.s.fault = false →
    (u.e.tmo = true → ∀ i, decode (.sym 3#4) = .ok i → step s = exec i { u with e := { u.e with tmo := false } }) ∧
    (u.e.tmo = false → u.e.sda = true ∨ u.e.scl = true → ∀ i, decode (.snap (snapshot u)) = .ok i →
      step s = exec i { u with e := { u.e with sda := false, scl := false } }) ∧
    (snapshot u).getLsbD 3 = u.e.sda ∧ (snapshot u).getLsbD 2 = sdaAtSlave u ∧
    (snapshot u).getLsbD 1 = u.e.scl ∧ (snapshot u).getLsbD 0 = sclAtSlave u

/-! ## The classifier -/

/-- The sixteen entries of `CLASSIFY_LUT` (43_classifier.md R152), and the table in words: no latch set gives Void; only
SCL's latch gives an edge symbol with the level of SDA as its bit; only SDA's latch gives Start or Stop with SCL high
and Void with SCL low; both give Error (30_encoding.md R62). -/
def Obligations.ClassifierTable : Prop :=
  (classify 0b0000#4 = .void ∧ classify 0b0001#4 = .void ∧ classify 0b0010#4 = .fe0 ∧ classify 0b0011#4 = .re0 ∧
  classify 0b0100#4 = .void ∧ classify 0b0101#4 = .void ∧ classify 0b0110#4 = .fe1 ∧ classify 0b0111#4 = .re1 ∧
  classify 0b1000#4 = .void ∧ classify 0b1001#4 = .start ∧ classify 0b1010#4 = .error ∧ classify 0b1011#4 = .error ∧
  classify 0b1100#4 = .void ∧ classify 0b1101#4 = .stop ∧ classify 0b1110#4 = .error ∧ classify 0b1111#4 = .error) ∧
  ∀ c : BitVec 4,
    (c.getLsbD 3 = false → c.getLsbD 1 = false → classify c = .void) ∧
    (c.getLsbD 3 = false → c.getLsbD 1 = true → c.getLsbD 0 = true → classify c = rising (c.getLsbD 2)) ∧
    (c.getLsbD 3 = false → c.getLsbD 1 = true → c.getLsbD 0 = false →
      classify c = if c.getLsbD 2 then .fe1 else .fe0) ∧
    (c.getLsbD 3 = true → c.getLsbD 1 = false → c.getLsbD 0 = true →
      classify c = if c.getLsbD 2 then .stop else .start) ∧
    (c.getLsbD 3 = true → c.getLsbD 1 = false → c.getLsbD 0 = false → classify c = .void) ∧
    (c.getLsbD 3 = true → c.getLsbD 1 = true → classify c = .error)

/-- Each of the sixteen snapshot rows (`snapInstr c` is snap0000 to snap1111) completes on a live slave that meets the
slave's invariant, with the effect of the symbol row of its table entry (43_classifier.md R150, R152, R154). -/
def Obligations.SnapshotsAreClassifiedAndConsumed : Prop :=
  ∀ (c : BitVec 4) (s : State), s.s.fault = false → SlaveInv s →
    ∃ t, exec (snapInstr c) s = .next t ∧ exec (symbolInstr (classify c)) s = .next t

/-! ## The symbols -/

/-- WaitForStart on every symbol: Start begins an address, Stop marks the bus free and passes through Idle, Error and
Timeout pass through Idle, Void and every edge do nothing; after Void not even the spy has done anything, only the model's own
record of the current symbol (44_slave_fsm.md R169, R173, R174; log entry 18). Rows symStart, symStop,
symError, symTimeout, symVoid, symRe0, symRe1, symFe0, symFe1. -/
def Obligations.RestHandlesEverySymbol : Prop :=
  ∀ s, Stored .waitForStart s →
    exec .symStart s = .next (spyIfEnabled .start { s with
      s := { s.s with
      sym := .start, busBusy := true, sr := 0#8, mask := 0x80#8, ackPhase := false,
      state := stateCode .receiveAddress } }) ∧
    (∃ t, exec .symStop s = .next (spyIfEnabled .stop t) ∧
      IdleDone .stop { s with s := { s.s with sym := .stop, busBusy := false } } t) ∧
    (∃ t, exec .symError s = .next (spyIfEnabled .error t) ∧ IdleDone .error (withSym .error s) t) ∧
    (∃ t, exec .symTimeout s = .next (spyIfEnabled .timeout t) ∧ IdleDone .timeout (withSym .timeout s) t) ∧
    exec .symVoid s = .next (withSym .void s) ∧
    ∀ y, y ∈ [Symbol.re0, .re1, .fe0, .fe1] → exec (symbolInstr y) s = .next (spyIfEnabled y (withSym y s))

/-- In every data-bearing state: Start restarts, Stop marks the bus free and passes through Idle, Error and Timeout
pass through Idle, Void does nothing (44_slave_fsm.md R169, R176). Rows symStart, symStop, symError, symTimeout, symVoid. -/
def Obligations.DataStatesHandleFrameSymbolsAlike : Prop :=
  ∀ x s, x ∈ dataStates → Stored x s →
    exec .symStart s = .next (spyIfEnabled .start { s with
      s := { s.s with
      sym := .start, busBusy := true, sr := 0#8, mask := 0x80#8, ackPhase := false,
      state := stateCode .receiveAddress } }) ∧
    (∃ t, exec .symStop s = .next (spyIfEnabled .stop t) ∧
      IdleDone .stop { s with s := { s.s with sym := .stop, busBusy := false } } t) ∧
    (∃ t, exec .symError s = .next (spyIfEnabled .error t) ∧ IdleDone .error (withSym .error s) t) ∧
    (∃ t, exec .symTimeout s = .next (spyIfEnabled .timeout t) ∧ IdleDone .timeout (withSym .timeout s) t) ∧
    exec .symVoid s = .next (withSym .void s)

/-- A rising edge with bit b in the three receive states: the bit enters `S.sr` at the mask and the mask moves on; with
the mask spent nothing happens. In ReceiveAddress this is said of the first seven bits (44_slave_fsm.md R177). Rows
symRe0, symRe1. -/
def Obligations.RisingEdgeAccumulates : Prop :=
  ∀ x s b, x ∈ receiveStates → Stored x s →
    (s.s.mask = 0#8 → exec (symbolInstr (rising b)) s = .next (spyIfEnabled (rising b) (withSym (rising b) s))) ∧
    (s.s.mask ≠ 0#8 → x = .receiveAddress → s.s.mask >>> 1 ≠ 0#8 → exec (symbolInstr (rising b)) s =
      .next (spyIfEnabled (rising b) { s with
        s := { s.s with
        sym := rising b, sr := if b then s.s.sr ||| s.s.mask else s.s.sr, mask := s.s.mask >>> 1 } })) ∧
    (s.s.mask ≠ 0#8 → x ≠ .receiveAddress → exec (symbolInstr (rising b)) s =
      .next (spyIfEnabled (rising b) { s with
        s := { s.s with
        sym := rising b, sr := if b then s.s.sr ||| s.s.mask else s.s.sr, mask := s.s.mask >>> 1 } }))

/-- The rising edge that ends the address byte: on a match the whole byte is recorded and the state stays, on none the
slave passes through Idle (44_slave_fsm.md R178). The match ignores bit 0 on both sides and takes any entry; an empty
table never matches (R189, R193). Rows symRe0, symRe1. -/
def Obligations.AddressCompare : Prop :=
  (∀ s b, Stored .receiveAddress s → s.s.mask ≠ 0#8 → s.s.mask >>> 1 = 0#8 →
    (addrMatch s.s.cfg (if b then s.s.sr ||| s.s.mask else s.s.sr) = true →
      exec (symbolInstr (rising b)) s = .next (spyIfEnabled (rising b) { s with
        s := { s.s with
        sym := rising b, sr := if b then s.s.sr ||| s.s.mask else s.s.sr, mask := 0#8,
        decodedAddr := if b then s.s.sr ||| s.s.mask else s.s.sr } })) ∧
    (addrMatch s.s.cfg (if b then s.s.sr ||| s.s.mask else s.s.sr) = false →
      ∃ t, exec (symbolInstr (rising b)) s = .next (spyIfEnabled (rising b) t) ∧
        IdleDone (rising b) { s with
          s := { s.s with
          sym := rising b, sr := if b then s.s.sr ||| s.s.mask else s.s.sr, mask := 0#8 } } t)) ∧
  (∀ (c : SlaveCfg) (v : Byte), addrMatch c v = true ↔ ∃ a ∈ c.addr, ∀ k, 1 ≤ k → k < 8 → v.getLsbD k = a.getLsbD k) ∧
  (∀ c : SlaveCfg, c.addr = [] → ∀ v, addrMatch c v = false) ∧
  (∀ c : SlaveCfg, c.addr = [0x40#8, 0xB0#8, 0xC0#8, 0xD0#8] → addrMatch c 0x41#8 = true ∧ addrMatch c 0x42#8 = false)

/-- A falling edge in a receive state does nothing while bits are due; the first one after the eighth bit drives SDA
low and stays: every byte is acknowledged (44_slave_fsm.md R179, R181, R183). Rows symFe0, symFe1. -/
def Obligations.AcknowledgeIsSetUp : Prop :=
  ∀ x s y, x ∈ receiveStates → Stored x s → y = .fe0 ∨ y = .fe1 →
    (s.s.mask ≠ 0#8 → exec (symbolInstr y) s = .next (spyIfEnabled y (withSym y s))) ∧
    (s.s.mask = 0#8 → s.s.ackPhase = false → exec (symbolInstr y) s =
      .next (spyIfEnabled y { slaveSetSda false (withSym y s) with
        s := { s.s with sym := y, sdaDir := .out, sdaVal := false, ackPhase := true } }))

/-- The end of the address byte's acknowledge clock: a write address releases SDA and goes to ReceiveSubAddress; a read
address stages the byte at the cursor, drives its bit 7 and goes to Transmit, or stops by name when the cursor lies
outside the memory, which the slave's invariant excludes (44_slave_fsm.md R180; the stop is the model's, log entry 16).
Rows symFe0, symFe1. -/
def Obligations.AddressCommitBranches : Prop :=
  ∀ s y, Stored .receiveAddress s → y = .fe0 ∨ y = .fe1 → s.s.mask = 0#8 → s.s.ackPhase = true →
    (s.s.decodedAddr.getLsbD 0 = false → exec (symbolInstr y) s =
      .next (spyIfEnabled y { slaveReleaseSda (withSym y s) with
        s := { s.s with
          sym := y, sdaDir := .inp, ackPhase := false, mask := 0x80#8, sr := 0#8,
          state := stateCode .receiveSubAddress } })) ∧
    (s.s.decodedAddr.getLsbD 0 = true → s.s.cursor < s.s.cfg.memSize → exec (symbolInstr y) s =
      .next (spyIfEnabled y { slaveSetSda ((s.mem.read s.s.cursor).getLsbD 7) (withSym y s) with
        s := { s.s with
          sym := y, sdaDir := .out, sdaVal := (s.mem.read s.s.cursor).getLsbD 7, ackPhase := false,
          mask := 0x80#8, sr := s.mem.read s.s.cursor, state := stateCode .transmit } })) ∧
    (s.s.decodedAddr.getLsbD 0 = true → s.s.cfg.memSize ≤ s.s.cursor → exec (symbolInstr y) s = .fault .memIndex)

/-- The cursor commit: the byte modulo the memory size becomes the cursor and the initial cursor (44_slave_fsm.md R182);
a memory of size 0, which no live slave has, stops by name (log entry 16). Rows symFe0, symFe1. -/
def Obligations.SubAddressCommit : Prop :=
  ∀ s y, Stored .receiveSubAddress s → y = .fe0 ∨ y = .fe1 → s.s.mask = 0#8 → s.s.ackPhase = true →
    (s.s.cfg.memSize ≠ 0 → exec (symbolInstr y) s =
      .next (spyIfEnabled y { slaveReleaseSda (withSym y s) with
        s := { s.s with
          sym := y, sdaDir := .inp, ackPhase := false, mask := 0x80#8,
          cursor := s.s.sr.toNat % s.s.cfg.memSize, initCursor := s.s.sr.toNat % s.s.cfg.memSize, sr := 0#8,
          state := stateCode .receiveData } })) ∧
    (s.s.cfg.memSize = 0 → exec (symbolInstr y) s = .fault .memIndex)

/-- The memory commit: the byte is written at the cursor, the cursor advances with wrap, "memory written" is set, and
every other byte reads as before (44_slave_fsm.md R184, 20_memory.md R42); outside the memory, where no live slave's cursor
is, it stops by name (log entry 16). Rows symFe0, symFe1. -/
def Obligations.DataCommitStoresTheByte : Prop :=
  ∀ s y, Stored .receiveData s → y = .fe0 ∨ y = .fe1 → s.s.mask = 0#8 → s.s.ackPhase = true →
    (s.s.cursor < s.s.cfg.memSize → exec (symbolInstr y) s =
      .next (spyIfEnabled y { slaveReleaseSda (withSym y s) with
        mem := s.mem.write s.s.cursor s.s.sr
        s := { s.s with
          sym := y, sdaDir := .inp, ackPhase := false, mask := 0x80#8,
          cursor := (s.s.cursor + 1) % s.s.cfg.memSize, memWritten := true, sr := 0#8 } })) ∧
    (s.s.cfg.memSize ≤ s.s.cursor → exec (symbolInstr y) s = .fault .memIndex) ∧
    (s.mem.wf = true → ∀ a, (s.mem.write s.s.cursor s.s.sr).read a =
      if a = s.s.cursor then s.s.sr else s.mem.read a)

/-- Transmit on a rising edge. While bits are due a readback that equals the driven bit moves the mask on, another passes
through Idle (44_slave_fsm.md R185). On the ninth rising edge there is no action, whatever the bit, unless the instance
honours a not-acknowledge, which then sets "memory read" and passes through Idle (R186). Rows symRe0, symRe1. -/
def Obligations.TransmitOnRisingEdge : Prop :=
  (∀ s b, Stored .transmit s → s.s.mask ≠ 0#8 →
    (b = decide (s.s.sr &&& s.s.mask ≠ 0#8) → exec (symbolInstr (rising b)) s =
      .next (spyIfEnabled (rising b) { s with s := { s.s with sym := rising b, mask := s.s.mask >>> 1 } })) ∧
    (b ≠ decide (s.s.sr &&& s.s.mask ≠ 0#8) →
      ∃ t, exec (symbolInstr (rising b)) s = .next (spyIfEnabled (rising b) t) ∧
        IdleDone (rising b) (withSym (rising b) s) t)) ∧
  ∀ s b, Stored .transmit s → s.s.mask = 0#8 →
    (s.s.cfg.honoursNack = false ∨ s.s.ackPhase = false ∨ b = false → exec (symbolInstr (rising b)) s =
      .next (spyIfEnabled (rising b) (withSym (rising b) s))) ∧
    (s.s.cfg.honoursNack = true → s.s.ackPhase = true → b = true →
      ∃ t, exec .symRe1 s = .next (spyIfEnabled .re1 t) ∧
        IdleDone .re1 { s with s := { s.s with sym := .re1, memRead := true } } t)

/-- Transmit on a falling edge. While bits are due the bit at the mask is driven; after the eighth SDA is released
(44_slave_fsm.md R187). The edge that ends the acknowledge clock advances the cursor with wrap, stages the byte there,
drives its bit 7 and sets "memory read" (R188); a memory of size 0, which no live slave has, stops by name (log entry
16). Rows symFe0, symFe1. -/
def Obligations.TransmitOnFallingEdge : Prop :=
  (∀ s y, Stored .transmit s → y = .fe0 ∨ y = .fe1 →
    (s.s.mask ≠ 0#8 → exec (symbolInstr y) s =
      .next (spyIfEnabled y { slaveSetSda (decide (s.s.sr &&& s.s.mask ≠ 0#8)) (withSym y s) with
        s := { s.s with sym := y, sdaDir := .out, sdaVal := decide (s.s.sr &&& s.s.mask ≠ 0#8) } })) ∧
    (s.s.mask = 0#8 → s.s.ackPhase = false → exec (symbolInstr y) s =
      .next (spyIfEnabled y { slaveReleaseSda (withSym y s) with
        s := { s.s with sym := y, sdaDir := .inp, ackPhase := true } }))) ∧
  ∀ s y, Stored .transmit s → y = .fe0 ∨ y = .fe1 → s.s.mask = 0#8 → s.s.ackPhase = true →
    (s.s.cfg.memSize ≠ 0 → ∀ c v, c = (s.s.cursor + 1) % s.s.cfg.memSize → v = s.mem.read c →
      exec (symbolInstr y) s = .next (spyIfEnabled y { slaveSetSda (v.getLsbD 7) (withSym y s) with
        s := { s.s with
          sym := y, sdaDir := .out, sdaVal := v.getLsbD 7, cursor := c, sr := v, memRead := true,
          mask := 0x80#8, ackPhase := false } })) ∧
    (s.s.cfg.memSize = 0 → exec (symbolInstr y) s = .fault .memIndex)

/-- The bit of a falling edge is ignored by every state: `FE0` and `FE1` have the same effect (44_slave_fsm.md R168).
Rows symFe0, symFe1. -/
def Obligations.FallingEdgeBitIsUnused : Prop :=
  ∀ x s, Stored x s →
    (∀ t, exec .symFe0 s = .next t ↔ exec .symFe1 s = .next (withSym .fe1 t) ∧ t.s.sym = .fe0) ∧
    (∀ e, exec .symFe0 s = .fault e ↔ exec .symFe1 s = .fault e)

/-- A stored index of 0, 2 or 7 to 31 raises `BAD_STATE` on the slave for every symbol and does nothing else
(44_slave_fsm.md R166, R170): the raise ends the invocation (60_exceptions.md R226), so neither does the spy run nor is
the symbol recorded (DEDUCED, log entry 17). -/
def Obligations.BadStateLatches : Prop :=
  (∀ c : BitVec 5, storedState c = none ↔ c.toNat = 0 ∨ c.toNat = 2 ∨ 7 ≤ c.toNat) ∧
  ∀ s y, s.s.fault = false → storedState s.s.state = none →
    exec (symbolInstr y) s = .next { s with s := { s.s with fault := true, faultCode := 11#4 } }

/-- One byte sent on the wire, bit 7 first, with its acknowledge clock: after the falling edge of its eighth bit, the first
16 symbols, the slave drives SDA low and has stored nothing; after the whole it has written the byte at the cursor once,
released SDA and is ready for the next byte (20_memory.md R43, 44_slave_fsm.md R177, R183, R184). -/
def Obligations.SerialByteIsStored : Prop :=
  ∀ (s : State) (v : Byte), Stored .receiveData s → s.s.mask = 0x80#8 → s.s.ackPhase = false → s.s.sr = 0#8 →
    s.s.cursor < s.s.cfg.memSize →
    (∃ u, consumeAll ((byteSymbols v).take 16) s = .next u ∧ slaveSda u = false ∧ u.s.ackPhase = true ∧
      u.s.sr = v ∧ u.mem = s.mem) ∧
    ∃ t, consumeAll (byteSymbols v) s = .next t ∧ t.mem = s.mem.write s.s.cursor v ∧
      t.s.cursor = (s.s.cursor + 1) % s.s.cfg.memSize ∧ t.s.memWritten = true ∧ Stored .receiveData t ∧
      t.s.mask = 0x80#8 ∧ t.s.ackPhase = false ∧ t.s.sr = 0#8 ∧ t.s.initCursor = s.s.initCursor ∧
      slaveSda t = true

/-! ## The state rows -/

/-- Idle, whatever the current symbol: SDA released, the hooks signalled, both sticky flags cleared, the cursor
restored if the parameter says so, WaitForStart next; `S.sr`, `S.mask`, `S.ackPhase`, `S.decodedAddr`, `S.busBusy` and
all else stay (44_slave_fsm.md R171, R172). StartBitReceived: the bus is marked busy, the byte is begun, ReceiveAddress
next; SDA, the cursors and the sticky flags stay (R175). That a STATE row runs on the model's record `S.sym` of the
current symbol and stores the next state is the model's choice (log entry 18). Rows stateIdle, stateStartBitReceived. -/
def Obligations.PassThroughRows : Prop :=
  (∀ s, s.s.fault = false → ∃ t, exec .stateIdle s = .next t ∧ IdleDone s.s.sym s t) ∧
  ∀ s, s.s.fault = false → exec .stateStartBitReceived s = .next { s with
    s := { s.s with
    busBusy := true, sr := 0#8, mask := 0x80#8, ackPhase := false, state := stateCode .receiveAddress } }

/-- Each state row that may be stored runs on the current symbol what the dispatcher runs when that state is stored, and
completes for every symbol on a live slave whose registers meet the invariant (44_slave_fsm.md R165, R166, R194). That a
STATE row runs on the model's record `S.sym` of the current symbol, passes through Idle and StartBitReceived as the
dispatcher does, stores the next state and does not run the spy is the model's choice (log entry 18). Rows stateWaitForStart, stateReceiveAddress, stateReceiveSubAddress,
stateReceiveData, stateTransmit. -/
def Obligations.StateRowsAreTheDispatchers : Prop :=
  ∀ x s, x = .waitForStart ∨ x ∈ dataStates → s.s.fault = false →
    SlaveInv { s with s := { s.s with state := stateCode x } } →
    ∃ t, exec (stateInstr x) s = .next t ∧
      exec (symbolInstr s.s.sym) { s with s := { s.s with state := stateCode x } } = .next (spyIfEnabled s.s.sym t)

/-! ## The spy -/

/-- What the spy does on each symbol, at every count it can have between invocations: the spec's table "Effect per
symbol", which it marks as derived from the spy step, and the sixteen digits `HEX` prints (45_bus_spy.md R212, R214). -/
def Obligations.SpyEffectPerSymbol : Prop :=
  (hexDigit 0#4 = '0' ∧ hexDigit 1#4 = '1' ∧ hexDigit 2#4 = '2' ∧ hexDigit 3#4 = '3' ∧
   hexDigit 4#4 = '4' ∧ hexDigit 5#4 = '5' ∧ hexDigit 6#4 = '6' ∧ hexDigit 7#4 = '7' ∧
   hexDigit 8#4 = '8' ∧ hexDigit 9#4 = '9' ∧ hexDigit 10#4 = 'A' ∧ hexDigit 11#4 = 'B' ∧
   hexDigit 12#4 = 'C' ∧ hexDigit 13#4 = 'D' ∧ hexDigit 14#4 = 'E' ∧ hexDigit 15#4 = 'F') ∧
  ∀ s, s.s.cfg.spyEn = true →
    spyIfEnabled .start s = { s with
      s := { s.s with spyCount := 0#4, spyNibble := 0#4 },
      out := { s.out with spy := s.out.spy ++ ['S'] } } ∧
    spyIfEnabled .stop s = { s with
      s := { s.s with spyCount := 0#4, spyNibble := 0#4 },
      out := { s.out with spy := s.out.spy ++ ['P', '\n'] } } ∧
    spyIfEnabled .error s = { s with out := { s.out with spy := s.out.spy ++ ['?'] } } ∧
    (∀ y, y ∈ [Symbol.timeout, .void, .fe0, .fe1] → spyIfEnabled y s = s) ∧
    ∀ b n, n = (s.s.spyNibble <<< 1) ||| (if b then 1#4 else 0#4) →
      (s.s.spyCount.toNat < 8 → s.s.spyCount ≠ 3#4 → s.s.spyCount ≠ 7#4 →
        spyIfEnabled (rising b) s = { s with s := { s.s with spyCount := s.s.spyCount + 1#4, spyNibble := n } }) ∧
      (s.s.spyCount = 3#4 ∨ s.s.spyCount = 7#4 →
        spyIfEnabled (rising b) s = { s with
          s := { s.s with spyCount := s.s.spyCount + 1#4, spyNibble := 0#4 }
          out := { s.out with spy := s.out.spy ++ [hexDigit n] } }) ∧
      (s.s.spyCount = 8#4 →
        spyIfEnabled (rising b) s = { s with
          s := { s.s with spyCount := 0#4 }
          out := { s.out with spy := s.out.spy ++ [if b then 'n' else 'a'] } })

/-- The spy reads the symbol and its own counters, writes its counters and its stream, and nothing else; with `SPY_EN`
false it does nothing (45_bus_spy.md R210). -/
def Obligations.SpyNeverInterferes : Prop :=
  (∀ y, ∃ f : BitVec 4 → BitVec 4 → BitVec 4 × BitVec 4 × List Char, ∀ s, s.s.cfg.spyEn = true →
    spyIfEnabled y s = { s with
      s := { s.s with
        spyCount := (f s.s.spyCount s.s.spyNibble).1
        spyNibble := (f s.s.spyCount s.s.spyNibble).2.1 }
      out := { s.out with spy := s.out.spy ++ (f s.s.spyCount s.s.spyNibble).2.2 } }) ∧
  ∀ y s, s.s.cfg.spyEn = false → spyIfEnabled y s = s

/-- The spy's registers start at 0 and every step keeps the count at most 8 and the nibble below 2^(count mod 4)
(45_bus_spy.md R213, whose invariant the spec marks as derived from the spy step). -/
def Obligations.SpyCounterInvariant : Prop :=
  State.reset.s.spyNibble = 0#4 ∧ State.reset.s.spyCount = 0#4 ∧
  ∀ s t, SpyInv s → step s = .next t → SpyInv t

/-! ## Lines and latches -/

/-- A released pin contributes 1 and a driven one its value; the level is the AND of the contributions at the wire, the
environment's included (10_state.md R21). -/
def Obligations.LineLevelIsTheWiredAnd : Prop :=
  (∀ v, contribution .inp v = true ∧ contribution .out v = v) ∧
  ∀ s, (s.shared = true →
      (sdaAtMaster s = true ↔ masterSda s = true ∧ slaveSda s = true ∧ s.env.mSda = true ∧ s.env.sSda = true) ∧
      sdaAtSlave s = sdaAtMaster s ∧
      (sclAtSlave s = true ↔ masterScl s = true ∧ s.env.mScl = true ∧ s.env.sScl = true)) ∧
    (s.shared = false →
      (sdaAtMaster s = true ↔ masterSda s = true ∧ s.env.mSda = true) ∧
      (sdaAtSlave s = true ↔ slaveSda s = true ∧ s.env.sSda = true) ∧ sclAtSlave s = s.env.sScl)

/-- While the slave's edge interrupts are enabled (a bit of the model, log entry 25), whenever a step changes the level of one
of the slave's lines, for any cause including the slave's own driving, that line's latch is set after the step. A latch,
enabled or not, stays set until a handler runs: every step whose given turn is the master's, the timer's or the outside's
keeps each latch that is set, on a live slave as on a halted one, and so does every step that finds no request of a live
slave. Both but for the one step that takes a construction of the slave (10_state.md R22, R23; 46_common_semantics.md R202;
the turn list is the model's, log entry 1). -/
def Obligations.LevelChangesSetTheLatch : Prop :=
  ∀ s t, step s = .next t → (¬ ∃ c p r, s.inputs = .constructSlave c p :: r ∧ t.inputs = r) →
    (s.e.enabled = true → (sdaAtSlave s ≠ sdaAtSlave t → t.e.sda = true) ∧
      (sclAtSlave s ≠ sclAtSlave t → t.e.scl = true)) ∧
    ((∃ x ts, s.turns = x :: ts ∧ x ≠ .slave) ∨ handlerReady s = false →
      (s.e.sda = true → t.e.sda = true) ∧ (s.e.scl = true → t.e.scl = true) ∧ (s.e.tmo = true → t.e.tmo = true))

/-! ## The master -/

/-- CFG on a wired, unhalted master at a legal rate (after the zero substitution): the timer strategy when its
parameter is not 0, else the spin loop when the clock is known and its parameter is not 0, else no strategy and a
raised clock requirement. It writes the configuration registers, touches no flag and no pin, and returns the status word
(40_delay_engine.md R92 to R95). The timer's parameter is 0 when no timer is
hooked and `WaitParamTimer` of the rate and `T_OVF_US` otherwise (R92). A zero rate is replaced by the default minimum; the I2C maximum is 400000 (R93).
`M.pos` 0 after it is the model's choice (log entry 4); a parameter or requirement above 32 bits is the free value of
`storedWaitParam` and `raisedClockReq` (log entries 10, 11). Row cfg. -/
def Obligations.CfgConfigures : Prop :=
  (∀ s bps tl th r, Wired s → r = effectiveRate s.m.cfg bps → r.toNat ≤ (maxRate s.m.cfg).toNat →
    (timerParam s.m.cfg r ≠ 0 → exec (.cfg bps tl th) s = .next { s with
      m := { s.m with
        bps := r, tl := tl, th := th, strategy := .timer, pos := 0,
        waitParam := storedWaitParam (timerParam s.m.cfg r) }
      out := { s.out with status := s.out.status ++ [statusWord s.m] } }) ∧
    (∀ f, timerParam s.m.cfg r = 0 → s.ct.coreHz = some f → waitParamSpin s.m.cfg.waitFns r.toNat f ≠ 0 →
      exec (.cfg bps tl th) s = .next { s with
        m := { s.m with
          bps := r, tl := tl, th := th, strategy := .spin, pos := 0,
          waitParam := storedWaitParam (waitParamSpin s.m.cfg.waitFns r.toNat f) }
        out := { s.out with status := s.out.status ++ [statusWord s.m] } }) ∧
    (timerParam s.m.cfg r = 0 → s.ct.coreHz = none → exec (.cfg bps tl th) s = .next { s with
      m := { s.m with bps := r, tl := tl, th := th, strategy := .none, pos := 0, waitParam := 0#32 }
      ct := { s.ct with
        minCoreHzReq := raisedClockReq s.ct.minCoreHzReq (minCoreHzFor s.m.cfg.waitFns r.toNat) }
      out := { s.out with status := s.out.status ++ [statusWord s.m] } })) ∧
  (∀ c r, c.timerHooked = false → timerParam c r = 0) ∧
  (∀ c r, c.timerHooked = true → timerParam c r = waitParamTimer c.waitFns r.toNat c.tOvfUs) ∧
  (∀ n, n ≠ 0 → storedWaitParam n ≠ 0#32 ∧ (n < 2 ^ 32 → (storedWaitParam n).toNat = n)) ∧
  (∀ old need, old.toNat ≤ (raisedClockReq old need).toNat ∧
    (max old.toNat need < 2 ^ 32 → (raisedClockReq old need).toNat = max old.toNat need)) ∧
  (∀ c, effectiveRate c 0#32 = c.defaultMinBps) ∧ (∀ c bps, bps ≠ 0#32 → effectiveRate c bps = bps) ∧
  (∀ c, c.variant = .i2c → (maxRate c).toNat = 400000) ∧ (∀ c, c.variant = .rffe → maxRate c = c.rffeMaxBps)

/-- The faults of CFG in the order written: null pin, no clock tree, rate too high, rate unreachable; the configuration
registers stay as they were (40_delay_engine.md R92, R95; 60_exceptions.md R229). -/
def Obligations.CfgFaultsInOrder : Prop :=
  ∀ s bps tl th, s.m.busy = false → s.m.fault = false →
    (s.m.pinsOk = false → exec (.cfg bps tl th) s = .next (raiseMaster .nullPin (accept s))) ∧
    (s.m.pinsOk = true → s.m.clockTreeOk = false → exec (.cfg bps tl th) s = .next (raiseMaster .noClockTree (accept s))) ∧
    (s.m.pinsOk = true → s.m.clockTreeOk = true →
      (maxRate s.m.cfg).toNat < (effectiveRate s.m.cfg bps).toNat →
      exec (.cfg bps tl th) s = .next (raiseMaster .rateTooHigh (accept s))) ∧
    (∀ f, s.m.pinsOk = true → s.m.clockTreeOk = true →
      (effectiveRate s.m.cfg bps).toNat ≤ (maxRate s.m.cfg).toNat →
      timerParam s.m.cfg (effectiveRate s.m.cfg bps) = 0 → s.ct.coreHz = some f →
      waitParamSpin s.m.cfg.waitFns (effectiveRate s.m.cfg bps).toNat f = 0 →
      exec (.cfg bps tl th) s = .next (raiseMaster .rateUnreachable (accept s)))

/-- START accepted: `M.ackFail` cleared, `M.addr` written, and its expansion `D1 G`, the stuck test, `C1 W D0 W C0`,
TXBYTE, in that order, left for the master's steps; no pin has moved yet (41_master_i2c.md R110, R111). Row start. -/
def Obligations.StartBegins : Prop :=
  ∀ s a, Accepts .i2c s → exec (.start a) s = .next (entered
    { s with m := { s.m with ackFail := false, addr := a } }
    [.micro (.sda true), .micro .get, .stuckTest, .micro (.scl true), .micro .wait, .micro (.sda false),
      .micro .wait, .micro (.scl false), .txByte a])

/-- STOP and RPARK accepted: nothing is written but the position; their expansions are left for the master's steps
(41_master_i2c.md R108, R119; 42_master_rffe.md R135, R138). Rows stop, rpark. -/
def Obligations.StopAndRparkBegin : Prop :=
  (∀ s, Accepts .i2c s → exec .stop s = .next (entered s
    [.micro (.scl false), .micro .wait, .micro (.sda false), .micro .wait, .micro (.scl true), .micro .wait,
      .micro (.sda true)])) ∧
  (∀ s, Accepts .rffe s → exec .rpark s = .next (entered s
    [.micro (.scl true), .micro (.sda false), .micro .wait, .micro .relSda, .micro (.scl false), .micro .wait,
      .micro .relSda]))

/-- MOVE accepted, by the low bit of the address given to START. Receive: the first of `max(count, 1)` bytes, acknowledged
unless it is the last and `more` is 0, stored if `count` is not 0, then the others. Transmit: the first byte of the
buffer, then the others, then the Stop sequence unless `more`; with no byte to send only that Stop sequence, or the end
of the command (41_master_i2c.md R117). That `M.pos` is 0 after that end is the model's choice (log entry 4). Row move. -/
def Obligations.MoveBegins : Prop :=
  ∀ s buf count more, Accepts .i2c s →
    (s.m.addr.getLsbD 0 = true → exec (.move buf count more) s = .next (entered s
      (rxByteOps (decide (1 < receiveCount count) || more) ++
        ((if 0 < count.toNat then [.store buf 0] else []) ++
          [.rxBytes buf 1 (receiveCount count - 1) count.toNat more])))) ∧
    (s.m.addr.getLsbD 0 = false → s.m.ackFail = false → 0 < count.toNat →
      exec (.move buf count more) s = .next (entered s
        (txByteOps (readBuf s buf 0) ++
          .txBytes buf 1 (count.toNat - 1) :: (if more then [] else stopSeq)))) ∧
    (s.m.addr.getLsbD 0 = false → s.m.ackFail = true ∨ count = 0#32 → more = false →
      exec (.move buf count more) s = .next (entered s stopSeq)) ∧
    (s.m.addr.getLsbD 0 = false → s.m.ackFail = true ∨ count = 0#32 → more = true →
      exec (.move buf count more) s = .next (returnStatus (entered s [])))

/-- RSTART accepted: `M.parityErr` cleared, then SSC, the 12 bits, bit 11 first, and their parity bit
(42_master_rffe.md R131, R137). Row rstart. -/
def Obligations.RstartBegins : Prop :=
  ∀ s c, Accepts .rffe s → exec (.rstart c) s = .next (entered
    { s with m := { s.m with parityErr := false } }
    ([.micro (.scl false), .micro (.sda true), .micro .wait, .micro (.sda false), .micro .wait] ++
      ([11, 10, 9, 8, 7, 6, 5, 4, 3, 2, 1, 0].map c.getLsbD ++ [parity c]).flatMap (fun b =>
        [.micro (.sda b), .micro (.scl true), .micro .wait, .micro (.scl false), .micro .wait])))

/-- RMOVE: its three tests in the order written, then the transfer: the bytes of the transmit buffer in order, or one
bus park and then the received bytes, each stored (42_master_rffe.md R136). Row rmove. -/
def Obligations.RmoveTestsAndBegins : Prop :=
  ∀ s tx rx count, Accepts .rffe s →
    (tx ≠ 0#32 → rx ≠ 0#32 → exec (.rmove tx rx count) s = .next (raiseMaster .moveDualDir (accept s))) ∧
    (tx = 0#32 ∨ rx = 0#32 → count = 0#32 → exec (.rmove tx rx count) s = .next (raiseMaster .moveZeroLen (accept s))) ∧
    (tx = 0#32 → rx = 0#32 → count ≠ 0#32 → exec (.rmove tx rx count) s = .next (raiseMaster .moveNoBuffer (accept s))) ∧
    (tx ≠ 0#32 → rx = 0#32 → count ≠ 0#32 → exec (.rmove tx rx count) s = .next (entered s
      (rsendByteOps (readBuf s tx 0) ++ [.rsendBytes tx 1 (count.toNat - 1)]))) ∧
    (tx = 0#32 → rx ≠ 0#32 → count ≠ 0#32 → exec (.rmove tx rx count) s = .next (entered s
      (parkSeq ++ [.rreadBytes rx 0 count.toNat])))

/-- The byte sequences, with the bits of the byte in wire order (41_master_i2c.md R112, R113; 42_master_rffe.md R132,
R134), and the lengths in micro-operations of all internal sequences, for every byte (46_common_semantics.md R199). -/
def Obligations.SequencesAreTheManuals : Prop :=
  ((∀ v : Byte, txByteOps v =
    ([7, 6, 5, 4, 3, 2, 1, 0].map v.getLsbD).flatMap (fun b =>
      [.micro (.sda b), .micro .wait, .micro (.scl true), .micro .wait, .micro (.scl false)]) ++
    [.micro .relSda, .micro .wait, .micro (.scl true), .micro .wait, .micro .get, .micro (.scl false), .orAck]) ∧
  (∀ doAck : Bool, rxByteOps doAck =
    .micro .relSda :: (List.replicate 8 [Op.micro .wait, .micro (.scl true), .micro .wait, .micro .get, .shiftAcc,
      .micro (.scl false)]).flatten ++
    [.micro (.sda (!doAck)), .micro .wait, .micro (.scl true), .micro .wait, .micro (.scl false)] ++
    (if doAck then [] else stopSeq)) ∧
  (∀ v : Byte, rsendByteOps v =
    ([7, 6, 5, 4, 3, 2, 1, 0].map v.getLsbD ++ [parity v]).flatMap (fun b =>
      [.micro (.sda b), .micro (.scl true), .micro .wait, .micro (.scl false), .micro .wait])) ∧
  rreadByteOps =
    (List.replicate 8 [Op.micro (.scl true), .micro .wait, .micro (.scl false), .micro .get, .micro .wait,
      .shiftAcc]).flatten ++
    [.micro (.scl true), .micro .wait, .micro (.scl false), .micro .get, .micro .wait, .parityTest]) ∧
  microCount stopSeq = 7 ∧ microCount errRec = 64 ∧ (∀ v, microCount (txByteOps v) = 46) ∧
  microCount (rxByteOps true) = 46 ∧ microCount (rxByteOps false) = 53 ∧ (∀ b, microCount (txBit b) = 5) ∧
  microCount rxBit = 5 ∧ (∀ v, microCount (rsendByteOps v) = 45) ∧ microCount rreadByteOps = 45 ∧
  microCount sscSeq = 5 ∧ microCount parkSeq = 7 ∧ ∀ c, microCount (rstartOps c) = 70

/-- One micro-operation: `D`, `DZ`, `C` move the master's pins and, where a level changed, the latches; `G` samples SDA
(on RFFE the next value the environment chose, a free value where none is listed, log entry 14); each advances the
position by one, and the command ends with its status word when nothing is left (30_encoding.md R76, 10_state.md R13, R20;
42_master_rffe.md R139). What stands before the next micro-operation of the expansion acts in the same step (log entry
28): the acknowledge is accumulated, a received bit shifted into `M.acc`, the parity compared, `M.acc` stored at its buffer
index, the stuck test taken, a byte skipped after a not-acknowledge, and each further byte of MOVE and RMOVE expanded, with
its acknowledge but for the last of a MOVE without `more` (41_master_i2c.md R110, R112, R113, R117; 42_master_rffe.md R134,
R136). A master that runs a command and is not halted has its step, but for a `Wait` that is armed with its done flag
down (10_state.md R13); its turn runs that step, and passes when there is none (20_memory.md R50; the turn list is the
model's, log entry 1). -/
def Obligations.MicroOperationsAct : Prop :=
  (∀ s u rest, s.m.todo = .micro u :: rest →
    (∀ b, u = .sda b → masterStep s = .next (advance rest
      (latchEdges s { s with m := { s.m with sdaDir := .out, sdaVal := b } }))) ∧
    (u = .relSda → masterStep s = .next (advance rest (latchEdges s { s with m := { s.m with sdaDir := .inp } }))) ∧
    (∀ b, u = .scl b → masterStep s = .next (advance rest
      (latchEdges s { s with m := { s.m with sclDir := .out, sclVal := b } }))) ∧
    (u = .get → s.m.cfg.variant = .i2c → masterStep s = .next (advance rest
      { s with m := { s.m with sampled := sdaAtMaster s } })) ∧
    (∀ b r, u = .get → s.m.cfg.variant = .rffe → s.env.samples = b :: r → masterStep s = .next (advance rest
      { s with m := { s.m with sampled := b }, env := { s.env with samples := r } })) ∧
    (u = .get → s.m.cfg.variant = .rffe → s.env.samples = [] → masterStep s = .next (advance rest
      { s with
        m := { s.m with sampled := Config.freeSample s.env.freeCount }
        env := { s.env with freeCount := s.env.freeCount + 1 } }))) ∧
  (∀ (v : Micro) w q, advance (.micro v :: w) q =
    { q with m := { q.m with pos := q.m.pos + 1, waiting := false, todo := .micro v :: w } }) ∧
  (∀ q, advance [] q = returnStatus { q with m := { q.m with pos := q.m.pos + 1, waiting := false, todo := [] } }) ∧
  (∀ (w : List Op) (q : State),
    advance (.orAck :: w) q = advance w { q with m := { q.m with ackFail := q.m.ackFail || q.m.sampled } } ∧
    advance (.shiftAcc :: w) q =
      advance w { q with m := { q.m with acc := (q.m.acc <<< 1) ||| (if q.m.sampled then 1#8 else 0#8) } } ∧
    advance (.parityTest :: w) q = advance w { q with
      m := { q.m with parityErr := q.m.parityErr || (q.m.sampled != parity q.m.acc) } } ∧
    (∀ b i, advance (.store b i :: w) q = advance w { q with bufs := q.bufs.write (bufKey b i) q.m.acc }) ∧
    advance (.stuckTest :: w) q = advance (if q.m.sampled then w else errRec ++ w) q ∧
    (∀ v, advance (.txByte v :: w) q = advance (if q.m.ackFail then w else txByteOps v ++ w) q) ∧
    (∀ b i, advance (.txBytes b i 0 :: w) q = advance w q) ∧
    (∀ b i k, advance (.txBytes b i (k + 1) :: w) q = advance (if q.m.ackFail then w
      else txByteOps (q.bufs.read (bufKey b i)) ++ .txBytes b (i + 1) k :: w) q) ∧
    (∀ b i n m, advance (.rxBytes b i 0 n m :: w) q = advance w q) ∧
    (∀ b i k n m, advance (.rxBytes b i (k + 1) n m :: w) q = advance (rxByteOps (decide (0 < k) || m) ++
      ((if i < n then [.store b i] else []) ++ .rxBytes b (i + 1) k n m :: w)) q) ∧
    (∀ b i, advance (.rsendBytes b i 0 :: w) q = advance w q) ∧
    (∀ b i k, advance (.rsendBytes b i (k + 1) :: w) q =
      advance (rsendByteOps (q.bufs.read (bufKey b i)) ++ .rsendBytes b (i + 1) k :: w) q) ∧
    (∀ b i, advance (.rreadBytes b i 0 :: w) q = advance w q) ∧
    ∀ b i k, advance (.rreadBytes b i (k + 1) :: w) q =
      advance (rreadByteOps ++ .store b i :: .rreadBytes b (i + 1) k :: w) q) ∧
  (∀ (s : State) u r, s.m.busy = true → s.m.fault = false → s.m.todo = .micro u :: r →
    ¬ (u = .wait ∧ s.m.waiting = true ∧ s.timer.done = false) → masterReady s = true) ∧
  ∀ s u : State, ∀ ts, s.turns = .master :: ts → u = { s with turns := ts } →
    (masterReady u = true → step s = masterStep u) ∧ (masterReady u = false → step s = .next u)

/-- `Wait` with k = `M.TL` while SCL is driven low and `M.TH` while it is driven high: empty for a product of 0 and
passed at once under Spin; under Timer it arms a countdown of the product, a natural number that is not wrapped, then
blocks, changing nothing, until the done flag is up (40_delay_engine.md R96, R97, R98). Arming is a step of its own
(log entry 5). -/
def Obligations.WaitBlocksUntilDone : Prop :=
  ∀ s rest n, s.m.todo = .micro .wait :: rest →
    n = s.m.waitParam.toNat * (if s.m.sclVal = false then s.m.tl else s.m.th).toNat →
    (n = 0 → masterStep s = .next (advance rest s)) ∧
    (s.m.strategy = .spin → masterStep s = .next (advance rest s)) ∧
    (n ≠ 0 → s.m.strategy = .timer → s.m.waiting = false → masterStep s = .next { s with
      m := { s.m with waiting := true }, timer := { s.timer with running := true, count := n, done := false } }) ∧
    (n ≠ 0 → s.m.strategy = .timer → s.m.waiting = true → s.timer.done = false → masterReady s = false) ∧
    (n ≠ 0 → s.m.strategy = .timer → s.m.waiting = true → s.timer.done = true →
      masterStep s = .next (advance rest s))

/-- The sample of START: with SDA low the eight Stop sequences, 64 micro-operations, come before `C1 W D0 W C0` and the
address byte, with SDA high they do not (41_master_i2c.md R109, R110, R122). -/
def Obligations.StuckLineRunsEightStops : Prop :=
  ∀ s a rest, s.m.cfg.variant = .i2c → s.m.todo = .micro .get :: .stuckTest :: rest →
    rest = [.micro (.scl true), .micro .wait, .micro (.sda false), .micro .wait, .micro (.scl false), .txByte a] →
    masterStep s = .next { s with
      m := { s.m with
      sampled := sdaAtMaster s, pos := s.m.pos + 1, waiting := false
      todo := (if sdaAtMaster s then [] else (List.replicate 8 (stopSeq ++ [.micro .wait])).flatten) ++ rest } }

/-- After a not-acknowledge a transmitting MOVE performs no micro-operation of any data byte: it is a bare STOP, or with
`more` it ends at once with no micro-operation at all (41_master_i2c.md R112, R117, R122; that `M.pos` is then 0 is the
model's choice, log entry 4). -/
def Obligations.NackSkipsBytesButStops : Prop :=
  ∀ s buf count, Accepts .i2c s → s.m.addr.getLsbD 0 = false → s.m.ackFail = true →
    exec (.move buf count false) s = exec .stop s ∧
    ∃ t, exec (.move buf count true) s = .next t ∧ t.m.busy = false ∧ t.m.todo = [] ∧ t.m.pos = 0 ∧
      t.out.status = s.out.status ++ [statusWord s.m] ∧ t.e = s.e ∧
      t.m.sdaDir = s.m.sdaDir ∧ t.m.sdaVal = s.m.sdaVal ∧ t.m.sclDir = s.m.sclDir ∧ t.m.sclVal = s.m.sclVal

/-- Every bus command ends, after the number of micro-operations the spec gives it, with its status word, whatever the
lines, the buffers and the environment do, under the Spin strategy and with no other agent between its steps
(46_common_semantics.md R199; which of two lengths it is, its samples decide); the master then accepts the next command
(10_state.md R13), and HostStatus gives the word (R201). That `M.pos` still holds the count there is the model's choice
(log entry 4). Rows start, move, stop, rstart, rmove, rpark. -/
def Obligations.EveryCommandEnds : Prop :=
  ∀ s i v, busCommandOf i = some v → Accepts v s → s.m.strategy = .spin →
    (∀ tx rx n, i = .rmove tx rx n → RmoveLegal tx rx n) →
    ∃ t k u, exec i s = .next t ∧ CommandLength i s.m.addr k ∧ runMaster k t = .next u ∧
      u.m.busy = false ∧ u.m.todo = [] ∧ u.m.pos = k ∧ u.m.fault = false ∧
      u.out.status = s.out.status ++ [statusWord u.m] ∧
      (∀ p0 p1 p2 p3, inputReady (.issue p0 p1 p2 p3) u = true) ∧ inputReady .status u = true ∧
      (s.out.status = [] → applyInput .status u = .next { u with
        out := { u.out with status := [], received := u.out.received ++ [.status (statusWord u.m)] } })

/-- STOP and RPARK from entry to end under Spin, seven steps of the master each: STOP leaves both lines driven high
(41_master_i2c.md R108, R119), RPARK the clock driven low and the data pin an input (42_master_rffe.md R135, R138); no
flag is written, the status word is returned, and nothing but the latches may change besides (`M.pos` 7 there is the
model's choice, log entry 4). Rows stop, rpark. -/
def Obligations.StopAndRparkRunToTheirEnds : Prop :=
  (∀ s, Accepts .i2c s → s.m.strategy = .spin →
    ∃ t u, exec .stop s = .next t ∧ runMaster 7 t = .next u ∧
      u = { s with
        e := u.e
        m := { s.m with
          pos := 7, waiting := false, todo := [], sdaDir := .out, sdaVal := true,
          sclDir := .out, sclVal := true }
        out := { s.out with status := s.out.status ++ [statusWord s.m] } }) ∧
  ∀ s, Accepts .rffe s → s.m.strategy = .spin →
    ∃ t u, exec .rpark s = .next t ∧ runMaster 7 t = .next u ∧
      u = { s with
        e := u.e
        m := { s.m with
          pos := 7, waiting := false, todo := [], sdaDir := .inp, sdaVal := false,
          sclDir := .out, sclVal := false }
        out := { s.out with status := s.out.status ++ [statusWord s.m] } }

/-- START on a bus of the master's own where nobody holds SDA: 53 steps, the address byte is not acknowledged, so `M.ackFail` is 1 and the
status word is 0x00000001 on a master with no parity error; SCL is left low and SDA released (41_master_i2c.md R110,
R112, R114). `M.pos` 53 after the end is the model's choice (log entry 4). Row start. -/
def Obligations.StartAloneIsNotAcknowledged : Prop :=
  ∀ s a, Accepts .i2c s → s.m.strategy = .spin → s.shared = false → s.env.mSda = true →
    s.m.parityErr = false → s.m.faultCode = 0#4 →
    ∃ t u, exec (.start a) s = .next t ∧ runMaster 53 t = .next u ∧ u.m.busy = false ∧ u.m.pos = 53 ∧
      u.m.ackFail = true ∧ u.m.addr = a ∧ u.m.sdaDir = .inp ∧ u.m.sclDir = .out ∧ u.m.sclVal = false ∧
      u.out.status = s.out.status ++ [0x00000001#32]

/-- RMOVE of one received byte with the environment's nine samples: the byte is those samples, first one bit 7, it is
stored whether or not the parity matched, and `M.parityErr` becomes 1 exactly on a mismatch or if it was 1
(42_master_rffe.md R134, R136, R139). Row rmove. -/
def Obligations.RffeByteIsTheSamples : Prop :=
  ∀ (s : State) (rx : Word) (v : Byte) (p : Bool) (r : List Bool), Accepts .rffe s → s.m.strategy = .spin →
    rx ≠ 0#32 → s.env.samples = [7, 6, 5, 4, 3, 2, 1, 0].map v.getLsbD ++ p :: r →
    ∃ t u, exec (.rmove 0#32 rx 1#32) s = .next t ∧ runMaster 52 t = .next u ∧ u.m.busy = false ∧ u.m.acc = v ∧
      u.bufs = s.bufs.write (bufKey rx 0) v ∧ u.m.parityErr = (s.m.parityErr || (p != parity v)) ∧
      u.env.samples = r ∧ u.out.status = s.out.status ++ [statusWord u.m]

/-- The parity bit makes the number of 1 bits odd, the bit itself included (42_master_rffe.md R133). -/
def Obligations.ParityMakesTheCountOdd : Prop :=
  (∀ v : BitVec 8, (parity v).toNat = 1 - popcount v % 2 ∧ (popcount v + (parity v).toNat) % 2 = 1) ∧
  (∀ v : BitVec 12, (parity v).toNat = 1 - popcount v % 2 ∧ (popcount v + (parity v).toNat) % 2 = 1) ∧
  parity 0x000#12 = true ∧ parity 0xFFF#12 = true ∧ parity 0x123#12 = true ∧ parity 0x800#12 = false ∧
  parity 0x00#8 = true ∧ parity 0xFF#8 = true ∧ parity 0x01#8 = false ∧ parity 0xA5#8 = true

/-- The status word, bit by bit (30_encoding.md R72). -/
def Obligations.StatusWordLayout : Prop :=
  ∀ m : Master, (statusWord m).getLsbD 0 = m.ackFail ∧ (statusWord m).getLsbD 1 = m.parityErr ∧
    (statusWord m).getLsbD 7 = m.fault ∧ (statusWord m).extractLsb' 8 4 = m.faultCode ∧
    ∀ j, j ≠ 0 → j ≠ 1 → j ≠ 7 → (j < 8 ∨ 12 ≤ j) → (statusWord m).getLsbD j = false

/-! ## Faults and halted contexts -/

/-- Raising a configuration fault latches it with its code on its context, and nothing else but, on the master, the end
of the command with a status word that carries it (60_exceptions.md R226; 30_encoding.md R72, R73). The checks of a
construction: the slave's null pin first, then its memory size; either leaves it halted with its pins released and its
edge interrupts off. A master's construction checks nothing (60_exceptions.md R228). -/
def Obligations.RaisingLatchesTheFault : Prop :=
  ((∀ c s, raiseMaster c s = { s with
    m := { s.m with fault := true, faultCode := faultCode c, busy := false }
    out := { s.out with
      status := s.out.status ++
      [statusWord { s.m with fault := true, faultCode := faultCode c }] } }) ∧
  (∀ c s, raiseSlave c s = { s with s := { s.s with fault := true, faultCode := faultCode c } }) ∧
  faultCode .nullPin = 1#4 ∧ faultCode .noClockTree = 2#4 ∧ faultCode .rateTooHigh = 3#4 ∧
  faultCode .rateUnreachable = 4#4 ∧ faultCode .moveZeroLen = 5#4 ∧ faultCode .moveDualDir = 6#4 ∧
  faultCode .moveNoBuffer = 7#4 ∧ faultCode .badCommand = 8#4 ∧ faultCode .notConfigured = 9#4 ∧
  faultCode .memSizeZero = 10#4 ∧ faultCode .badState = 11#4) ∧
  (∀ c s, (constructSlave c false s).s.fault = true ∧ (constructSlave c false s).s.faultCode = 1#4) ∧
  (∀ c s, c.memSize = 0 → (constructSlave c true s).s.fault = true ∧ (constructSlave c true s).s.faultCode = 10#4) ∧
  (∀ c s, c.memSize ≠ 0 → (constructSlave c true s).s.fault = false ∧ (constructSlave c true s).e.enabled = true) ∧
  (∀ c p s, p = false ∨ c.memSize = 0 →
    slaveSda (constructSlave c p s) = true ∧ (constructSlave c p s).e.enabled = false) ∧
  (∀ c p k s, (constructMaster c p k s).m.fault = false)

/-- The decode order of a command on a free master: halted, unknown opcode, CFG, not configured, other variant, run
(60_exceptions.md R230). `M.busy` becomes 1 for each of them, and 0 again where the command ends at once
(46_common_semantics.md R201, 10_state.md R13; log entry 3). -/
def Obligations.CommandDecodeOrder : Prop :=
  (∀ s, accept s = { s with m := { s.m with busy := true } }) ∧
  (∀ s, (returnStatus s).m = { s.m with busy := false }) ∧
  ∀ (s : State) (p0 p1 p2 p3 : Word), s.m.busy = false →
    (s.m.fault = true → issueCommand p0 p1 p2 p3 s = .next (returnStatus (accept s))) ∧
    (s.m.fault = false → p0.extractLsb' 0 8 ∉ opcodes →
      issueCommand p0 p1 p2 p3 s = .next (raiseMaster .badCommand (accept s))) ∧
    (s.m.fault = false → ∀ bps tl th, decode (.cmd p0 p1 p2 p3) = .ok (.cfg bps tl th) →
      issueCommand p0 p1 p2 p3 s = exec (.cfg bps tl th) s) ∧
    (s.m.fault = false → ∀ i v, decode (.cmd p0 p1 p2 p3) = .ok i → busCommandOf i = some v →
      (s.m.strategy = .none → issueCommand p0 p1 p2 p3 s = .next (raiseMaster .notConfigured (accept s))) ∧
      (s.m.strategy ≠ .none → s.m.cfg.variant ≠ v →
        issueCommand p0 p1 p2 p3 s = .next (raiseMaster .badCommand (accept s))) ∧
      (s.m.strategy ≠ .none → s.m.cfg.variant = v → issueCommand p0 p1 p2 p3 s = exec i s))

/-- A halted master returns its latched status word for every command and changes nothing; a halted slave's rows change
nothing and its handler is not enabled (60_exceptions.md R227). -/
def Obligations.HaltedContextsOnlyRefuse : Prop :=
  (∀ i s, isSlaveRow i = false → s.m.fault = true → s.m.busy = false → exec i s = .next { s with
    out := { s.out with status := s.out.status ++ [statusWord s.m] } }) ∧
  (∀ s, s.m.fault = true → masterReady s = false) ∧
  (∀ i s, isSlaveRow i = true → s.s.fault = true → exec i s = .next s) ∧
  (∀ s, s.s.fault = true → handlerReady s = false)

/-- Only a step that takes a construction of the context, and so constructs it, clears its fault latch or changes its code
(60_exceptions.md R227, 10_state.md R16). -/
def Obligations.FaultLatchesClearOnlyByConstruction : Prop :=
  ∀ s t, step s = .next t →
    (s.m.fault = true → (t.m.fault = true ∧ t.m.faultCode = s.m.faultCode) ∨
      ∃ c p k r, s.inputs = .constructMaster c p k :: r ∧ t.inputs = r ∧ t.m = masterReset c p k) ∧
    (s.s.fault = true → (t.s.fault = true ∧ t.s.faultCode = s.s.faultCode) ∨
      ∃ c p r, s.inputs = .constructSlave c p :: r ∧ t.inputs = r ∧ t.s.cfg = c ∧ t.s.pinsOk = p ∧
        t.s.state = stateCode .waitForStart)

/-! ## Reset -/

/-- What construction leaves, also at State.reset. The master: 70_reset_and_hazards.md R261. The slave and its latches,
the fault latch and the enable apart where a check failed: R262; the memory is kept and the spy stream empty (R263). That
a construction whose check fails leaves the other rows, the cleared latches and the empty stream too is the model's choice
(log entry 34). -/
def Obligations.ResetValues : Prop :=
  (∀ m, (m = State.reset.m ∨ ∃ c p k s, m = (constructMaster c p k s).m) →
    m.addr = 0#8 ∧ m.acc = 0#8 ∧ m.ackFail = false ∧ m.parityErr = false ∧ m.fault = false ∧ m.faultCode = 0#4 ∧
    m.busy = false ∧ m.pos = 0 ∧ m.bps = 0#32 ∧ m.tl = 0#16 ∧ m.th = 0#16 ∧ m.waitParam = 0#32 ∧
    m.strategy = .none ∧ m.sdaDir = .inp ∧ m.sclDir = .inp ∧ m.sdaVal = true ∧ m.sclVal = true ∧
    State.reset.ct.minCoreHzReq = 0#32 ∧
    ∀ c p k s, (constructMaster c p k s).m.pinsOk = p ∧ (constructMaster c p k s).m.clockTreeOk = k ∧
      (constructMaster c p k s).ct.minCoreHzReq = 0#32) ∧
  ∀ t, (t = State.reset ∨ ∃ c p s, t = constructSlave c p s) →
    t.s.state = stateCode .waitForStart ∧ t.s.sr = 0#8 ∧ t.s.mask = 0x80#8 ∧ t.s.ackPhase = false ∧
    t.s.decodedAddr = 0#8 ∧ t.s.cursor = 0 ∧ t.s.initCursor = 0 ∧ t.s.memWritten = false ∧ t.s.memRead = false ∧
    t.s.busBusy = false ∧ t.s.flagBusFree = false ∧ t.s.flagWriteDone = false ∧ t.s.flagReadDone = false ∧
    t.s.sdaDir = .inp ∧ t.s.sdaVal = true ∧ t.s.spyNibble = 0#4 ∧ t.s.spyCount = 0#4 ∧
    t.e.sda = false ∧ t.e.scl = false ∧ t.e.tmo = false ∧ t.out.spy = [] ∧
    (t.s.pinsOk = true → t.s.cfg.memSize ≠ 0 → t.s.fault = false ∧ t.s.faultCode = 0#4 ∧ t.e.enabled = true) ∧
    ∀ c p s, (constructSlave c p s).mem = s.mem

/-- The reset state meets every invariant below (70_reset_and_hazards.md R261, R262; 44_slave_fsm.md R190). -/
def Obligations.ResetSatisfiesInvariants : Prop :=
  SlaveInv State.reset ∧ DriveInv State.reset ∧ MasterInv State.reset ∧ MemoriesWf State.reset ∧ SpyInv State.reset

/-! ## Invariants and whole-machine rules -/

/-- 44_slave_fsm.md R190 (a), (b), (c), (d), (f), (g) and R167 hold after every step from a state where they hold. -/
def Obligations.SlaveInvariantKept : Prop := ∀ s t, SlaveInv s → step s = .next t → SlaveInv t

/-- 44_slave_fsm.md R190 (e), with the enable and the latches that make it inductive (R175), after every step. -/
def Obligations.DriveInvariantKept : Prop := ∀ s t, SlaveInv s → DriveInv s → step s = .next t → DriveInv t

/-- A configured master has a non-zero wait parameter; a command in progress has a configured, unhalted master and a
micro-operation to execute; a `Wait` that armed its countdown finds it running or done, after every step
(40_delay_engine.md R95, R97, R99; 10_state.md R13). -/
def Obligations.MasterInvariantKept : Prop := ∀ s t, MasterInv s → step s = .next t → MasterInv t

/-- Both memories keep their one canonical form, the model's own, in every step. In that form a read gives the byte last
written at its address and a write leaves every other address as it was (20_memory.md R41, R42); buffer bytes of
different handles or indices have different keys (R47, log entry 13). -/
def Obligations.MemoriesKeepCanonicalForm : Prop :=
  (∀ s t, MemoriesWf s → step s = .next t → MemoriesWf t) ∧
  (∀ (m : Memory) a v c, m.wf = true → (m.write a v).read c = if c = a then v else m.read c) ∧
  ∀ (b b' i i' : Word), bufKey b i.toNat = bufKey b' i'.toNat ↔ b = b' ∧ i = i'

/-- The backing memory changes only by the slave's memory commit, in the handler, or by the host, one byte at a time and
inside the memory (44_slave_fsm.md R184, R190 (h); 20_memory.md R42). -/
def Obligations.BackingMemoryChangesOnlyByCommitOrHost : Prop :=
  ∀ s t, step s = .next t →
    t.mem = s.mem ∨
    (t.mem = s.mem.write s.s.cursor s.s.sr ∧ s.s.cursor < s.s.cfg.memSize ∧ handlerReady s = true ∧
      s.s.state = stateCode .receiveData ∧ s.s.mask = 0#8 ∧ s.s.ackPhase = true ∧ t.s.memWritten = true) ∨
    (∃ k v r, s.inputs = .memWrite k v :: r ∧ k < s.s.cfg.memSize ∧ t.mem = s.mem.write k v)

/-- From a state that meets the invariants a step stops only in a `Wait` of the master whose countdown never finishes, with
no other agent able to step (93_implementation_defined.md U15), or for a host operation outside its precondition
(46_common_semantics.md R201): no row of the table stops. The stops' names are the model's (log entries 6, 16, 23). -/
def Obligations.StepStopsOnlyOutsideTheRows : Prop :=
  ∀ s, SlaveInv s → MasterInv s →
    (∀ e, step s = .fault e →
      (e = .timerStuck ∧ s.m.busy = true ∧ masterBlocked s = true ∧ s.timer.done = false ∧ s.timer.dead = true ∧
        s.turns = [] ∧ handlerReady s = false ∧ outsideReady s = false) ∨
      (e = .hostPrecondition ∧ ((s.inputs.head? = some .spyRead ∧ s.s.cfg.spyEn = false) ∨
        ∃ h, s.inputs.head? = some (.hookEvent h) ∧ hookEn s.s.cfg h = false)) ∨
      (e = .memIndex ∧ ∃ k, s.s.cfg.memSize ≤ k ∧
        (s.inputs.head? = some (.memRead k) ∨ ∃ v, s.inputs.head? = some (.memWrite k v)))) ∧
    ∀ r, step s ≠ .refused r

/-- The two contexts never touch each other's registers: a slave row leaves the master, the timer, the clock tree, the
host's buffers and status words and the Timeout latch alone; a command and a step of the master leave the slave's
registers, the backing memory, the hooks and the spy alone, and a command's entry also every latch and pin
(60_exceptions.md R241). -/
def Obligations.ContextsOwnTheirState : Prop :=
  (∀ i s t, isSlaveRow i = true → exec i s = .next t →
    t.m = s.m ∧ t.env = s.env ∧ t.timer = s.timer ∧ t.ct = s.ct ∧ t.bufs = s.bufs ∧ t.e.tmo = s.e.tmo ∧
    t.out.status = s.out.status ∧ t.out.received = s.out.received ∧ t.inputs = s.inputs ∧ t.turns = s.turns) ∧
  (∀ i s t, isSlaveRow i = false → exec i s = .next t →
    t.s = s.s ∧ t.mem = s.mem ∧ t.e = s.e ∧ t.env = s.env ∧ t.timer = s.timer ∧ t.out.hooks = s.out.hooks ∧
    t.out.spy = s.out.spy ∧ t.m.sdaDir = s.m.sdaDir ∧ t.m.sdaVal = s.m.sdaVal ∧ t.m.sclDir = s.m.sclDir ∧
    t.m.sclVal = s.m.sclVal) ∧
  (∀ s t, masterStep s = .next t →
    t.s = s.s ∧ t.mem = s.mem ∧ t.e.tmo = s.e.tmo ∧ t.ct = s.ct ∧ t.out.hooks = s.out.hooks ∧
    t.out.spy = s.out.spy)

/-- Given its turn, the outside's next operation takes its step where its precondition holds and waits where it does not:
HostIssue and HostBufWrite while a command runs, HostBufRead until HostStatus, HostStatus until the expansion is exhausted
or a fault was raised, HostHookEvent until its event; the others never wait. Their effects, HostConstruct included
(46_common_semantics.md R201; what the host received is the model's list and a buffer operation moves one byte, log entries
23, 35). The environment's (R202): a drive of one wire changes its contribution there alone, with the latches of a changed
level; the next RFFE sample; the clock; the countdown's end, when the timer is given the turn (log entry 6), and its
re-arming (log entry 33). The host and the environment reach no slave register but the poll flags, short of a construction,
and no master register but through commands and HostStatus' `M.busy`, short of a construction. -/
def Obligations.HostOperations : Prop :=
  (∀ s i r ts, s.inputs = i :: r → s.turns = .outside :: ts →
    (inputReady i s = true → step s = applyInput i { s with turns := ts, inputs := r }) ∧
    (inputReady i s = false → step s = .next { s with turns := ts })) ∧
  (∀ i s t, applyInput i s = .next t →
    ((∀ c p, i ≠ .constructSlave c p) →
      ∃ a b c, t.s = { s.s with flagBusFree := a, flagWriteDone := b, flagReadDone := c }) ∧
    ((∀ c p k, i ≠ .constructMaster c p k) → (∀ p0 p1 p2 p3, i ≠ .issue p0 p1 p2 p3) → i ≠ .status → t.m = s.m)) ∧
  (∀ s : State,
    (inputReady .status s = true ↔ (s.m.todo = [] ∨ s.m.fault = true) ∧ s.out.status ≠ []) ∧
    (∀ p0 p1 p2 p3, inputReady (.issue p0 p1 p2 p3) s = !s.m.busy) ∧
    (∀ b i v, inputReady (.bufWrite b i v) s = !s.m.busy) ∧
    (∀ b i, inputReady (.bufRead b i) s = true ↔ s.m.busy = false ∧ s.out.status = []) ∧
    (∀ h, inputReady (.hookEvent h) s = true ↔ (hookEn s.s.cfg h = true → s.out.hooks.head? = some h)) ∧
    (∀ i v h c p k l b n, ∀ x ∈ [Input.memRead i, .memWrite i v, .flagRead h, .flagClear h, .timeout, .spyRead,
      .busBusyRead, .constructMaster c p k, .envDrive l b, .envSample b, .clockKnown n, .timerArm n],
      inputReady x s = true) ∧
    (∀ c p, inputReady (.constructSlave c p) s = true) ∧
    (∀ c p k, applyInput (.constructMaster c p k) s = .next (constructMaster c p k s)) ∧
    (∀ c p, applyInput (.constructSlave c p) s = .next (constructSlave c p s)) ∧
    (∀ w r, s.out.status = w :: r → applyInput .status s = .next { s with
      m := { s.m with busy := false }
      out := { s.out with status := r, received := s.out.received ++ [.status w] } }) ∧
    (∀ b i v, applyInput (.bufWrite b i v) s = .next { s with bufs := s.bufs.write (bufKey b i.toNat) v }) ∧
    (∀ b i, applyInput (.bufRead b i) s = .next { s with
      out := { s.out with received := s.out.received ++ [.bufByte b i (s.bufs.read (bufKey b i.toNat))] } }) ∧
    (∀ i, i < s.s.cfg.memSize → applyInput (.memRead i) s = .next { s with
      out := { s.out with received := s.out.received ++ [.memByte i (s.mem.read i)] } }) ∧
    (∀ i v, i < s.s.cfg.memSize → applyInput (.memWrite i v) s = .next { s with mem := s.mem.write i v }) ∧
    (∀ h, applyInput (.flagRead h) s = .next { s with
      out := { s.out with received := s.out.received ++ [.flag h (hookFlag s.s h)] } }) ∧
    (∀ h, applyInput (.flagClear h) s = .next { s with s := setHookFlag s.s h false }) ∧
    (∀ h r, hookEn s.s.cfg h = true → s.out.hooks = h :: r → applyInput (.hookEvent h) s = .next { s with
      out := { s.out with hooks := r, received := s.out.received ++ [.hook h] } }) ∧
    applyInput .timeout s = .next { s with e := { s.e with tmo := true } } ∧
    (s.s.cfg.spyEn = true → applyInput .spyRead s = .next { s with
      out := { s.out with received := s.out.received ++ [.spy s.out.spy] } }) ∧
    applyInput .busBusyRead s = .next { s with
      out := { s.out with received := s.out.received ++ [.busBusy s.s.busBusy] } }) ∧
  (∀ (s : State) (v : Bool),
    applyInput (.envDrive .mSda v) s = .next (latchEdges s { s with env := { s.env with mSda := v } }) ∧
    applyInput (.envDrive .mScl v) s = .next (latchEdges s { s with env := { s.env with mScl := v } }) ∧
    applyInput (.envDrive .sSda v) s = .next (latchEdges s { s with env := { s.env with sSda := v } }) ∧
    applyInput (.envDrive .sScl v) s = .next (latchEdges s { s with env := { s.env with sScl := v } }) ∧
    applyInput (.envSample v) s = .next { s with env := { s.env with samples := s.env.samples ++ [v] } }) ∧
  ∀ s : State,
    (∀ f, applyInput (.clockKnown f) s = .next { s with ct := { s.ct with coreHz := some f } }) ∧
    (∀ n, applyInput (.timerArm n) s = .next { s with
      timer := { s.timer with running := true, count := n, done := false } }) ∧
    (∀ ts, s.turns = .timer :: ts →
      (s.timer.running = true → s.timer.dead = false → step s = .next { s with
        turns := ts, timer := { s.timer with running := false, done := true } }) ∧
      (s.timer.running = false ∨ s.timer.dead = true → step s = .next { s with turns := ts }))

end
end

