-- ==== Sys2Proof/Laws/Decode.lean ====
section
/-! SUPPORT. The decoder on the words of each format. -/

namespace Sys2Proof

/-- A field of 8 bits placed in a word is read back. -/
@[simp] theorem extract_setWidth_8 (a : BitVec 8) : (a.setWidth 32).extractLsb' 0 8 = a := by
  ext i hi; simp [hi]; omega

/-- A field of 12 bits placed in a word is read back. -/
@[simp] theorem extract_setWidth_12 (a : BitVec 12) : (a.setWidth 32).extractLsb' 0 12 = a := by
  ext i hi; simp [hi]; omega

/-- The low half of two halves joined. -/
@[simp] theorem extract_low_append (a b : BitVec 16) : (a ++ b).extractLsb' 0 16 = b := by
  ext i hi
  have h := BitVec.getLsbD_append (x := a) (y := b) (i := i)
  simpa [BitVec.getLsbD_eq_getElem hi, if_pos hi] using h

/-- The high half of two halves joined. -/
@[simp] theorem extract_high_append (a b : BitVec 16) : (a ++ b).extractLsb' 16 16 = a := by
  ext i hi
  have h := BitVec.getLsbD_append (x := a) (y := b) (i := 16 + i)
  simpa [BitVec.getLsbD_eq_getElem hi] using h

/-- Bit 0 of a bit placed in a word. -/
@[simp] theorem getLsbD_ofBool_setWidth (b : Bool) : ((BitVec.ofBool b).setWidth 32).getLsbD 0 = b := by
  cases b <;> rfl

/-- A symbol code decodes to its symbol's row. -/
theorem decode_symbolCode (y : Symbol) : decode (.sym (symbolCode y)) = .ok (symbolInstr y) := by cases y <;> rfl

/-- A state index decodes to its state's row. -/
theorem decode_stateCode (x : StateName) : decode (.state (stateCode x)) = .ok (stateInstr x) := by cases x <;> rfl

end Sys2Proof
end

