-- ==== Sys2Proof/Laws/State.lean ====
section
/-! SUPPORT. What each update of State does to each field: one lemma per field per update. -/

namespace Sys2Proof.Machine

@[simp] theorem setM_m (q : State) (x : Master) : (q.setM x).m = x := rfl
@[simp] theorem setM_s (q : State) (x : Master) : (q.setM x).s = q.s := rfl
@[simp] theorem setM_e (q : State) (x : Master) : (q.setM x).e = q.e := rfl
@[simp] theorem setM_env (q : State) (x : Master) : (q.setM x).env = q.env := rfl
@[simp] theorem setM_timer (q : State) (x : Master) : (q.setM x).timer = q.timer := rfl
@[simp] theorem setM_ct (q : State) (x : Master) : (q.setM x).ct = q.ct := rfl
@[simp] theorem setM_mem (q : State) (x : Master) : (q.setM x).mem = q.mem := rfl
@[simp] theorem setM_bufs (q : State) (x : Master) : (q.setM x).bufs = q.bufs := rfl
@[simp] theorem setM_out (q : State) (x : Master) : (q.setM x).out = q.out := rfl
@[simp] theorem setM_inputs (q : State) (x : Master) : (q.setM x).inputs = q.inputs := rfl
@[simp] theorem setM_turns (q : State) (x : Master) : (q.setM x).turns = q.turns := rfl
@[simp] theorem setM_shared (q : State) (x : Master) : (q.setM x).shared = q.shared := rfl
@[simp] theorem setM_setM (q : State) (x y : Master) : (q.setM x).setM y = q.setM y := rfl

@[simp] theorem setS_m (q : State) (x : Slave) : (q.setS x).m = q.m := rfl
@[simp] theorem setS_s (q : State) (x : Slave) : (q.setS x).s = x := rfl
@[simp] theorem setS_e (q : State) (x : Slave) : (q.setS x).e = q.e := rfl
@[simp] theorem setS_env (q : State) (x : Slave) : (q.setS x).env = q.env := rfl
@[simp] theorem setS_timer (q : State) (x : Slave) : (q.setS x).timer = q.timer := rfl
@[simp] theorem setS_ct (q : State) (x : Slave) : (q.setS x).ct = q.ct := rfl
@[simp] theorem setS_mem (q : State) (x : Slave) : (q.setS x).mem = q.mem := rfl
@[simp] theorem setS_bufs (q : State) (x : Slave) : (q.setS x).bufs = q.bufs := rfl
@[simp] theorem setS_out (q : State) (x : Slave) : (q.setS x).out = q.out := rfl
@[simp] theorem setS_inputs (q : State) (x : Slave) : (q.setS x).inputs = q.inputs := rfl
@[simp] theorem setS_turns (q : State) (x : Slave) : (q.setS x).turns = q.turns := rfl
@[simp] theorem setS_shared (q : State) (x : Slave) : (q.setS x).shared = q.shared := rfl
@[simp] theorem setS_setS (q : State) (x y : Slave) : (q.setS x).setS y = q.setS y := rfl

@[simp] theorem setE_m (q : State) (x : Latches) : (q.setE x).m = q.m := rfl
@[simp] theorem setE_s (q : State) (x : Latches) : (q.setE x).s = q.s := rfl
@[simp] theorem setE_e (q : State) (x : Latches) : (q.setE x).e = x := rfl
@[simp] theorem setE_env (q : State) (x : Latches) : (q.setE x).env = q.env := rfl
@[simp] theorem setE_timer (q : State) (x : Latches) : (q.setE x).timer = q.timer := rfl
@[simp] theorem setE_ct (q : State) (x : Latches) : (q.setE x).ct = q.ct := rfl
@[simp] theorem setE_mem (q : State) (x : Latches) : (q.setE x).mem = q.mem := rfl
@[simp] theorem setE_bufs (q : State) (x : Latches) : (q.setE x).bufs = q.bufs := rfl
@[simp] theorem setE_out (q : State) (x : Latches) : (q.setE x).out = q.out := rfl
@[simp] theorem setE_inputs (q : State) (x : Latches) : (q.setE x).inputs = q.inputs := rfl
@[simp] theorem setE_turns (q : State) (x : Latches) : (q.setE x).turns = q.turns := rfl
@[simp] theorem setE_shared (q : State) (x : Latches) : (q.setE x).shared = q.shared := rfl
@[simp] theorem setE_setE (q : State) (x y : Latches) : (q.setE x).setE y = q.setE y := rfl

@[simp] theorem setEnv_m (q : State) (x : Env) : (q.setEnv x).m = q.m := rfl
@[simp] theorem setEnv_s (q : State) (x : Env) : (q.setEnv x).s = q.s := rfl
@[simp] theorem setEnv_e (q : State) (x : Env) : (q.setEnv x).e = q.e := rfl
@[simp] theorem setEnv_env (q : State) (x : Env) : (q.setEnv x).env = x := rfl
@[simp] theorem setEnv_timer (q : State) (x : Env) : (q.setEnv x).timer = q.timer := rfl
@[simp] theorem setEnv_ct (q : State) (x : Env) : (q.setEnv x).ct = q.ct := rfl
@[simp] theorem setEnv_mem (q : State) (x : Env) : (q.setEnv x).mem = q.mem := rfl
@[simp] theorem setEnv_bufs (q : State) (x : Env) : (q.setEnv x).bufs = q.bufs := rfl
@[simp] theorem setEnv_out (q : State) (x : Env) : (q.setEnv x).out = q.out := rfl
@[simp] theorem setEnv_inputs (q : State) (x : Env) : (q.setEnv x).inputs = q.inputs := rfl
@[simp] theorem setEnv_turns (q : State) (x : Env) : (q.setEnv x).turns = q.turns := rfl
@[simp] theorem setEnv_shared (q : State) (x : Env) : (q.setEnv x).shared = q.shared := rfl
@[simp] theorem setEnv_setEnv (q : State) (x y : Env) : (q.setEnv x).setEnv y = q.setEnv y := rfl

@[simp] theorem setTimer_m (q : State) (x : Timer) : (q.setTimer x).m = q.m := rfl
@[simp] theorem setTimer_s (q : State) (x : Timer) : (q.setTimer x).s = q.s := rfl
@[simp] theorem setTimer_e (q : State) (x : Timer) : (q.setTimer x).e = q.e := rfl
@[simp] theorem setTimer_env (q : State) (x : Timer) : (q.setTimer x).env = q.env := rfl
@[simp] theorem setTimer_timer (q : State) (x : Timer) : (q.setTimer x).timer = x := rfl
@[simp] theorem setTimer_ct (q : State) (x : Timer) : (q.setTimer x).ct = q.ct := rfl
@[simp] theorem setTimer_mem (q : State) (x : Timer) : (q.setTimer x).mem = q.mem := rfl
@[simp] theorem setTimer_bufs (q : State) (x : Timer) : (q.setTimer x).bufs = q.bufs := rfl
@[simp] theorem setTimer_out (q : State) (x : Timer) : (q.setTimer x).out = q.out := rfl
@[simp] theorem setTimer_inputs (q : State) (x : Timer) : (q.setTimer x).inputs = q.inputs := rfl
@[simp] theorem setTimer_turns (q : State) (x : Timer) : (q.setTimer x).turns = q.turns := rfl
@[simp] theorem setTimer_shared (q : State) (x : Timer) : (q.setTimer x).shared = q.shared := rfl
@[simp] theorem setTimer_setTimer (q : State) (x y : Timer) : (q.setTimer x).setTimer y = q.setTimer y := rfl

@[simp] theorem setCt_m (q : State) (x : ClockTree) : (q.setCt x).m = q.m := rfl
@[simp] theorem setCt_s (q : State) (x : ClockTree) : (q.setCt x).s = q.s := rfl
@[simp] theorem setCt_e (q : State) (x : ClockTree) : (q.setCt x).e = q.e := rfl
@[simp] theorem setCt_env (q : State) (x : ClockTree) : (q.setCt x).env = q.env := rfl
@[simp] theorem setCt_timer (q : State) (x : ClockTree) : (q.setCt x).timer = q.timer := rfl
@[simp] theorem setCt_ct (q : State) (x : ClockTree) : (q.setCt x).ct = x := rfl
@[simp] theorem setCt_mem (q : State) (x : ClockTree) : (q.setCt x).mem = q.mem := rfl
@[simp] theorem setCt_bufs (q : State) (x : ClockTree) : (q.setCt x).bufs = q.bufs := rfl
@[simp] theorem setCt_out (q : State) (x : ClockTree) : (q.setCt x).out = q.out := rfl
@[simp] theorem setCt_inputs (q : State) (x : ClockTree) : (q.setCt x).inputs = q.inputs := rfl
@[simp] theorem setCt_turns (q : State) (x : ClockTree) : (q.setCt x).turns = q.turns := rfl
@[simp] theorem setCt_shared (q : State) (x : ClockTree) : (q.setCt x).shared = q.shared := rfl
@[simp] theorem setCt_setCt (q : State) (x y : ClockTree) : (q.setCt x).setCt y = q.setCt y := rfl

@[simp] theorem setMem_m (q : State) (x : Memory) : (q.setMem x).m = q.m := rfl
@[simp] theorem setMem_s (q : State) (x : Memory) : (q.setMem x).s = q.s := rfl
@[simp] theorem setMem_e (q : State) (x : Memory) : (q.setMem x).e = q.e := rfl
@[simp] theorem setMem_env (q : State) (x : Memory) : (q.setMem x).env = q.env := rfl
@[simp] theorem setMem_timer (q : State) (x : Memory) : (q.setMem x).timer = q.timer := rfl
@[simp] theorem setMem_ct (q : State) (x : Memory) : (q.setMem x).ct = q.ct := rfl
@[simp] theorem setMem_mem (q : State) (x : Memory) : (q.setMem x).mem = x := rfl
@[simp] theorem setMem_bufs (q : State) (x : Memory) : (q.setMem x).bufs = q.bufs := rfl
@[simp] theorem setMem_out (q : State) (x : Memory) : (q.setMem x).out = q.out := rfl
@[simp] theorem setMem_inputs (q : State) (x : Memory) : (q.setMem x).inputs = q.inputs := rfl
@[simp] theorem setMem_turns (q : State) (x : Memory) : (q.setMem x).turns = q.turns := rfl
@[simp] theorem setMem_shared (q : State) (x : Memory) : (q.setMem x).shared = q.shared := rfl
@[simp] theorem setMem_setMem (q : State) (x y : Memory) : (q.setMem x).setMem y = q.setMem y := rfl

@[simp] theorem setBufs_m (q : State) (x : Memory) : (q.setBufs x).m = q.m := rfl
@[simp] theorem setBufs_s (q : State) (x : Memory) : (q.setBufs x).s = q.s := rfl
@[simp] theorem setBufs_e (q : State) (x : Memory) : (q.setBufs x).e = q.e := rfl
@[simp] theorem setBufs_env (q : State) (x : Memory) : (q.setBufs x).env = q.env := rfl
@[simp] theorem setBufs_timer (q : State) (x : Memory) : (q.setBufs x).timer = q.timer := rfl
@[simp] theorem setBufs_ct (q : State) (x : Memory) : (q.setBufs x).ct = q.ct := rfl
@[simp] theorem setBufs_mem (q : State) (x : Memory) : (q.setBufs x).mem = q.mem := rfl
@[simp] theorem setBufs_bufs (q : State) (x : Memory) : (q.setBufs x).bufs = x := rfl
@[simp] theorem setBufs_out (q : State) (x : Memory) : (q.setBufs x).out = q.out := rfl
@[simp] theorem setBufs_inputs (q : State) (x : Memory) : (q.setBufs x).inputs = q.inputs := rfl
@[simp] theorem setBufs_turns (q : State) (x : Memory) : (q.setBufs x).turns = q.turns := rfl
@[simp] theorem setBufs_shared (q : State) (x : Memory) : (q.setBufs x).shared = q.shared := rfl
@[simp] theorem setBufs_setBufs (q : State) (x y : Memory) : (q.setBufs x).setBufs y = q.setBufs y := rfl

@[simp] theorem setOut_m (q : State) (x : Outputs) : (q.setOut x).m = q.m := rfl
@[simp] theorem setOut_s (q : State) (x : Outputs) : (q.setOut x).s = q.s := rfl
@[simp] theorem setOut_e (q : State) (x : Outputs) : (q.setOut x).e = q.e := rfl
@[simp] theorem setOut_env (q : State) (x : Outputs) : (q.setOut x).env = q.env := rfl
@[simp] theorem setOut_timer (q : State) (x : Outputs) : (q.setOut x).timer = q.timer := rfl
@[simp] theorem setOut_ct (q : State) (x : Outputs) : (q.setOut x).ct = q.ct := rfl
@[simp] theorem setOut_mem (q : State) (x : Outputs) : (q.setOut x).mem = q.mem := rfl
@[simp] theorem setOut_bufs (q : State) (x : Outputs) : (q.setOut x).bufs = q.bufs := rfl
@[simp] theorem setOut_out (q : State) (x : Outputs) : (q.setOut x).out = x := rfl
@[simp] theorem setOut_inputs (q : State) (x : Outputs) : (q.setOut x).inputs = q.inputs := rfl
@[simp] theorem setOut_turns (q : State) (x : Outputs) : (q.setOut x).turns = q.turns := rfl
@[simp] theorem setOut_shared (q : State) (x : Outputs) : (q.setOut x).shared = q.shared := rfl
@[simp] theorem setOut_setOut (q : State) (x y : Outputs) : (q.setOut x).setOut y = q.setOut y := rfl

end Sys2Proof.Machine
end

