-- ==== Sys2Proof/Laws/Ops.lean ====
section
/-! SUPPORT. What each pin operation, each fault operation and each output operation does to each field of State. -/

namespace Sys2Proof.Machine

/-- Setting latches touches no other field, and neither the Timeout latch nor the enable. -/
theorem latchEdges_eq (p q : State) : latchEdges p q = q.setE (latchEdges p q).e := rfl

@[simp] theorem latchEdges_m (p q : State) : (latchEdges p q).m = q.m := rfl
@[simp] theorem latchEdges_s (p q : State) : (latchEdges p q).s = q.s := rfl
@[simp] theorem latchEdges_env (p q : State) : (latchEdges p q).env = q.env := rfl
@[simp] theorem latchEdges_timer (p q : State) : (latchEdges p q).timer = q.timer := rfl
@[simp] theorem latchEdges_ct (p q : State) : (latchEdges p q).ct = q.ct := rfl
@[simp] theorem latchEdges_mem (p q : State) : (latchEdges p q).mem = q.mem := rfl
@[simp] theorem latchEdges_bufs (p q : State) : (latchEdges p q).bufs = q.bufs := rfl
@[simp] theorem latchEdges_out (p q : State) : (latchEdges p q).out = q.out := rfl
@[simp] theorem latchEdges_inputs (p q : State) : (latchEdges p q).inputs = q.inputs := rfl
@[simp] theorem latchEdges_turns (p q : State) : (latchEdges p q).turns = q.turns := rfl
@[simp] theorem latchEdges_shared (p q : State) : (latchEdges p q).shared = q.shared := rfl
@[simp] theorem latchEdges_tmo (p q : State) : (latchEdges p q).e.tmo = q.e.tmo := rfl
@[simp] theorem latchEdges_enabled (p q : State) : (latchEdges p q).e.enabled = q.e.enabled := rfl

@[simp] theorem masterSetSda_m (b : Bool) (q : State) : (masterSetSda b q).m = { q.m with sdaDir := .out, sdaVal := b } := rfl
@[simp] theorem masterSetSda_s (b : Bool) (q : State) : (masterSetSda b q).s = q.s := rfl
@[simp] theorem masterSetSda_env (b : Bool) (q : State) : (masterSetSda b q).env = q.env := rfl
@[simp] theorem masterSetSda_timer (b : Bool) (q : State) : (masterSetSda b q).timer = q.timer := rfl
@[simp] theorem masterSetSda_ct (b : Bool) (q : State) : (masterSetSda b q).ct = q.ct := rfl
@[simp] theorem masterSetSda_mem (b : Bool) (q : State) : (masterSetSda b q).mem = q.mem := rfl
@[simp] theorem masterSetSda_bufs (b : Bool) (q : State) : (masterSetSda b q).bufs = q.bufs := rfl
@[simp] theorem masterSetSda_out (b : Bool) (q : State) : (masterSetSda b q).out = q.out := rfl
@[simp] theorem masterSetSda_inputs (b : Bool) (q : State) : (masterSetSda b q).inputs = q.inputs := rfl
@[simp] theorem masterSetSda_turns (b : Bool) (q : State) : (masterSetSda b q).turns = q.turns := rfl
@[simp] theorem masterSetSda_shared (b : Bool) (q : State) : (masterSetSda b q).shared = q.shared := rfl

@[simp] theorem masterReleaseSda_m (q : State) : (masterReleaseSda q).m = { q.m with sdaDir := .inp } := rfl
@[simp] theorem masterReleaseSda_s (q : State) : (masterReleaseSda q).s = q.s := rfl
@[simp] theorem masterReleaseSda_env (q : State) : (masterReleaseSda q).env = q.env := rfl
@[simp] theorem masterReleaseSda_timer (q : State) : (masterReleaseSda q).timer = q.timer := rfl
@[simp] theorem masterReleaseSda_ct (q : State) : (masterReleaseSda q).ct = q.ct := rfl
@[simp] theorem masterReleaseSda_mem (q : State) : (masterReleaseSda q).mem = q.mem := rfl
@[simp] theorem masterReleaseSda_bufs (q : State) : (masterReleaseSda q).bufs = q.bufs := rfl
@[simp] theorem masterReleaseSda_out (q : State) : (masterReleaseSda q).out = q.out := rfl
@[simp] theorem masterReleaseSda_inputs (q : State) : (masterReleaseSda q).inputs = q.inputs := rfl
@[simp] theorem masterReleaseSda_turns (q : State) : (masterReleaseSda q).turns = q.turns := rfl
@[simp] theorem masterReleaseSda_shared (q : State) : (masterReleaseSda q).shared = q.shared := rfl

@[simp] theorem masterSetScl_m (b : Bool) (q : State) : (masterSetScl b q).m = { q.m with sclDir := .out, sclVal := b } := rfl
@[simp] theorem masterSetScl_s (b : Bool) (q : State) : (masterSetScl b q).s = q.s := rfl
@[simp] theorem masterSetScl_env (b : Bool) (q : State) : (masterSetScl b q).env = q.env := rfl
@[simp] theorem masterSetScl_timer (b : Bool) (q : State) : (masterSetScl b q).timer = q.timer := rfl
@[simp] theorem masterSetScl_ct (b : Bool) (q : State) : (masterSetScl b q).ct = q.ct := rfl
@[simp] theorem masterSetScl_mem (b : Bool) (q : State) : (masterSetScl b q).mem = q.mem := rfl
@[simp] theorem masterSetScl_bufs (b : Bool) (q : State) : (masterSetScl b q).bufs = q.bufs := rfl
@[simp] theorem masterSetScl_out (b : Bool) (q : State) : (masterSetScl b q).out = q.out := rfl
@[simp] theorem masterSetScl_inputs (b : Bool) (q : State) : (masterSetScl b q).inputs = q.inputs := rfl
@[simp] theorem masterSetScl_turns (b : Bool) (q : State) : (masterSetScl b q).turns = q.turns := rfl
@[simp] theorem masterSetScl_shared (b : Bool) (q : State) : (masterSetScl b q).shared = q.shared := rfl

@[simp] theorem slaveSetSda_m (b : Bool) (q : State) : (slaveSetSda b q).m = q.m := rfl
@[simp] theorem slaveSetSda_s (b : Bool) (q : State) : (slaveSetSda b q).s = { q.s with sdaDir := .out, sdaVal := b } := rfl
@[simp] theorem slaveSetSda_env (b : Bool) (q : State) : (slaveSetSda b q).env = q.env := rfl
@[simp] theorem slaveSetSda_timer (b : Bool) (q : State) : (slaveSetSda b q).timer = q.timer := rfl
@[simp] theorem slaveSetSda_ct (b : Bool) (q : State) : (slaveSetSda b q).ct = q.ct := rfl
@[simp] theorem slaveSetSda_mem (b : Bool) (q : State) : (slaveSetSda b q).mem = q.mem := rfl
@[simp] theorem slaveSetSda_bufs (b : Bool) (q : State) : (slaveSetSda b q).bufs = q.bufs := rfl
@[simp] theorem slaveSetSda_out (b : Bool) (q : State) : (slaveSetSda b q).out = q.out := rfl
@[simp] theorem slaveSetSda_inputs (b : Bool) (q : State) : (slaveSetSda b q).inputs = q.inputs := rfl
@[simp] theorem slaveSetSda_turns (b : Bool) (q : State) : (slaveSetSda b q).turns = q.turns := rfl
@[simp] theorem slaveSetSda_shared (b : Bool) (q : State) : (slaveSetSda b q).shared = q.shared := rfl

@[simp] theorem slaveReleaseSda_m (q : State) : (slaveReleaseSda q).m = q.m := rfl
@[simp] theorem slaveReleaseSda_s (q : State) : (slaveReleaseSda q).s = { q.s with sdaDir := .inp } := rfl
@[simp] theorem slaveReleaseSda_env (q : State) : (slaveReleaseSda q).env = q.env := rfl
@[simp] theorem slaveReleaseSda_timer (q : State) : (slaveReleaseSda q).timer = q.timer := rfl
@[simp] theorem slaveReleaseSda_ct (q : State) : (slaveReleaseSda q).ct = q.ct := rfl
@[simp] theorem slaveReleaseSda_mem (q : State) : (slaveReleaseSda q).mem = q.mem := rfl
@[simp] theorem slaveReleaseSda_bufs (q : State) : (slaveReleaseSda q).bufs = q.bufs := rfl
@[simp] theorem slaveReleaseSda_out (q : State) : (slaveReleaseSda q).out = q.out := rfl
@[simp] theorem slaveReleaseSda_inputs (q : State) : (slaveReleaseSda q).inputs = q.inputs := rfl
@[simp] theorem slaveReleaseSda_turns (q : State) : (slaveReleaseSda q).turns = q.turns := rfl
@[simp] theorem slaveReleaseSda_shared (q : State) : (slaveReleaseSda q).shared = q.shared := rfl

@[simp] theorem masterSetSda_tmo (b : Bool) (q : State) : (masterSetSda b q).e.tmo = q.e.tmo := rfl
@[simp] theorem masterSetSda_enabled (b : Bool) (q : State) : (masterSetSda b q).e.enabled = q.e.enabled := rfl
@[simp] theorem masterReleaseSda_tmo (q : State) : (masterReleaseSda q).e.tmo = q.e.tmo := rfl
@[simp] theorem masterReleaseSda_enabled (q : State) : (masterReleaseSda q).e.enabled = q.e.enabled := rfl
@[simp] theorem masterSetScl_tmo (b : Bool) (q : State) : (masterSetScl b q).e.tmo = q.e.tmo := rfl
@[simp] theorem masterSetScl_enabled (b : Bool) (q : State) : (masterSetScl b q).e.enabled = q.e.enabled := rfl
@[simp] theorem slaveSetSda_tmo (b : Bool) (q : State) : (slaveSetSda b q).e.tmo = q.e.tmo := rfl
@[simp] theorem slaveSetSda_enabled (b : Bool) (q : State) : (slaveSetSda b q).e.enabled = q.e.enabled := rfl
@[simp] theorem slaveReleaseSda_tmo (q : State) : (slaveReleaseSda q).e.tmo = q.e.tmo := rfl
@[simp] theorem slaveReleaseSda_enabled (q : State) : (slaveReleaseSda q).e.enabled = q.e.enabled := rfl

@[simp] theorem returnStatus_m (q : State) : (returnStatus q).m = { q.m with busy := false } := rfl
@[simp] theorem returnStatus_s (q : State) : (returnStatus q).s = q.s := rfl
@[simp] theorem returnStatus_e (q : State) : (returnStatus q).e = q.e := rfl
@[simp] theorem returnStatus_env (q : State) : (returnStatus q).env = q.env := rfl
@[simp] theorem returnStatus_timer (q : State) : (returnStatus q).timer = q.timer := rfl
@[simp] theorem returnStatus_ct (q : State) : (returnStatus q).ct = q.ct := rfl
@[simp] theorem returnStatus_mem (q : State) : (returnStatus q).mem = q.mem := rfl
@[simp] theorem returnStatus_bufs (q : State) : (returnStatus q).bufs = q.bufs := rfl
@[simp] theorem returnStatus_out (q : State) : (returnStatus q).out = { q.out with status := q.out.status ++ [statusWord q.m] } := rfl
@[simp] theorem returnStatus_inputs (q : State) : (returnStatus q).inputs = q.inputs := rfl
@[simp] theorem returnStatus_turns (q : State) : (returnStatus q).turns = q.turns := rfl
@[simp] theorem returnStatus_shared (q : State) : (returnStatus q).shared = q.shared := rfl

@[simp] theorem raiseSlave_m (c : ConfigFault) (q : State) : (raiseSlave c q).m = q.m := rfl
@[simp] theorem raiseSlave_s (c : ConfigFault) (q : State) : (raiseSlave c q).s = { q.s with fault := true, faultCode := faultCode c } := rfl
@[simp] theorem raiseSlave_e (c : ConfigFault) (q : State) : (raiseSlave c q).e = q.e := rfl
@[simp] theorem raiseSlave_env (c : ConfigFault) (q : State) : (raiseSlave c q).env = q.env := rfl
@[simp] theorem raiseSlave_timer (c : ConfigFault) (q : State) : (raiseSlave c q).timer = q.timer := rfl
@[simp] theorem raiseSlave_ct (c : ConfigFault) (q : State) : (raiseSlave c q).ct = q.ct := rfl
@[simp] theorem raiseSlave_mem (c : ConfigFault) (q : State) : (raiseSlave c q).mem = q.mem := rfl
@[simp] theorem raiseSlave_bufs (c : ConfigFault) (q : State) : (raiseSlave c q).bufs = q.bufs := rfl
@[simp] theorem raiseSlave_out (c : ConfigFault) (q : State) : (raiseSlave c q).out = q.out := rfl
@[simp] theorem raiseSlave_inputs (c : ConfigFault) (q : State) : (raiseSlave c q).inputs = q.inputs := rfl
@[simp] theorem raiseSlave_turns (c : ConfigFault) (q : State) : (raiseSlave c q).turns = q.turns := rfl
@[simp] theorem raiseSlave_shared (c : ConfigFault) (q : State) : (raiseSlave c q).shared = q.shared := rfl

@[simp] theorem emit_m (text : List Char) (q : State) : (emit text q).m = q.m := rfl
@[simp] theorem emit_s (text : List Char) (q : State) : (emit text q).s = q.s := rfl
@[simp] theorem emit_e (text : List Char) (q : State) : (emit text q).e = q.e := rfl
@[simp] theorem emit_env (text : List Char) (q : State) : (emit text q).env = q.env := rfl
@[simp] theorem emit_timer (text : List Char) (q : State) : (emit text q).timer = q.timer := rfl
@[simp] theorem emit_ct (text : List Char) (q : State) : (emit text q).ct = q.ct := rfl
@[simp] theorem emit_mem (text : List Char) (q : State) : (emit text q).mem = q.mem := rfl
@[simp] theorem emit_bufs (text : List Char) (q : State) : (emit text q).bufs = q.bufs := rfl
@[simp] theorem emit_out (text : List Char) (q : State) : (emit text q).out = { q.out with spy := q.out.spy ++ text } := rfl
@[simp] theorem emit_inputs (text : List Char) (q : State) : (emit text q).inputs = q.inputs := rfl
@[simp] theorem emit_turns (text : List Char) (q : State) : (emit text q).turns = q.turns := rfl
@[simp] theorem emit_shared (text : List Char) (q : State) : (emit text q).shared = q.shared := rfl

@[simp] theorem writeBuf_m (b : Word) (i : Nat) (v : Byte) (q : State) : (writeBuf q b i v).m = q.m := rfl
@[simp] theorem writeBuf_s (b : Word) (i : Nat) (v : Byte) (q : State) : (writeBuf q b i v).s = q.s := rfl
@[simp] theorem writeBuf_e (b : Word) (i : Nat) (v : Byte) (q : State) : (writeBuf q b i v).e = q.e := rfl
@[simp] theorem writeBuf_env (b : Word) (i : Nat) (v : Byte) (q : State) : (writeBuf q b i v).env = q.env := rfl
@[simp] theorem writeBuf_timer (b : Word) (i : Nat) (v : Byte) (q : State) : (writeBuf q b i v).timer = q.timer := rfl
@[simp] theorem writeBuf_ct (b : Word) (i : Nat) (v : Byte) (q : State) : (writeBuf q b i v).ct = q.ct := rfl
@[simp] theorem writeBuf_mem (b : Word) (i : Nat) (v : Byte) (q : State) : (writeBuf q b i v).mem = q.mem := rfl
@[simp] theorem writeBuf_bufs (b : Word) (i : Nat) (v : Byte) (q : State) : (writeBuf q b i v).bufs = q.bufs.write (bufKey b i) v := rfl
@[simp] theorem writeBuf_out (b : Word) (i : Nat) (v : Byte) (q : State) : (writeBuf q b i v).out = q.out := rfl
@[simp] theorem writeBuf_inputs (b : Word) (i : Nat) (v : Byte) (q : State) : (writeBuf q b i v).inputs = q.inputs := rfl
@[simp] theorem writeBuf_turns (b : Word) (i : Nat) (v : Byte) (q : State) : (writeBuf q b i v).turns = q.turns := rfl
@[simp] theorem writeBuf_shared (b : Word) (i : Nat) (v : Byte) (q : State) : (writeBuf q b i v).shared = q.shared := rfl

/-- Raising a fault on the master latches it, ends the command and returns the status word; nothing else moves. -/
theorem raiseMaster_eq (c : ConfigFault) (q : State) :
    raiseMaster c q = { q with
      m := { q.m with fault := true, faultCode := faultCode c, busy := false }
      out := { q.out with status := q.out.status ++ [statusWord { q.m with fault := true, faultCode := faultCode c }] } } :=
  rfl

/-- A hook signalled: an event or its poll flag, nothing else. -/
theorem fire_eq (h : Hook) (q : State) :
    fire h q = { q with
      s := if hookEn q.s.cfg h then q.s else setHookFlag q.s h true
      out := { q.out with hooks := q.out.hooks ++ if hookEn q.s.cfg h then [h] else [] } } := by
  unfold fire
  split <;> simp [State.setOut, State.setS, *]

/-- The master's sample changes the sampled bit and, on RFFE, the environment's supply of samples. -/
theorem masterSample_eq (q : State) :
    ∃ b v, masterSample q = (q.setM { q.m with sampled := b }).setEnv v ∧
      (q.m.cfg.variant = .i2c → b = sdaAtMaster q ∧ v = q.env) := by
  unfold masterSample
  split
  · exact ⟨_, q.env, rfl, fun _ => ⟨rfl, rfl⟩⟩
  · next h => split <;> exact ⟨_, _, rfl, fun h' => by simp [h] at h'⟩

/-- The environment's drive changes the environment and the latches. -/
theorem envDrive_eq (l : Line) (v : Bool) (q : State) :
    ∃ w e, envDrive l v q = (q.setEnv w).setE e ∧ e.tmo = q.e.tmo ∧ e.enabled = q.e.enabled :=
  ⟨_, _, rfl, rfl, rfl⟩

end Sys2Proof.Machine
end

