-- ==== Sys2Proof/Laws/Engine.lean ====
section
/-! SUPPORT. What the master sequencer can do: how an expansion settles, how a command is entered, one step. -/

namespace Sys2Proof.Machine

/-- What settling an expansion may change: `M.acc`, the two sticky flags (never cleared) and the host buffers. -/
def Settled (s t : State) : Prop :=
  ∃ acc a p bufs, t = { s with m := { s.m with acc := acc, ackFail := a, parityErr := p }, bufs := bufs } ∧
    (s.m.ackFail = true → a = true) ∧ (s.m.parityErr = true → p = true)

theorem Settled.refl (s : State) : Settled s s := ⟨_, _, _, _, rfl, id, id⟩

theorem Settled.trans {s t u : State} (h : Settled s t) (k : Settled t u) : Settled s u := by
  obtain ⟨x, a, p, b, rfl, ha, hp⟩ := h
  obtain ⟨x', a', p', b', rfl, ha', hp'⟩ := k
  exact ⟨x', a', p', b', rfl, fun h => ha' (ha h), fun h => hp' (hp h)⟩

/-- Settling is a chain of the actions that take no step. -/
theorem settle_settled (ops : List Op) : ∀ s, Settled s (settle ops s).1 := by
  induction ops with
  | nil => intro s; exact .refl s
  | cons o r ih =>
    intro s
    cases o with
    | micro u => exact .refl s
    | stuckTest => simp only [settle]; split; exacts [ih s, .refl s]
    | orAck =>
      exact .trans ⟨s.m.acc, s.m.ackFail || s.m.sampled, s.m.parityErr, s.bufs, rfl, by simp_all, id⟩ (ih _)
    | shiftAcc => exact .trans ⟨(shiftInAcc s.m).acc, s.m.ackFail, s.m.parityErr, s.bufs, rfl, id, id⟩ (ih _)
    | parityTest =>
      exact .trans ⟨s.m.acc, s.m.ackFail, (testParity s.m).parityErr, s.bufs, rfl, id, by simp_all [testParity]⟩ (ih _)
    | store b i => exact .trans ⟨s.m.acc, s.m.ackFail, s.m.parityErr, _, rfl, id, id⟩ (ih _)
    | txByte v => simp only [settle]; split; exacts [ih s, .refl s]
    | txBytes b i n =>
      cases n with
      | zero => exact ih s
      | succ k => simp only [settle]; split; exacts [ih s, .refl s]
    | rxBytes b i n c m =>
      cases n with
      | zero => exact ih s
      | succ k => exact .refl s
    | rsendBytes b i n =>
      cases n with
      | zero => exact ih s
      | succ k => exact .refl s
    | rreadBytes b i n =>
      cases n with
      | zero => exact ih s
      | succ k => exact .refl s

/-- A settled expansion is exhausted or has a micro-operation next. -/
theorem settle_head (ops : List Op) :
    ∀ s, (settle ops s).2 = [] ∨ ∃ u r, (settle ops s).2 = .micro u :: r := by
  induction ops with
  | nil => intro s; exact .inl rfl
  | cons o r ih =>
    intro s
    cases o with
    | micro u => exact .inr ⟨u, r, rfl⟩
    | stuckTest => simp only [settle]; split; exacts [ih s, .inr ⟨_, _, rfl⟩]
    | orAck => exact ih _
    | shiftAcc => exact ih _
    | parityTest => exact ih _
    | store b i => exact ih _
    | txByte v => simp only [settle]; split; exacts [ih s, .inr ⟨_, _, rfl⟩]
    | txBytes b i n =>
      cases n with
      | zero => exact ih s
      | succ k => simp only [settle]; split; exacts [ih s, .inr ⟨_, _, rfl⟩]
    | rxBytes b i n c m =>
      cases n with
      | zero => exact ih s
      | succ k => exact .inr ⟨_, _, rfl⟩
    | rsendBytes b i n =>
      cases n with
      | zero => exact ih s
      | succ k => exact .inr ⟨_, _, rfl⟩
    | rreadBytes b i n =>
      cases n with
      | zero => exact ih s
      | succ k => exact .inr ⟨_, _, rfl⟩

/-- Going on with an expansion ends the command or leaves a micro-operation next. -/
theorem resume_cases (ops : List Op) (s : State) :
    ∃ t, Settled s t ∧
      (resume ops s = returnStatus (t.setM { t.m with todo := [] }) ∨
        ∃ u r, resume ops s = t.setM { t.m with todo := .micro u :: r }) := by
  refine ⟨(settle ops s).1, settle_settled ops s, ?_⟩
  rcases settle_head ops s with h | ⟨u, r, h⟩
  · exact .inl (by simp [resume, h])
  · exact .inr ⟨u, r, by simp [resume, h]⟩

/-- What an expansion whose first item is a micro-operation resumes to. -/
@[simp] theorem resume_micro (u : Micro) (r : List Op) (s : State) :
    resume (.micro u :: r) s = s.setM { s.m with todo := .micro u :: r } := rfl

/-- An exhausted expansion ends the command. -/
@[simp] theorem resume_nil (s : State) : resume [] s = returnStatus (s.setM { s.m with todo := [] }) := rfl

/-- What going on with an expansion may change: the two sticky flags and `M.acc`, the host buffers, `M.todo`, and at the
end of the command `M.busy` and the status words. -/
theorem resume_eq (ops : List Op) (s : State) :
    ∃ acc a p bufs todo busy st, resume ops s = { s with
      m := { s.m with acc := acc, ackFail := a, parityErr := p, todo := todo, busy := busy }
      bufs := bufs
      out := { s.out with status := st } } ∧
      ((busy = false ∧ todo = [] ∧ st = s.out.status ++ [statusWord (resume ops s).m]) ∨
        (busy = s.m.busy ∧ st = s.out.status ∧ ∃ u r, todo = .micro u :: r)) := by
  obtain ⟨t, ⟨acc, a, p, bufs, rfl, _, _⟩, h | ⟨u, r, h⟩⟩ := resume_cases ops s
  · exact ⟨acc, a, p, bufs, [], false, _, h, .inl ⟨rfl, rfl, by rw [h]; rfl⟩⟩
  · exact ⟨acc, a, p, bufs, .micro u :: r, s.m.busy, s.out.status, h, .inr ⟨rfl, rfl, u, r, rfl⟩⟩

/-- The states a micro-operation reaches before the rest of the expansion goes on. -/
inductive Moved1 (s : State) : State → Prop
  | sda (b : Bool) : Moved1 s (masterSetSda b s)
  | relSda : Moved1 s (masterReleaseSda s)
  | scl (b : Bool) : Moved1 s (masterSetScl b s)
  | get : Moved1 s (masterSample s)
  | wait : Moved1 s s

/-- Everything a step of the master can be. -/
theorem masterStep_cases (s : State) :
    (∃ u rest q, s.m.todo = .micro u :: rest ∧ Moved1 s q ∧ masterStep s = .next (advance rest q)) ∨
    (∃ rest, s.m.todo = .micro .wait :: rest ∧ waitCount s.m ≠ 0 ∧ s.m.strategy = .timer ∧
      ((s.m.waiting = true ∧ s.timer.done = false ∧ masterStep s = .next s) ∨
       (s.m.waiting = false ∧ masterStep s = .next (armTimer (waitCount s.m) (s.setM { s.m with waiting := true }))))) ∨
    (∃ rest, s.m.todo = .micro .wait :: rest ∧ waitCount s.m ≠ 0 ∧ s.m.strategy = .none ∧
      masterStep s = .fault .waitUnconfigured) ∨
    ((∀ u r, s.m.todo ≠ .micro u :: r) ∧ masterStep s = .next (resume s.m.todo s)) := by
  unfold masterStep
  split
  · next u r hu =>
    cases u with
    | sda b => exact .inl ⟨_, r, _, hu, .sda b, rfl⟩
    | relSda => exact .inl ⟨_, r, _, hu, .relSda, rfl⟩
    | scl b => exact .inl ⟨_, r, _, hu, .scl b, rfl⟩
    | get => exact .inl ⟨_, r, _, hu, .get, rfl⟩
    | wait =>
      simp only [microStep]
      unfold waitStep
      split
      · exact .inl ⟨_, r, _, hu, .wait, rfl⟩
      · next hn =>
        split
        · exact .inl ⟨_, r, _, hu, .wait, rfl⟩
        · next hs =>
          split
          · next hw =>
            split
            · exact .inl ⟨_, r, _, hu, .wait, rfl⟩
            · next hd => exact .inr (.inl ⟨r, hu, hn, hs, .inl ⟨hw, by simpa using hd, rfl⟩⟩)
          · next hw => exact .inr (.inl ⟨r, hu, hn, hs, .inr ⟨by simpa using hw, rfl⟩⟩)
        · next hs => exact .inr (.inr (.inl ⟨r, hu, hn, hs, rfl⟩))
  · next hu => exact .inr (.inr (.inr ⟨fun u r h => hu u r h, rfl⟩))

@[simp] theorem accept_m (s : State) : (accept s).m = { s.m with busy := true } := rfl
@[simp] theorem accept_s (s : State) : (accept s).s = s.s := rfl
@[simp] theorem accept_out (s : State) : (accept s).out = s.out := rfl
@[simp] theorem accept_timer (s : State) : (accept s).timer = s.timer := rfl

/-- Every command: not accepted, refused on a halted master, or run. -/
theorem acceptCommand_cases (run : State → State) (s : State) :
    (s.m.busy = true ∧ acceptCommand run s = .next s) ∨
    (s.m.busy = false ∧ s.m.fault = true ∧ acceptCommand run s = .next (returnStatus (accept s))) ∨
    (s.m.busy = false ∧ s.m.fault = false ∧ acceptCommand run s = .next (run (accept s))) := by
  unfold acceptCommand
  split
  · next h => exact .inl ⟨h, rfl⟩
  · next h =>
    have hb : s.m.busy = false := by simpa using h
    split
    · next h1 => exact .inr (.inl ⟨hb, h1, rfl⟩)
    · next h1 => exact .inr (.inr ⟨hb, by simpa using h1, rfl⟩)

/-- A command on a free, unhalted master is run. -/
theorem acceptCommand_runs {run : State → State} {s : State} (h1 : s.m.busy = false) (h2 : s.m.fault = false) :
    acceptCommand run s = .next (run (accept s)) := by
  simp [acceptCommand, h1, h2]

/-- The checks of a bus command: a configuration fault, or run. -/
theorem checkBus_cases (v : Variant) (run : State → State) (s : State) :
    (∃ c, checkBus v run s = raiseMaster c s) ∨
    (s.m.strategy ≠ .none ∧ s.m.cfg.variant = v ∧ checkBus v run s = run s) := by
  unfold checkBus
  split
  · exact .inl ⟨_, rfl⟩
  · next h =>
    split
    · exact .inl ⟨_, rfl⟩
    · next h3 => exact .inr ⟨h, by simpa using h3, rfl⟩

/-- A bus command that passes the entry checks is run. -/
theorem enterBus_accepts {v : Variant} {run : State → State} {s : State} (h1 : s.m.busy = false)
    (h2 : s.m.fault = false) (h3 : s.m.strategy ≠ .none) (h4 : s.m.cfg.variant = v) :
    enterBus v run s = .next (run (accept s)) := by
  simp [enterBus, acceptCommand, checkBus, accept, h1, h2, h3, h4]

end Sys2Proof.Machine
end

