-- ==== Sys2Proof/Laws/Memory.lean ====
section
/-! SUPPORT. The laws of the byte memories: a read after a write, and that a write keeps the canonical form. -/

namespace Sys2Proof.Machine

/-- Below a rising list nothing is listed. -/
theorem read_of_wfAbove (m : Memory) : ∀ {a c : Nat}, wfAbove c m = true → a ≤ c → m.read a = Config.unwritten := by
  induction m with
  | nil => intro a c _ _; rfl
  | cons h r ih =>
    obtain ⟨b, v⟩ := h
    intro a c hw hle
    simp only [wfAbove, Bool.and_eq_true, decide_eq_true_eq] at hw
    have hb : b ≠ a := by omega
    simp only [Memory.read, hb, if_false]
    exact ih hw.2 (by omega)

/-- Rising above `c` is rising above anything lower. -/
theorem wfAbove_mono {m : Memory} {c d : Nat} (h : wfAbove c m = true) (hd : d ≤ c) : wfAbove d m = true := by
  cases m with
  | nil => rfl
  | cons x r =>
    obtain ⟨b, v⟩ := x
    simp only [wfAbove, Bool.and_eq_true, decide_eq_true_eq] at h ⊢
    exact ⟨⟨by omega, h.1.2⟩, h.2⟩

/-- A write above `c` keeps the list rising above `c`. -/
theorem write_wfAbove {m : Memory} {a : Nat} {v : Byte} :
    ∀ {c : Nat}, wfAbove c m = true → c < a → wfAbove c (m.write a v) = true := by
  induction m with
  | nil => intro c _ hc; by_cases hv : v = Config.unwritten <;> simp [Memory.write, wfAbove, hv, hc]
  | cons h r ih =>
    obtain ⟨b, w⟩ := h
    intro c hw hc
    simp only [wfAbove, Bool.and_eq_true, decide_eq_true_eq] at hw
    obtain ⟨⟨hcb, hwv⟩, hr⟩ := hw
    by_cases hab : a < b
    · by_cases hv : v = Config.unwritten <;> simp [Memory.write, wfAbove, hv, hab, hc, hcb, hwv, hr]
    · by_cases heq : a = b
      · subst heq
        by_cases hv : v = Config.unwritten
        · simpa [Memory.write, hv] using wfAbove_mono hr (by omega)
        · simp [Memory.write, wfAbove, hv, hc, hr]
      · simp [Memory.write, wfAbove, hab, heq, hcb, hwv, ih hr (by omega)]

/-- Every write keeps the canonical form. -/
theorem write_wf {m : Memory} {a : Nat} {v : Byte} (hm : m.wf = true) : (m.write a v).wf = true := by
  cases m with
  | nil => by_cases hv : v = Config.unwritten <;> simp [Memory.write, Memory.wf, wfAbove, hv]
  | cons h r =>
    obtain ⟨b, w⟩ := h
    simp only [Memory.wf, Bool.and_eq_true, decide_eq_true_eq] at hm
    by_cases hab : a < b
    · by_cases hv : v = Config.unwritten <;> simp [Memory.write, Memory.wf, wfAbove, hv, hab, hm]
    · by_cases heq : a = b
      · subst heq
        by_cases hv : v = Config.unwritten
        · cases r with
          | nil => simp [Memory.write, hv, Memory.wf]
          | cons x r' =>
            obtain ⟨b', w'⟩ := x
            simp only [wfAbove, Bool.and_eq_true, decide_eq_true_eq] at hm
            simp [Memory.write, hv, Memory.wf, hm]
        · simp [Memory.write, Memory.wf, hv, hm]
      · simp [Memory.write, Memory.wf, hab, heq, hm.1, write_wfAbove hm.2 (show b < a by omega)]

/-- In a canonical memory a read after a write gives the written byte there and the old one elsewhere. -/
theorem read_write {m : Memory} {a : Nat} {v : Byte} (hm : m.wf = true) (c : Nat) :
    (m.write a v).read c = if c = a then v else m.read c := by
  suffices H : ∀ (m : Memory), (∃ d, wfAbove d m = true) ∨ m.wf = true →
      (m.write a v).read c = if c = a then v else m.read c from H m (.inr hm)
  clear hm m
  intro m
  induction m with
  | nil =>
    intro _
    by_cases hv : v = Config.unwritten <;> by_cases hc : c = a <;>
      simp [Memory.write, Memory.read, hv, hc, eq_comm]
    intro h; exact absurd h.symm hc
  | cons h r ih =>
    obtain ⟨b, w⟩ := h
    intro hw
    have hr : wfAbove b r = true := by
      rcases hw with ⟨d, hd⟩ | hd
      · simp only [wfAbove, Bool.and_eq_true] at hd; exact hd.2
      · simp only [Memory.wf, Bool.and_eq_true] at hd; exact hd.2
    have hih := ih (.inl ⟨b, hr⟩)
    by_cases hab : a < b
    · have hba : b ≠ a := by omega
      have hnone : Memory.read r a = Config.unwritten := read_of_wfAbove r hr (by omega)
      by_cases hv : v = Config.unwritten
      · by_cases hc : c = a
        · subst hc; simp [Memory.write, Memory.read, hab, hv, hba, hnone]
        · simp [Memory.write, hab, hv, hc]
      · by_cases hc : c = a
        · subst hc; simp [Memory.write, Memory.read, hab, hv]
        · have hac : a ≠ c := fun h => hc h.symm
          simp [Memory.write, Memory.read, hab, hv, hc, hac]
    · by_cases heq : a = b
      · subst heq
        by_cases hv : v = Config.unwritten
        · by_cases hc : c = a
          · subst hc; simp [Memory.write, hv, read_of_wfAbove r hr (Nat.le_refl c)]
          · have hac : a ≠ c := fun h => hc h.symm
            simp [Memory.write, Memory.read, hv, hc, hac]
        · by_cases hc : c = a
          · subst hc; simp [Memory.write, Memory.read, hv]
          · have hac : a ≠ c := fun h => hc h.symm
            simp [Memory.write, Memory.read, hv, hc, hac]
      · by_cases hbc : b = c
        · subst hbc
          have hca : b ≠ a := fun h => heq h.symm
          simp [Memory.write, Memory.read, hab, heq, hca]
        · simp [Memory.write, Memory.read, hab, heq, hbc, hih]

/-- The slave's write, where its index exists, changes the backing memory alone. -/
theorem writeMem_ok {s t : State} {i : Nat} {v : Byte} (h : writeMem s i v = .ok t) :
    i < s.s.cfg.memSize ∧ t = s.setMem (s.mem.write i v) := by
  unfold writeMem at h
  split at h
  · next hi => cases h; exact ⟨hi, rfl⟩
  · cases h

/-- The slave's read, where its index exists, is the byte listed there. -/
theorem readMem_ok {s : State} {i : Nat} {v : Byte} (h : readMem s i = .ok v) :
    i < s.s.cfg.memSize ∧ v = s.mem.read i := by
  unfold readMem at h
  split at h
  · next hi => cases h; exact ⟨hi, rfl⟩
  · cases h

/-- An index below MEM_SIZE is read. -/
theorem readMem_lt {s : State} {i : Nat} (h : i < s.s.cfg.memSize) : readMem s i = .ok (s.mem.read i) := by
  simp [readMem, h]

/-- An index below MEM_SIZE is written. -/
theorem writeMem_lt {s : State} {i : Nat} {v : Byte} (h : i < s.s.cfg.memSize) :
    writeMem s i v = .ok (s.setMem (s.mem.write i v)) := by
  simp [writeMem, h]

end Sys2Proof.Machine
end

