-- ==== Sys2Proof/Laws/Fsm.lean ====
section
/-! SUPPORT. What a state function, the dispatcher and the spy can do. -/

namespace Sys2Proof.Machine

@[simp] theorem stateOfCode_stateCode (x : StateName) : stateOfCode (stateCode x) = some x := by cases x <;> rfl

@[simp] theorem symbolOfCode_symbolCode (y : Symbol) : symbolOfCode (symbolCode y) = some y := by cases y <;> rfl

/-- An accepted stored index is the code of its state, which is no pass-through state. -/
theorem storedState_some {c : BitVec 5} {x : StateName} (h : storedState c = some x) :
    c = stateCode x ∧ passThrough x = false := by
  revert h
  revert c
  cases x <;> decide

/-- The code of a state that is no pass-through state is accepted. -/
theorem storedState_stateCode {x : StateName} (h : passThrough x = false) : storedState (stateCode x) = some x := by
  cases x <;> first | rfl | (exact absurd h (by decide))

/-- A state function that stays in a stored state ends the invocation there. -/
theorem runState_stays {x z : StateName} {y : Symbol} {s t : State} (h : stateFn x y s = .ok (t, z))
    (hz : passThrough z = false) : runState x y s = .ok (t.setS { t.s with state := stateCode z }) := by
  simp [runState, h, passOn, hz]

/-- A state function that answers Idle ends in WaitForStart after Idle's actions. -/
theorem runState_idle {x : StateName} {y : Symbol} {s t : State} (h : stateFn x y s = .ok (t, .idle)) :
    runState x y s =
      .ok ((idleFn y t).1.setS { (idleFn y t).1.s with state := stateCode .waitForStart }) := by
  unfold runState; rw [h]; rfl

/-- A state function that answers StartBitReceived ends in ReceiveAddress after its actions. -/
theorem runState_startBit {x : StateName} {y : Symbol} {s t : State} (h : stateFn x y s = .ok (t, .startBitReceived)) :
    runState x y s =
      .ok ((startBitFn t).1.setS { (startBitFn t).1.s with state := stateCode .receiveAddress }) := by
  unfold runState; rw [h]; rfl

/-- The fields a slave step never changes: `s` and `t` agree on the master, the environment, the collaborators, the
host buffers, the status words, what the host received, and the outside (60_exceptions.md R241). -/
def SameOutside (s t : State) : Prop :=
  t.m = s.m ∧ t.env = s.env ∧ t.timer = s.timer ∧ t.ct = s.ct ∧ t.bufs = s.bufs ∧ t.out.status = s.out.status ∧
    t.out.received = s.out.received ∧ t.inputs = s.inputs ∧ t.turns = s.turns ∧ t.shared = s.shared ∧
    t.s.cfg = s.s.cfg ∧ t.s.pinsOk = s.s.pinsOk ∧ t.e.tmo = s.e.tmo ∧ t.e.enabled = s.e.enabled

theorem SameOutside.refl (s : State) : SameOutside s s := by simp [SameOutside]

theorem SameOutside.trans {s t u : State} (h : SameOutside s t) (k : SameOutside t u) : SameOutside s u := by
  obtain ⟨a1, a2, a3, a4, a5, a6, a7, a8, a9, a10, a11, a12, a13, a14⟩ := h
  obtain ⟨b1, b2, b3, b4, b5, b6, b7, b8, b9, b10, b11, b12, b13, b14⟩ := k
  exact ⟨b1.trans a1, b2.trans a2, b3.trans a3, b4.trans a4, b5.trans a5, b6.trans a6, b7.trans a7, b8.trans a8,
    b9.trans a9, b10.trans a10, b11.trans a11, b12.trans a12, b13.trans a13, b14.trans a14⟩

/-- Another slave context of the same instance leaves the outside as it was. -/
theorem SameOutside.setS {s : State} {x : Slave} (h : x.cfg = s.s.cfg) (k : x.pinsOk = s.s.pinsOk) :
    SameOutside s (s.setS x) := by simp [SameOutside, h, k]

theorem SameOutside.release (s : State) : SameOutside s (slaveReleaseSda s) := by simp [SameOutside]

theorem SameOutside.drive (b : Bool) (s : State) : SameOutside s (slaveSetSda b s) := by simp [SameOutside]

theorem SameOutside.setMem (s : State) (m : Memory) : SameOutside s (s.setMem m) := by simp [SameOutside]

theorem SameOutside.fire (h : Hook) (s : State) : SameOutside s (fire h s) := by
  unfold Machine.fire
  split
  · simp [SameOutside]
  · cases h <;> exact .setS rfl rfl

theorem SameOutside.emit (text : List Char) (s : State) : SameOutside s (emit text s) := by simp [SameOutside]

/-- A slave context that differs from `x` at most in what a state function may write by hand: its position, its
registers, its two sticky flags and its bus-busy flag. -/
def Slave.Near (x y : Slave) : Prop :=
  y = { x with state := y.state, sr := y.sr, mask := y.mask, ackPhase := y.ackPhase, decodedAddr := y.decodedAddr,
               cursor := y.cursor, initCursor := y.initCursor, memWritten := y.memWritten, memRead := y.memRead,
               busBusy := y.busBusy }

theorem accum_near (b : Bool) (x : Slave) : x.Near (accum b x) := by
  unfold accum
  split <;> rfl

/-- Staging a byte: the byte at the cursor, which must exist. -/
theorem stageByte_ok {s t : State} (h : stageByte s = .ok t) :
    s.s.cursor < s.s.cfg.memSize ∧
      t = slaveSetSda ((s.mem.read s.s.cursor).getLsbD 7) (s.setS { s.s with sr := s.mem.read s.s.cursor }) := by
  unfold stageByte at h
  split at h
  · next v hv =>
    obtain ⟨h1, rfl⟩ := readMem_ok hv
    cases h
    exact ⟨h1, rfl⟩
  · cases h

/-- Everything a state function does is a chain of seven kinds of change, so what they all respect it respects. -/
structure Respected (R : State → State → Prop) : Prop where
  refl : ∀ s, R s s
  trans : ∀ {s t u}, R s t → R t u → R s u
  near : ∀ s x, s.s.Near x → R s (s.setS x)
  release : ∀ s, R s (slaveReleaseSda s)
  drive : ∀ b s, R s (slaveSetSda b s)
  fire : ∀ h s, R s (fire h s)
  write : ∀ (s : State) a v, R s (s.setMem (s.mem.write a v))

/-- Idle respects what its parts respect. -/
theorem idleFn_respects {R : State → State → Prop} (hR : Respected R) (y : Symbol) (s : State) : R s (idleFn y s).1 := by
  unfold idleFn
  refine hR.trans (hR.release s) ?_
  generalize slaveReleaseSda s = a
  dsimp only
  have h1 : R a (if y = .stop then fire .busFree a else a) := by
    split
    · exact hR.fire _ _
    · exact hR.refl _
  refine hR.trans h1 ?_
  generalize (if y = .stop then fire .busFree a else a) = b
  have h2 : R b (if b.s.memWritten then
      (fire .writeDone b).setS { (fire .writeDone b).s with memWritten := false } else b) := by
    split
    · exact hR.trans (hR.fire .writeDone b) (hR.near _ _ (by rfl))
    · exact hR.refl _
  refine hR.trans h2 ?_
  generalize (if b.s.memWritten then
      (fire .writeDone b).setS { (fire .writeDone b).s with memWritten := false } else b) = c
  have h3 : R c (if c.s.memRead then
      (fire .readDone c).setS { (fire .readDone c).s with memRead := false } else c) := by
    split
    · exact hR.trans (hR.fire .readDone c) (hR.near _ _ (by rfl))
    · exact hR.refl _
  refine hR.trans h3 ?_
  generalize (if c.s.memRead then
      (fire .readDone c).setS { (fire .readDone c).s with memRead := false } else c) = d
  split
  · exact hR.near _ _ (by rfl)
  · exact hR.refl _

/-- A state function respects what its parts respect. -/
theorem stateFn_respects {R : State → State → Prop} (hR : Respected R) {x z : StateName} {y : Symbol} {s t : State}
    (h : stateFn x y s = .ok (t, z)) : R s t := by
  have hack : ∀ (here : StateName) (commit : State → Moved),
      (∀ u v, commit u = .ok v → R u v.1) → ackEdge here commit s = .ok (t, z) → R s t := by
    intro here commit hc hk
    unfold ackEdge at hk
    split at hk
    · cases hk; exact hR.refl _
    · split at hk
      · cases hk; exact hR.trans (hR.drive false s) (hR.near _ _ (by rfl))
      · exact hR.trans (hR.near _ _ (by rfl)) (hc _ _ hk)
  have hcommon : ∀ (here : StateName) (rise : Bool → State → Moved) (fall : State → Moved),
      (∀ b, rise b s = .ok (t, z) → R s t) → (fall s = .ok (t, z) → R s t) →
      commonFn here rise fall y s = .ok (t, z) → R s t := by
    intro here rise fall hr hf hk
    cases y <;> simp only [commonFn] at hk
    · cases hk; exact hR.refl _
    · cases hk; exact hR.near _ _ (by rfl)
    · cases hk; exact hR.refl _
    · cases hk; exact hR.refl _
    · cases hk; exact hR.refl _
    · exact hr _ hk
    · exact hr _ hk
    · exact hf hk
    · exact hf hk
  cases x <;> simp only [stateFn] at h
  · simp only [Except.ok.injEq] at h
    have : t = (idleFn y s).1 := by rw [h]
    rw [this]; exact idleFn_respects hR y s
  · have h1 := hR.refl s
    have h2 : R s (busFreed s) := hR.near _ _ (by rfl)
    cases y <;> simp only [waitForStartFn, Except.ok.injEq, Prod.mk.injEq] at h <;> obtain ⟨rfl, _⟩ := h <;> assumption
  · simp only [startBitFn, Except.ok.injEq, Prod.mk.injEq] at h
    obtain ⟨rfl, _⟩ := h
    exact hR.near _ _ (by rfl)
  · refine hcommon _ _ _ ?_ (hack _ _ ?_) h
    · intro b hb
      unfold addressRise at hb
      dsimp only at hb
      split at hb
      · split at hb <;> cases hb
        · exact hR.trans (hR.near _ _ (accum_near b s.s)) (hR.near _ _ (by rfl))
        · exact hR.near _ _ (accum_near b s.s)
      · cases hb; exact hR.near _ _ (accum_near b s.s)
    · intro u v hv
      unfold addressCommit at hv
      split at hv
      · cases hv; exact hR.trans (hR.release u) (hR.near _ _ (by rfl))
      · split at hv
        · next w hw =>
          cases hv
          obtain ⟨_, rfl⟩ := stageByte_ok hw
          exact hR.trans (hR.near _ _ (by rfl)) (hR.drive _ _)
        · cases hv
  · refine hcommon _ _ _ ?_ (hack _ _ ?_) h
    · intro b hb
      simp only [Except.ok.injEq, Prod.mk.injEq] at hb
      obtain ⟨rfl, _⟩ := hb
      exact hR.near _ _ (accum_near b s.s)
    · intro u v hv
      unfold subAddressCommit at hv
      split at hv
      · cases hv; exact hR.trans (hR.release u) (hR.near _ _ (by rfl))
      · cases hv
  · refine hcommon _ _ _ ?_ (hack _ _ ?_) h
    · intro b hb
      simp only [Except.ok.injEq, Prod.mk.injEq] at hb
      obtain ⟨rfl, _⟩ := hb
      exact hR.near _ _ (accum_near b s.s)
    · intro u v hv
      unfold dataCommit at hv
      split at hv
      · next w hw =>
        cases hv
        obtain ⟨_, rfl⟩ := writeMem_ok hw
        exact hR.trans (hR.release u) (hR.trans (hR.write _ _ _) (hR.near _ _ (by rfl)))
      · cases hv
  · refine hcommon _ _ _ ?_ ?_ h
    · intro b hb
      unfold transmitRise at hb
      split at hb
      · split at hb <;> cases hb
        · exact hR.refl _
        · exact hR.near _ _ (by rfl)
      · split at hb <;> cases hb
        · exact hR.near _ _ (by rfl)
        · exact hR.refl _
    · intro hb
      unfold transmitFall at hb
      split at hb
      · cases hb; exact hR.drive _ _
      · split at hb
        · cases hb; exact hR.trans (hR.release s) (hR.near _ _ (by rfl))
        · split at hb
          · next w hw =>
            cases hb
            obtain ⟨_, rfl⟩ := stageByte_ok hw
            exact hR.trans (hR.near _ _ (by rfl)) (hR.trans (hR.near _ _ (by rfl)) (hR.drive _ _))
          · cases hb

/-- An invocation's state function and pass-through respect what their parts respect. -/
theorem runState_respects {R : State → State → Prop} (hR : Respected R) {x : StateName} {y : Symbol} {s t : State}
    (h : runState x y s = .ok t) : R s t := by
  cases hr : stateFn x y s with
  | error e => simp [runState, hr] at h
  | ok r =>
    obtain ⟨u, z⟩ := r
    refine hR.trans (stateFn_respects hR hr) ?_
    cases hz : passThrough z
    · rw [runState_stays hr hz] at h
      cases h
      exact hR.near _ _ (by rfl)
    · cases z <;> simp [passThrough] at hz
      · rw [runState_idle hr] at h
        cases h
        exact hR.trans (idleFn_respects hR y u) (hR.near _ _ (by rfl))
      · rw [runState_startBit hr] at h
        cases h
        exact hR.trans (hR.near u (startBitFn u).1.s rfl) (hR.near _ _ (by rfl))

/-- The slave's own actions leave the outside as it was. -/
theorem sameOutside_respected : Respected SameOutside where
  refl := .refl
  trans := .trans
  near s x h := .setS (by rw [h]) (by rw [h])
  release := .release
  drive := .drive
  fire := .fire
  write s a v := .setMem s _

/-- An invocation's state function and pass-through leave the outside as it was. -/
theorem runState_outside {x : StateName} {y : Symbol} {s t : State} (h : runState x y s = .ok t) : SameOutside s t :=
  runState_respects sameOutside_respected h

/-- The acknowledge edge stops only where its commit stops. -/
theorem ackEdge_error {here : StateName} {commit : State → Moved} {s : State} {e : Fault}
    (h : ackEdge here commit s = .error e) : commit (s.setS { s.s with ackPhase := false, mask := 0x80#8 }) = .error e := by
  unfold ackEdge at h
  split at h
  · cases h
  · split at h
    · cases h
    · exact h

/-- The common handling stops only where the state's own edges stop. -/
theorem commonFn_error {here : StateName} {rise : Bool → State → Moved} {fall : State → Moved} {y : Symbol} {s : State}
    {e : Fault} (h : commonFn here rise fall y s = .error e) : (∃ b, rise b s = .error e) ∨ fall s = .error e := by
  cases y <;> simp only [commonFn] at h <;> first | exact .inl ⟨_, h⟩ | exact .inr h | cases h

/-- A state function stops only outside the memory. -/
theorem stateFn_error {x : StateName} {y : Symbol} {s : State} {e : Fault} (h : stateFn x y s = .error e) :
    e = .memIndex ∧ (s.s.cfg.memSize ≤ s.s.cursor ∨ s.s.cfg.memSize = 0) := by
  have hst : ∀ u : State, stageByte u = .error e → e = .memIndex ∧ u.s.cfg.memSize ≤ u.s.cursor := by
    intro u hu
    unfold stageByte readMem at hu
    split at hu
    · cases hu
    · next k =>
      split at k
      · cases k
      · next hlt => cases k; cases hu; exact ⟨rfl, by omega⟩
  cases x <;> simp only [stateFn] at h
  · cases h
  · cases h
  · cases h
  · rcases commonFn_error h with ⟨b, k⟩ | k
    · unfold addressRise at k
      dsimp only at k
      split at k
      · split at k <;> cases k
      · cases k
    · have k := ackEdge_error k
      unfold addressCommit at k
      split at k
      · cases k
      · split at k
        · cases k
        · next hu => cases k; exact (hst _ hu).imp id .inl
  · rcases commonFn_error h with ⟨b, k⟩ | k
    · cases k
    · have k := ackEdge_error k
      unfold subAddressCommit reduceIndex at k
      split at k
      · cases k
      · next hu =>
        split at hu
        · next h0 => cases hu; cases k; exact ⟨rfl, .inr h0⟩
        · cases hu
  · rcases commonFn_error h with ⟨b, k⟩ | k
    · cases k
    · have k := ackEdge_error k
      unfold dataCommit writeMem at k
      split at k
      · cases k
      · next hu =>
        split at hu
        · cases hu
        · next hlt => cases hu; cases k; exact ⟨rfl, .inl (by simpa using hlt)⟩
  · rcases commonFn_error h with ⟨b, k⟩ | k
    · unfold transmitRise at k
      split at k
      · split at k <;> cases k
      · split at k <;> cases k
    · unfold transmitFall at k
      split at k
      · cases k
      · split at k
        · cases k
        · split at k
          · cases k
          · next hu =>
            cases k
            obtain ⟨h1, h2⟩ := hst _ hu
            refine ⟨h1, .inr ?_⟩
            simp only [setS_s, nextCursor] at h2
            rcases Nat.eq_zero_or_pos s.s.cfg.memSize with h0 | h0
            · exact h0
            · exact absurd (Nat.mod_lt (s.s.cursor + 1) h0) (by omega)

/-- A state function and its pass-through stop only outside the memory. -/
theorem runState_error {x : StateName} {y : Symbol} {s : State} {e : Fault} (h : runState x y s = .error e) :
    e = .memIndex ∧ (s.s.cfg.memSize ≤ s.s.cursor ∨ s.s.cfg.memSize = 0) := by
  cases hr : stateFn x y s with
  | error f =>
    have : f = e := by simpa [runState, hr] using h
    exact this ▸ stateFn_error hr
  | ok r =>
    exfalso
    obtain ⟨t, z⟩ := r
    cases hz : passThrough z
    · rw [runState_stays hr hz] at h; cases h
    · cases z <;> simp [passThrough] at hz
      · rw [runState_idle hr] at h; cases h
      · rw [runState_startBit hr] at h; cases h

/-- With a memory and a cursor inside it, every state function completes. -/
theorem runState_completes (x : StateName) (y : Symbol) {s : State} (hc : s.s.cursor < s.s.cfg.memSize) :
    ∃ t, runState x y s = .ok t := by
  cases h : runState x y s with
  | ok t => exact ⟨t, rfl⟩
  | error e => exact absurd (runState_error h).2 (by omega)

/-- The spy changes its two counters and its stream, nothing else (45_bus_spy.md R210). -/
theorem spyStep_eq (y : Symbol) (s : State) :
    ∃ c n text, spyStep y s = emit text (setSpy c n s) := by
  have hid : s = emit [] (setSpy s.s.spyCount s.s.spyNibble s) := by simp [emit, setSpy, State.setOut, State.setS]
  have hr : ∀ b, ∃ c n text, spyRise b s = emit text (setSpy c n s) := by
    intro b
    unfold spyRise
    dsimp only
    split
    · split
      · exact ⟨_, _, _, rfl⟩
      · exact ⟨s.s.spyCount + 1#4, (s.s.spyNibble <<< 1) ||| (BitVec.ofBool b).setWidth 4, [],
          by simp [emit, setSpy, State.setOut, State.setS]⟩
    · exact ⟨_, _, _, rfl⟩
  cases y <;> simp only [spyStep]
  · exact ⟨_, _, _, rfl⟩
  · exact ⟨_, _, _, rfl⟩
  · refine ⟨s.s.spyCount, s.s.spyNibble, ['?'], rfl⟩
  · exact ⟨_, _, _, hid⟩
  · exact ⟨_, _, _, hid⟩
  · exact hr _
  · exact hr _
  · exact ⟨_, _, _, hid⟩
  · exact ⟨_, _, _, hid⟩

/-- What consuming a symbol can do: nothing on a halted slave, the fault of R170, the state function and then the spy,
or a stop at a missing index. -/
theorem consume_cases (y : Symbol) (s : State) :
    (s.s.fault = true ∧ consume y s = .next s) ∨
    (s.s.fault = false ∧ storedState s.s.state = none ∧ consume y s = .next (raiseSlave .badState s)) ∨
    (∃ x t, s.s.fault = false ∧ storedState s.s.state = some x ∧
      runState x y (s.setS { s.s with sym := y }) = .ok t ∧ consume y s = .next (spyIfEnabled y t)) ∨
    (∃ x e, s.s.fault = false ∧ storedState s.s.state = some x ∧
      runState x y (s.setS { s.s with sym := y }) = .error e ∧ consume y s = .fault e) := by
  unfold consume
  split
  · next h => exact .inl ⟨h, rfl⟩
  · next h =>
    have hf : s.s.fault = false := by simpa using h
    split
    · next hn => exact .inr (.inl ⟨hf, hn, rfl⟩)
    · next x hx =>
      split
      · next t ht => exact .inr (.inr (.inl ⟨x, t, hf, hx, ht, rfl⟩))
      · next e he => exact .inr (.inr (.inr ⟨x, e, hf, hx, he, rfl⟩))

end Sys2Proof.Machine
end

