-- ==== Sys2Proof/Laws/Exec.lean ====
section
/-! SUPPORT. What exec does with each kind of row, in terms of the shared operations. -/

namespace Sys2Proof.Machine

/-- A symbol row consumes its symbol. -/
@[simp] theorem exec_symbolInstr (y : Symbol) (s : State) : exec (symbolInstr y) s = consume y s := by cases y <;> rfl

/-- A state row runs its state function. -/
@[simp] theorem exec_stateInstr (x : StateName) (s : State) : exec (stateInstr x) s = execState x s := by
  cases x <;> rfl

/-- Whatever row is coded as the snapshot `c` classifies and consumes it (30_encoding.md R61, 43_classifier.md R152). -/
theorem exec_of_encode_snap {i : Instr} {c : BitVec 4} (h : encode i = .snap c) (s : State) :
    exec i s = consume (classify c) s := by
  cases i <;> cases h <;> rfl

/-- A snapshot row classifies and consumes. -/
@[simp] theorem exec_snapInstr (c : BitVec 4) (s : State) : exec (snapInstr c) s = consume (classify c) s :=
  exec_of_encode_snap ((by decide : ∀ c : BitVec 4, encode (snapInstr c) = .snap c) c) s

/-- Consuming in a stored state runs its function and then the spy. -/
theorem consume_stored {x : StateName} {y : Symbol} {s t : State} (hf : s.s.fault = false)
    (hx : storedState s.s.state = some x) (ht : runState x y (s.setS { s.s with sym := y }) = .ok t) :
    consume y s = .next (spyIfEnabled y t) := by
  unfold consume
  rw [if_neg (by simp [hf]), hx]
  simp only [ht]

/-- The spy leaves the outside, the pins, the memory and every other field as they were. -/
theorem spyIfEnabled_eq (y : Symbol) (s : State) :
    ∃ c n text, spyIfEnabled y s = emit text (setSpy c n s) := by
  unfold spyIfEnabled
  split
  · exact spyStep_eq y s
  · exact ⟨s.s.spyCount, s.s.spyNibble, [], by simp [emit, setSpy, State.setOut, State.setS]⟩

/-- The spy's counters are not the outside. -/
theorem SameOutside.setSpy (c n : BitVec 4) (s : State) : SameOutside s (setSpy c n s) := .setS rfl rfl

/-- Consuming a symbol never refuses, and leaves the outside as it was. -/
theorem consume_outside {y : Symbol} {s t : State} (h : consume y s = .next t) : SameOutside s t := by
  rcases consume_cases y s with ⟨_, k⟩ | ⟨_, _, k⟩ | ⟨x, u, _, _, hu, k⟩ | ⟨x, e, _, _, _, k⟩ <;> rw [k] at h
  · cases h; exact .refl _
  · cases h; exact .setS rfl rfl
  · cases h
    obtain ⟨c, n, text, hs⟩ := spyIfEnabled_eq y u
    rw [hs]
    have h1 : SameOutside s (s.setS { s.s with sym := y }) := .setS rfl rfl
    have h2 : SameOutside u (setSpy c n u) := SameOutside.setSpy c n u
    exact (h1.trans (runState_outside hu)).trans (h2.trans (SameOutside.emit text _))
  · cases h

/-- A stored parameter is 0 only for a parameter of 0 (40_delay_engine.md R95). -/
theorem storedWaitParam_ne_zero {n : Nat} (h : n ≠ 0) : storedWaitParam n ≠ 0#32 := by
  intro k
  unfold storedWaitParam at k
  split at k
  · next hlt =>
    have := congrArg BitVec.toNat k
    simp only [BitVec.toNat_ofNat, Nat.mod_eq_of_lt hlt] at this
    exact h this
  · split at k
    · cases k
    · next g => exact g k

/-- What a command accepted by a free, unhalted master does: a configuration fault, CFG's register writes, or the start of
an expansion on a master that keeps its pins and its configuration. -/
inductive CommandRan (s : State) : State → Prop
  | raised (c : ConfigFault) : CommandRan s (raiseMaster c s)
  | configured (r : Word) (tl th : BitVec 16) (st : Strategy) (p : Word) (h : st ≠ .none → p ≠ 0#32) :
    CommandRan s (returnStatus (configure r tl th st p s))
  | unclocked (r : Word) (tl th : BitVec 16) (c : ClockTree) :
    CommandRan s (returnStatus ((configure r tl th .none 0#32 s).setCt c))
  | began (ops : List Op) (a p : Bool) (d : Byte) (h : s.m.strategy ≠ .none) :
    CommandRan s (beginCommand ops (s.setM { s.m with ackFail := a, parityErr := p, addr := d }))

/-- What CFG does. -/
theorem runCfg_ran (bps : Word) (tl th : BitVec 16) (s : State) : CommandRan s (runCfg bps tl th s) := by
  unfold runCfg
  split
  · exact .raised _
  split
  · exact .raised _
  split
  · exact .raised _
  unfold chooseStrategy
  split
  · next h => exact .configured _ _ _ _ _ fun _ => storedWaitParam_ne_zero h
  split
  · split
    · exact .raised _
    · next h => exact .configured _ _ _ _ _ fun _ => storedWaitParam_ne_zero h
  · exact .unclocked _ _ _ _

/-- What a bus command does. -/
theorem checkBus_ran {v : Variant} {run : State → State} {s : State} (h : s.m.strategy ≠ .none → CommandRan s (run s)) :
    CommandRan s (checkBus v run s) := by
  rcases checkBus_cases v run s with ⟨c, k⟩ | ⟨hs, _, k⟩ <;> rw [k]
  · exact .raised c
  · exact h hs

/-- Every command placed by the host: what a free, unhalted master does with it. -/
theorem issueCommand_ran (p0 p1 p2 p3 : Word) (s : State) :
    ∃ run, issueCommand p0 p1 p2 p3 s = acceptCommand run s ∧ ∀ t : State, CommandRan t (run t) := by
  unfold issueCommand
  split
  · next i hi =>
    unfold decodeCmd at hi
    split at hi <;> cases hi <;> simp only [exec]
    · exact ⟨_, rfl, fun t => runCfg_ran _ _ _ t⟩
    · exact ⟨_, rfl, fun t => checkBus_ran fun h => .began _ false t.m.parityErr _ h⟩
    · exact ⟨_, rfl, fun t => checkBus_ran fun h => .began _ t.m.ackFail t.m.parityErr t.m.addr h⟩
    · exact ⟨_, rfl, fun t => checkBus_ran fun h => .began _ t.m.ackFail t.m.parityErr t.m.addr h⟩
    · exact ⟨_, rfl, fun t => checkBus_ran fun h => .began _ t.m.ackFail false t.m.addr h⟩
    · refine ⟨_, rfl, fun t => checkBus_ran fun h => ?_⟩
      split
      · exact .raised _
      split
      · exact .raised _
      split
      · exact .raised _
      · exact .began _ t.m.ackFail t.m.parityErr t.m.addr h
    · exact ⟨_, rfl, fun t => checkBus_ran fun h => .began _ t.m.ackFail t.m.parityErr t.m.addr h⟩
  · exact ⟨_, rfl, fun t => .raised _⟩

/-- Everything a command placed by the host can be: not accepted, refused on a halted master, or run. -/
theorem issueCommand_cases (p0 p1 p2 p3 : Word) (s : State) :
    (s.m.busy = true ∧ issueCommand p0 p1 p2 p3 s = .next s) ∨
    (s.m.busy = false ∧ s.m.fault = true ∧ issueCommand p0 p1 p2 p3 s = .next (returnStatus (accept s))) ∨
    (s.m.busy = false ∧ s.m.fault = false ∧ ∃ t, CommandRan (accept s) t ∧ issueCommand p0 p1 p2 p3 s = .next t) := by
  obtain ⟨run, h, hr⟩ := issueCommand_ran p0 p1 p2 p3 s
  rw [h]
  rcases acceptCommand_cases run s with k | k | ⟨h1, h2, k⟩
  · exact .inl k
  · exact .inr (.inl k)
  · exact .inr (.inr ⟨h1, h2, _, hr _, k⟩)

end Sys2Proof.Machine
end

