-- ==== Sys2Proof/Laws/PerInstr.lean ====
section
/-! SUPPORT. Statements about every instruction as syntax, one lemma per constructor: the words the encoder gives are
words of an instruction (30_encoding.md R74). -/

namespace Sys2Proof.Laws.EncodeWf

open Sys2Proof

/-- The encoder never gives a reserved code. -/
def Statement (i : Instr) : Prop := (encode i).wf = true

theorem cfg (bps : Word) (tl th : BitVec 16) : Statement (.cfg bps tl th) := by
  simp [Statement, encode, Coded.wf, opcodes]

theorem start (addr8 : Byte) : Statement (.start addr8) := by
  simp [Statement, encode, Coded.wf, opcodes]

theorem move (buf count : Word) (more : Bool) : Statement (.move buf count more) := by
  simp [Statement, encode, Coded.wf, opcodes]

theorem stop : Statement .stop := rfl

theorem rstart (cmd12 : BitVec 12) : Statement (.rstart cmd12) := by
  simp [Statement, encode, Coded.wf, opcodes]

theorem rmove (txbuf rxbuf count : Word) : Statement (.rmove txbuf rxbuf count) := by
  simp [Statement, encode, Coded.wf, opcodes]

theorem rpark : Statement .rpark := rfl

theorem symStart : Statement .symStart := rfl

theorem symStop : Statement .symStop := rfl

theorem symError : Statement .symError := rfl

theorem symTimeout : Statement .symTimeout := rfl

theorem symVoid : Statement .symVoid := rfl

theorem symRe0 : Statement .symRe0 := rfl

theorem symRe1 : Statement .symRe1 := rfl

theorem symFe0 : Statement .symFe0 := rfl

theorem symFe1 : Statement .symFe1 := rfl

theorem snap0000 : Statement .snap0000 := rfl

theorem snap0001 : Statement .snap0001 := rfl

theorem snap0010 : Statement .snap0010 := rfl

theorem snap0011 : Statement .snap0011 := rfl

theorem snap0100 : Statement .snap0100 := rfl

theorem snap0101 : Statement .snap0101 := rfl

theorem snap0110 : Statement .snap0110 := rfl

theorem snap0111 : Statement .snap0111 := rfl

theorem snap1000 : Statement .snap1000 := rfl

theorem snap1001 : Statement .snap1001 := rfl

theorem snap1010 : Statement .snap1010 := rfl

theorem snap1011 : Statement .snap1011 := rfl

theorem snap1100 : Statement .snap1100 := rfl

theorem snap1101 : Statement .snap1101 := rfl

theorem snap1110 : Statement .snap1110 := rfl

theorem snap1111 : Statement .snap1111 := rfl

theorem stateIdle : Statement .stateIdle := rfl

theorem stateWaitForStart : Statement .stateWaitForStart := rfl

theorem stateStartBitReceived : Statement .stateStartBitReceived := rfl

theorem stateReceiveAddress : Statement .stateReceiveAddress := rfl

theorem stateReceiveSubAddress : Statement .stateReceiveSubAddress := rfl

theorem stateReceiveData : Statement .stateReceiveData := rfl

theorem stateTransmit : Statement .stateTransmit := rfl

end Sys2Proof.Laws.EncodeWf
end

