-- ==== Sys2Proof/Laws/Run.lean ====
section
/-! SUPPORT. The master running alone under Spin: a list of micro-operations and of the actions between them runs to its
end in as many steps as it holds micro-operations. -/

namespace Sys2Proof.Machine

open Sys2Proof.Safety

/-- A micro-operation, or an action that takes no step and adds none. -/
def flatOp : Op → Bool
  | .micro _ => true
  | .orAck => true
  | .shiftAcc => true
  | .parityTest => true
  | .store _ _ => true
  | .stuckTest => false
  | .txByte _ => false
  | .txBytes _ _ _ => false
  | .rxBytes _ _ _ _ _ => false
  | .rsendBytes _ _ _ => false
  | .rreadBytes _ _ _ => false

/-- What `k` steps of a running command keep, and the count they add. -/
structure Ran (k : Nat) (s t : State) : Prop where
  busy : t.m.busy = s.m.busy
  strategy : t.m.strategy = s.m.strategy
  fault : t.m.fault = s.m.fault
  addr : t.m.addr = s.m.addr
  pos : t.m.pos = s.m.pos + k
  status : t.out.status = s.out.status

theorem Ran.refl (s : State) : Ran 0 s s := ⟨rfl, rfl, rfl, rfl, rfl, rfl⟩

theorem Ran.trans {j k : Nat} {s t u : State} (h : Ran j s t) (g : Ran k t u) : Ran (j + k) s u :=
  ⟨g.busy.trans h.busy, g.strategy.trans h.strategy, g.fault.trans h.fault, g.addr.trans h.addr,
    by rw [g.pos, h.pos, Nat.add_assoc], g.status.trans h.status⟩

/-- Steps of the master compose. -/
theorem runMaster_add {j k : Nat} {s t : State} (h : runMaster j s = .next t) :
    runMaster (j + k) s = runMaster k t := by
  induction j generalizing s with
  | zero => cases h; rw [Nat.zero_add]
  | succ j ih =>
    rw [show j + 1 + k = (j + k) + 1 by omega]
    simp only [runMaster] at h ⊢
    split at h
    · next hs => exact ih h
    · cases h
    · cases h

/-- One more micro-operation of a list. -/
@[simp] theorem microCount_micro (u : Micro) (r : List Op) : microCount (.micro u :: r) = 1 + microCount r := by
  simp [microCount, Nat.add_comm]

/-- Micro-operations of two lists. -/
@[simp] theorem microCount_append (a b : List Op) : microCount (a ++ b) = microCount a + microCount b := by
  simp [microCount]

/-- One micro-operation under Spin. -/
theorem micro_runs (u : Micro) (rest : List Op) (s : State) (h : s.m.strategy = .spin) :
    ∃ q, masterStep (resume (.micro u :: rest) s) = .next (resume rest q) ∧ Ran 1 s q ∧ q.m.ackFail = s.m.ackFail := by
  have key : ∀ q : State, q.m.busy = s.m.busy → q.m.strategy = s.m.strategy → q.m.fault = s.m.fault → q.m.addr = s.m.addr →
      q.m.pos = s.m.pos → q.out.status = s.out.status → q.m.ackFail = s.m.ackFail →
      ∃ q', Host.Outcome.next (advance rest q) = (Host.Outcome.next (resume rest q') : Result) ∧ Ran 1 s q' ∧
        q'.m.ackFail = s.m.ackFail :=
    fun q h0 h1 h2 h3 h4 h5 h6 => ⟨_, rfl, ⟨h0, h1, h2, h3, by rw [← h4]; rfl, h5⟩, h6⟩
  rw [resume_micro]
  unfold masterStep
  dsimp only [State.setM]
  cases u with
  | sda b => exact key _ rfl rfl rfl rfl rfl rfl rfl
  | relSda => exact key _ rfl rfl rfl rfl rfl rfl rfl
  | scl b => exact key _ rfl rfl rfl rfl rfl rfl rfl
  | get =>
    simp only [microStep, masterSample]
    split
    · exact key _ rfl rfl rfl rfl rfl rfl rfl
    · split <;> exact key _ rfl rfl rfl rfl rfl rfl rfl
  | wait =>
    simp only [microStep, waitStep, h]
    split <;> exact key _ rfl h.symm rfl rfl rfl rfl rfl

/-- A list of micro-operations and of actions that take no step runs to its end. -/
theorem flat_runs (ops rest : List Op) : ∀ s : State, (∀ o ∈ ops, flatOp o = true) → s.m.strategy = .spin →
    ∃ t, runMaster (microCount ops) (resume (ops ++ rest) s) = .next (resume rest t) ∧ Ran (microCount ops) s t ∧
      (.orAck ∉ ops → t.m.ackFail = s.m.ackFail) := by
  induction ops with
  | nil => intro s _ _; exact ⟨s, rfl, .refl s, fun _ => rfl⟩
  | cons o r ih =>
    intro s hf hs
    have hr : ∀ o ∈ r, flatOp o = true := fun o h => hf o (by simp [h])
    have ho := hf o (by simp)
    cases o with
    | micro u =>
      obtain ⟨q, h1, h2, h3⟩ := micro_runs u (r ++ rest) s hs
      obtain ⟨t, k1, k2, k3⟩ := ih q hr (h2.strategy.trans hs)
      refine ⟨t, ?_, by rw [microCount_micro]; exact h2.trans k2, fun hn => (k3 fun h => hn (by simp [h])).trans h3⟩
      rw [microCount_micro, runMaster_add (j := 1) (t := resume (r ++ rest) q)]
      · exact k1
      · simp only [runMaster, List.cons_append, h1]
    | orAck =>
      obtain ⟨t, k1, k2, _⟩ := ih (s.setM (orAckFail s.m)) hr hs
      exact ⟨t, k1, ⟨k2.1, k2.2, k2.3, k2.4, k2.5, k2.6⟩, fun hn => absurd (by simp) hn⟩
    | shiftAcc =>
      obtain ⟨t, k1, k2, k3⟩ := ih (s.setM (shiftInAcc s.m)) hr hs
      exact ⟨t, k1, ⟨k2.1, k2.2, k2.3, k2.4, k2.5, k2.6⟩, fun hn => k3 fun h => hn (by simp [h])⟩
    | parityTest =>
      obtain ⟨t, k1, k2, k3⟩ := ih (s.setM (testParity s.m)) hr hs
      exact ⟨t, k1, ⟨k2.1, k2.2, k2.3, k2.4, k2.5, k2.6⟩, fun hn => k3 fun h => hn (by simp [h])⟩
    | store b i =>
      obtain ⟨t, k1, k2, k3⟩ := ih (writeBuf s b i s.m.acc) hr hs
      exact ⟨t, k1, ⟨k2.1, k2.2, k2.3, k2.4, k2.5, k2.6⟩, fun hn => k3 fun h => hn (by simp [h])⟩
    | stuckTest => cases ho
    | txByte v => cases ho
    | txBytes b i n => cases ho
    | rxBytes b i n c m => cases ho
    | rsendBytes b i n => cases ho
    | rreadBytes b i n => cases ho

end Sys2Proof.Machine
end

