-- ==== Sys2Proof/Laws/Step.lean ====
section
/-! SUPPORT. Everything one step of the machine can be: a step of one agent, a passed turn, rest, or a stop. -/

namespace Sys2Proof.Machine

/-- The turn that `s` gives is `x` (none: no turn is given), and `u` is `s` with that turn removed. -/
def Gives (s : State) (x : Option Turn) (u : State) : Prop :=
  match x with
  | none => s.turns = [] ∧ u = s
  | some y => ∃ ts, s.turns = y :: ts ∧ u = { s with turns := ts }

/-- Removing the turn changes nothing but the turns. -/
theorem Gives.eq {s u : State} {x : Option Turn} (h : Gives s x u) : ∃ ts, u = { s with turns := ts } := by
  cases x with
  | none => exact ⟨s.turns, h.2⟩
  | some y => obtain ⟨ts, _, h⟩ := h; exact ⟨ts, h⟩

/-- What the agent that steps from `u` does, with the turn `x` given. -/
def StepBy (x : Option Turn) (u : State) (o : Result) : Prop :=
  ((x = none ∨ x = some .slave) ∧ handlerReady u = true ∧ u.e.tmo = true ∧
    o = consume .timeout (u.setE { u.e with tmo := false })) ∨
  ((x = none ∨ x = some .slave) ∧ handlerReady u = true ∧ u.e.tmo = false ∧
    o = consume (classify (snapshot u)) (clearEdges u)) ∨
  (masterReady u = true ∧ o = masterStep u) ∨
  (timerReady u = true ∧ o = .next (timerDone u)) ∨
  (∃ i r, u.inputs = i :: r ∧ inputReady i u = true ∧ o = applyInput i { u with inputs := r }) ∨
  o = .next u ∨
  (x = none ∧ masterBlocked u = true ∧ u.m.busy = true ∧ timerReady u = false ∧ handlerReady u = false ∧
    outsideReady u = false ∧ o = .fault .timerStuck)

/-- The handler's step. -/
theorem StepBy.handler {x : Option Turn} {u : State} (hx : x = none ∨ x = some .slave) (h : handlerReady u = true) :
    StepBy x u (handlerStep u) := by
  unfold handlerStep
  split
  · next k => exact .inl ⟨hx, h, k, exec_symbolInstr _ _⟩
  · next k => exact .inr (.inl ⟨hx, h, by simpa using k, exec_snapInstr _ _⟩)

/-- The master's step. -/
theorem StepBy.master {x : Option Turn} {u : State} (h : masterReady u = true) : StepBy x u (masterStep u) :=
  .inr (.inr (.inl ⟨h, rfl⟩))

/-- The end of the countdown. -/
theorem StepBy.timer {x : Option Turn} {u : State} (h : timerReady u = true) : StepBy x u (.next (timerDone u)) :=
  .inr (.inr (.inr (.inl ⟨h, rfl⟩)))

/-- The outside's step. -/
theorem StepBy.outside {x : Option Turn} {u : State} (h : outsideReady u = true) : StepBy x u (outsideStep u) := by
  unfold outsideReady at h
  unfold outsideStep
  split at h
  · cases h
  · next i r hi =>
    exact .inr (.inr (.inr (.inr (.inl ⟨i, r, hi, h, rfl⟩))))

/-- A passed turn or a machine at rest. -/
theorem StepBy.rest {x : Option Turn} (u : State) : StepBy x u (.next u) := .inr (.inr (.inr (.inr (.inr (.inl rfl)))))

/-- A given turn. -/
theorem turnStep_by (y : Turn) (u : State) : StepBy (some y) u (turnStep y u) := by
  cases y <;> unfold turnStep <;> dsimp only <;> split
  · next h => exact .handler (.inr rfl) h
  · exact .rest u
  · next h => exact .master h
  · exact .rest u
  · next h => exact .timer h
  · exact .rest u
  · next h => exact .outside h
  · exact .rest u

/-- No turn given. -/
theorem defaultStep_by (u : State) : StepBy none u (defaultStep u) := by
  unfold defaultStep
  split
  · next h => exact .handler (.inl rfl) h
  next hh =>
  split
  · next h => exact .master h
  split
  · next h => exact .timer h
  next ht =>
  split
  · next h => exact .outside h
  next ho =>
  split
  · next h =>
    simp only [Bool.and_eq_true] at h
    exact .inr (.inr (.inr (.inr (.inr (.inr
      ⟨rfl, h.2, h.1.1, by simpa using ht, by simpa using hh, by simpa using ho, rfl⟩)))))
  · exact .rest u

/-- One step, by the agent that takes it. -/
theorem step_cases (s : State) : ∃ x u, Gives s x u ∧ StepBy x u (step s) := by
  unfold step nextStep
  split
  · next y ts hs => exact ⟨some y, _, ⟨ts, hs, rfl⟩, turnStep_by _ _⟩
  · next hs => exact ⟨none, s, ⟨hs, rfl⟩, defaultStep_by s⟩

end Sys2Proof.Machine
end

