-- ==== Sys2Proof/Laws/Symbols.lean ====
section
/-! SUPPORT. A symbol row on a live slave in a stored state: how the state function's answer becomes the next state. -/

namespace Sys2Proof.Machine

open Sys2Proof.Safety

/-- The actions of Idle and the storing of WaitForStart are `IdleDone`. -/
theorem idleDone (y : Symbol) (s : State) :
    IdleDone y s ((idleFn y s).1.setS { (idleFn y s).1.s with state := stateCode .waitForStart }) := by
  unfold IdleDone idleFn idleHooks
  cases hm : s.s.memWritten <;> cases hr : s.s.memRead <;> cases hc : s.s.cfg.cursorRestore <;>
  cases h1 : s.s.cfg.hookBusFree <;> cases h2 : s.s.cfg.hookWriteDone <;> cases h3 : s.s.cfg.hookReadDone <;>
  by_cases hy : y = .stop <;>
  simp [hm, hr, hc, h1, h2, h3, hy, fire, hookEn, setHookFlag, State.setS, State.setOut, slaveReleaseSda, latchEdges,
    State.setE]

/-- A live slave in a stored state holds that state's code. -/
theorem stored_code {x : StateName} {s : State} (h : Stored x s) :
    s.s.fault = false ∧ s.s.state = stateCode x ∧ passThrough x = false := ⟨h.1, storedState_some h.2⟩

/-- The symbol row where the state function and its pass-through end in `t`. -/
theorem exec_symbol_ok {x : StateName} {y : Symbol} {s t : State} (h : Stored x s)
    (ht : runState x y (withSym y s) = .ok t) : exec (symbolInstr y) s = .next (spyIfEnabled y t) := by
  rw [exec_symbolInstr]
  exact consume_stored h.1 h.2 ht

/-- The symbol row where the state function stops. -/
theorem exec_symbol_error {x : StateName} {y : Symbol} {s : State} {e : Fault} (h : Stored x s)
    (ht : runState x y (withSym y s) = .error e) : exec (symbolInstr y) s = .fault e := by
  rw [exec_symbolInstr]
  unfold consume
  rw [if_neg (by simp [h.1]), h.2]
  have k : runState x y (s.setS { s.s with sym := y }) = .error e := ht
  simp only [k]

/-- The symbol row where the state function answers Idle. -/
theorem exec_symbol_idle {x : StateName} {y : Symbol} {s t : State} (h : Stored x s)
    (ht : stateFn x y (withSym y s) = .ok (t, .idle)) :
    ∃ u, exec (symbolInstr y) s = .next (spyIfEnabled y u) ∧ IdleDone y t u :=
  ⟨_, exec_symbol_ok h (runState_idle ht), idleDone y t⟩

/-- The symbol row where the state function stays in its state. -/
theorem exec_symbol_stays {x : StateName} {y : Symbol} {s t : State} (h : Stored x s)
    (ht : stateFn x y (withSym y s) = .ok (t, x)) :
    exec (symbolInstr y) s = .next (spyIfEnabled y { t with s := { t.s with state := s.s.state } }) := by
  rw [(stored_code h).2.1]
  exact exec_symbol_ok h (runState_stays ht (stored_code h).2.2)

/-- The symbol row where the state function moves to another state that may be stored. -/
theorem exec_symbol_moves {x z : StateName} {y : Symbol} {s t : State} (h : Stored x s)
    (ht : stateFn x y (withSym y s) = .ok (t, z)) (hz : passThrough z = false) :
    exec (symbolInstr y) s = .next (spyIfEnabled y { t with s := { t.s with state := stateCode z } }) :=
  exec_symbol_ok h (runState_stays ht hz)

end Sys2Proof.Machine
end

