-- ==== Sys2Proof/Laws/Unread.lean ====
section
/-! SUPPORT. The state functions read neither the stored state index nor the model's record of the current symbol: with
other values there they do the same. -/

namespace Sys2Proof.Machine

/-- `s` with another stored index and another recorded symbol. -/
def relabel (c : BitVec 5) (z : Symbol) (s : State) : State :=
  { s with s := { s.s with state := c, sym := z } }

/-- A state function's answer with the same two fields replaced. -/
def relabelMoved (c : BitVec 5) (z : Symbol) : Moved → Moved
  | .ok r => .ok (relabel c z r.1, r.2)
  | .error e => .error e

/-- What a state function's part commutes with. -/
def Unread (f : State → Moved) : Prop := ∀ c z s, f (relabel c z s) = relabelMoved c z (f s)

/-- Accumulation does not read the two fields. -/
theorem relabel_accum (b : Bool) (c : BitVec 5) (z : Symbol) (s : State) :
    (relabel c z s).setS (accum b (relabel c z s).s) = relabel c z (s.setS (accum b s.s)) := by
  by_cases h : s.s.mask ≠ 0#8
  · unfold accum
    rw [if_pos (show (relabel c z s).s.mask ≠ 0#8 from h), if_pos h]
    rfl
  · unfold accum
    rw [if_neg (show ¬ (relabel c z s).s.mask ≠ 0#8 from h), if_neg h]
    rfl

/-- The staging of a byte does not read the two fields. -/
theorem relabel_stageByte (c : BitVec 5) (z : Symbol) (s : State) :
    stageByte (relabel c z s) =
      (match stageByte s with | .ok t => .ok (relabel c z t) | .error e => .error e) := by
  unfold stageByte readMem
  by_cases h : s.s.cursor < s.s.cfg.memSize
  · rw [if_pos (show (relabel c z s).s.cursor < (relabel c z s).s.cfg.memSize from h), if_pos h]
    rfl
  · rw [if_neg (show ¬ (relabel c z s).s.cursor < (relabel c z s).s.cfg.memSize from h), if_neg h]

theorem unread_ackEdge (here : StateName) (commit : State → Moved) (hc : Unread commit) :
    Unread (ackEdge here commit) := by
  intro c z s
  unfold ackEdge
  by_cases h : s.s.mask ≠ 0#8
  · rw [if_pos (show (relabel c z s).s.mask ≠ 0#8 from h), if_pos h]
    rfl
  · rw [if_neg (show ¬ (relabel c z s).s.mask ≠ 0#8 from h), if_neg h]
    by_cases k : s.s.ackPhase = false
    · rw [if_pos (show (relabel c z s).s.ackPhase = false from k), if_pos k]
      rfl
    · rw [if_neg (show ¬ (relabel c z s).s.ackPhase = false from k), if_neg k, ← hc]
      rfl

theorem unread_addressCommit : Unread addressCommit := by
  intro c z s
  unfold addressCommit
  by_cases h : s.s.decodedAddr.getLsbD 0 = false
  · rw [if_pos (show (relabel c z s).s.decodedAddr.getLsbD 0 = false from h), if_pos h]
    rfl
  · rw [if_neg (show ¬ (relabel c z s).s.decodedAddr.getLsbD 0 = false from h), if_neg h, relabel_stageByte]
    cases stageByte s <;> rfl

theorem unread_subAddressCommit : Unread subAddressCommit := by
  intro c z s
  unfold subAddressCommit
  have h : reduceIndex (relabel c z s).s.cfg (relabel c z s).s.sr = reduceIndex s.s.cfg s.s.sr := rfl
  rw [h]
  cases reduceIndex s.s.cfg s.s.sr <;> rfl

theorem unread_dataCommit : Unread dataCommit := by
  intro c z s
  unfold dataCommit writeMem
  by_cases h : s.s.cursor < (slaveReleaseSda s).s.cfg.memSize
  · rw [if_pos (show (relabel c z s).s.cursor < (slaveReleaseSda (relabel c z s)).s.cfg.memSize from h), if_pos h]
    rfl
  · rw [if_neg (show ¬ (relabel c z s).s.cursor < (slaveReleaseSda (relabel c z s)).s.cfg.memSize from h), if_neg h]
    rfl

theorem unread_addressRise (b : Bool) : Unread (addressRise b) := by
  intro c z s
  unfold addressRise
  rw [relabel_accum]
  dsimp only
  by_cases h : s.s.mask ≠ 0#8 ∧ (s.setS (accum b s.s)).s.mask = 0#8
  · rw [if_pos (show (relabel c z s).s.mask ≠ 0#8 ∧ (relabel c z (s.setS (accum b s.s))).s.mask = 0#8 from h), if_pos h]
    by_cases k : addrMatch (s.setS (accum b s.s)).s.cfg (s.setS (accum b s.s)).s.sr = true
    · rw [if_pos (show addrMatch (relabel c z (s.setS (accum b s.s))).s.cfg (relabel c z (s.setS (accum b s.s))).s.sr = true from k), if_pos k]
      rfl
    · rw [if_neg (show ¬ addrMatch (relabel c z (s.setS (accum b s.s))).s.cfg (relabel c z (s.setS (accum b s.s))).s.sr = true
        from k), if_neg k]
      rfl
  · rw [if_neg (show ¬ ((relabel c z s).s.mask ≠ 0#8 ∧ (relabel c z (s.setS (accum b s.s))).s.mask = 0#8) from h),
      if_neg h]
    rfl

theorem unread_transmitRise (b : Bool) : Unread (transmitRise b) := by
  intro c z s
  unfold transmitRise
  by_cases h : s.s.mask ≠ 0#8
  · rw [if_pos (show (relabel c z s).s.mask ≠ 0#8 from h), if_pos h]
    by_cases k : b ≠ stagedBit s.s
    · rw [if_pos (show b ≠ stagedBit (relabel c z s).s from k), if_pos k]
      rfl
    · rw [if_neg (show ¬ b ≠ stagedBit (relabel c z s).s from k), if_neg k]
      rfl
  · rw [if_neg (show ¬ (relabel c z s).s.mask ≠ 0#8 from h), if_neg h]
    by_cases k : s.s.cfg.honoursNack = true ∧ s.s.ackPhase = true ∧ b = true
    · rw [if_pos (show (relabel c z s).s.cfg.honoursNack = true ∧ (relabel c z s).s.ackPhase = true ∧ b = true from k),
        if_pos k]
      rfl
    · rw [if_neg (show ¬ ((relabel c z s).s.cfg.honoursNack = true ∧ (relabel c z s).s.ackPhase = true ∧ b = true)
        from k), if_neg k]
      rfl

theorem unread_transmitFall : Unread transmitFall := by
  intro c z s
  unfold transmitFall
  by_cases h : s.s.mask ≠ 0#8
  · rw [if_pos (show (relabel c z s).s.mask ≠ 0#8 from h), if_pos h]
    rfl
  · rw [if_neg (show ¬ (relabel c z s).s.mask ≠ 0#8 from h), if_neg h]
    by_cases k : s.s.ackPhase = false
    · rw [if_pos (show (relabel c z s).s.ackPhase = false from k), if_pos k]
      rfl
    · rw [if_neg (show ¬ (relabel c z s).s.ackPhase = false from k), if_neg k]
      have e := relabel_stageByte c z
        (s.setS { s.s with cursor := nextCursor s.s, memRead := true, mask := 0x80#8, ackPhase := false })
      have e' : stageByte ((relabel c z s).setS { (relabel c z s).s with
          cursor := nextCursor (relabel c z s).s, memRead := true, mask := 0x80#8, ackPhase := false }) = _ := e
      rw [e']
      cases stageByte (s.setS { s.s with cursor := nextCursor s.s, memRead := true, mask := 0x80#8, ackPhase := false })
        <;> rfl

theorem unread_commonFn (here : StateName) (rise : Bool → State → Moved) (fall : State → Moved)
    (hr : ∀ b, Unread (rise b)) (hf : Unread fall) (y : Symbol) : Unread (commonFn here rise fall y) := by
  intro c z s
  cases y
  case re0 => exact hr false c z s
  case re1 => exact hr true c z s
  case fe0 => exact hf c z s
  case fe1 => exact hf c z s
  all_goals rfl

theorem unread_idleFn (y : Symbol) : Unread (fun s => .ok (idleFn y s)) := by
  intro c z s
  unfold idleFn relabel relabelMoved
  cases hm : s.s.memWritten <;> cases hr : s.s.memRead <;> cases hc : s.s.cfg.cursorRestore <;>
  cases h1 : s.s.cfg.hookBusFree <;> cases h2 : s.s.cfg.hookWriteDone <;> cases h3 : s.s.cfg.hookReadDone <;>
  by_cases hy : y = .stop <;>
  simp [hm, hr, hc, h1, h2, h3, hy, fire, hookEn, setHookFlag, State.setS, State.setOut, slaveReleaseSda, latchEdges,
    State.setE] <;>
  rfl

/-- No state function reads the stored index or the recorded symbol. -/
theorem unread_stateFn (x : StateName) (y : Symbol) : Unread (stateFn x y) := by
  cases x with
  | idle => exact unread_idleFn y
  | waitForStart => intro c z s; cases y <;> rfl
  | startBitReceived => intro c z s; rfl
  | receiveAddress =>
    exact unread_commonFn _ _ _ (fun b => unread_addressRise b) (unread_ackEdge _ _ unread_addressCommit) y
  | receiveSubAddress =>
    refine unread_commonFn .receiveSubAddress (fun b t => .ok (t.setS (accum b t.s), .receiveSubAddress)) _ (fun b c z s => ?_)
      (unread_ackEdge _ _ unread_subAddressCommit) y
    show Except.ok (_, _) = _
    rw [relabel_accum]
    rfl
  | receiveData =>
    refine unread_commonFn .receiveData (fun b t => .ok (t.setS (accum b t.s), .receiveData)) _ (fun b c z s => ?_)
      (unread_ackEdge _ _ unread_dataCommit) y
    show Except.ok (_, _) = _
    rw [relabel_accum]
    rfl
  | transmit => exact unread_commonFn _ _ _ unread_transmitRise unread_transmitFall y

/-- Passing on does not read them either. -/
theorem passOn_relabel (y : Symbol) (c : BitVec 5) (z : Symbol) (n : Nat) :
    ∀ r, passOn n y (relabel c z r.1, r.2) = relabelMoved c z (passOn n y r) := by
  induction n with
  | zero => intro r; rfl
  | succ n ih =>
    intro r
    unfold passOn
    dsimp only
    split
    · rw [unread_stateFn]
      cases stateFn r.2 y r.1 with
      | ok q => exact ih q
      | error e => rfl
    · rfl

/-- Running a state's function from a relabelled state ends as from the state itself, but for the recorded symbol. -/
theorem runState_relabel (x : StateName) (y : Symbol) (c : BitVec 5) (z : Symbol) (s : State) :
    runState x y (relabel c z s) =
      (match runState x y s with
       | .ok t => .ok { t with s := { t.s with sym := z } }
       | .error e => .error e) := by
  unfold runState
  rw [unread_stateFn]
  cases stateFn x y s with
  | error e => rfl
  | ok r =>
    simp only [relabelMoved]
    rw [passOn_relabel]
    cases passOn 2 y r with
    | error e => rfl
    | ok q => rfl

end Sys2Proof.Machine
end

