-- ==== Sys2Proof/Tests/Slice0.lean ====
section
/-! SUPPORT. The model's own tests. Expected values are those of spec/: 95_test_vectors.md and the tables of the
section files, named in each docstring; no expected value was taken from the model. Then one witness for each statement
with hypotheses: a concrete state and operands that meet them. -/

namespace Sys2Proof.Tests

open Sys2Proof Sys2Proof.Machine Sys2Proof.Safety

/-! ## Helpers -/

/-- One field of the next state, none where the machine stops. -/
def after {α : Type} (r : Result) (f : State → α) : Option α :=
  match r with
  | .next t => some (f t)
  | .fault _ => none
  | .refused _ => none

/-- The slave of State.reset in a stored state, in the middle of a byte. -/
def slaveIn (x : StateName) (sr mask : Byte) (ack : Bool) : State :=
  { State.reset with
    s := { State.reset.s with state := stateCode x, sr := sr, mask := mask, ackPhase := ack } }

/-- The four fields that place the slave inside a byte. -/
def inByte (s : State) : BitVec 5 × Byte × Byte × Bool := (s.s.state, s.s.sr, s.s.mask, s.s.ackPhase)

/-- A master of this family, configured with the Spin strategy, alone on its bus. -/
def busMaster (v : Variant) : State :=
  { State.reset with
    shared := false
    m := { State.reset.m with
      strategy := .spin, waitParam := 5#32, tl := 1#16, th := 1#16, cfg := { resetMasterCfg with variant := v } } }

/-- The same with the address byte it last gave to START. -/
def addressed (a : Byte) : State := { busMaster .i2c with m := { (busMaster .i2c).m with addr := a } }

/-- The same after a not-acknowledge. -/
def nacked (a : Byte) : State := { busMaster .i2c with m := { (busMaster .i2c).m with addr := a, ackFail := true } }

/-- A halted master. -/
def haltedMaster : State := { State.reset with m := { State.reset.m with fault := true, faultCode := 3#4 } }

/-- A halted slave. -/
def haltedSlave : State := { State.reset with s := { State.reset.s with fault := true, faultCode := 11#4 } }

/-- A master at a Wait, with k the two tick counts, the strategy, and how far the wait has come. -/
def waitingMaster (st : Strategy) (k : BitVec 16) (waiting done : Bool) : State :=
  { busMaster .i2c with
    m := { (busMaster .i2c).m with
      strategy := st, tl := k, th := k, busy := true, waiting := waiting, todo := [.micro .wait, .micro .get] }
    timer := { State.reset.timer with done := done } }

/-- State.reset with a host operation next and the outside given the turn. -/
def given (i : Input) : State := { State.reset with inputs := [i], turns := [.outside] }

/-! ## Well-formedness: one ill-formed term for each check -/

theorem test_wf_reserved_opcode : (Coded.cmd 0x04#32 0#32 0#32 0#32).wf = false ∧
    (Coded.cmd 0x7F#32 0#32 0#32 0#32).wf = false := by decide

theorem test_wf_reserved_symbol : (Coded.sym 9#4).wf = false ∧ (Coded.sym 15#4).wf = false := by decide

theorem test_wf_reserved_state : (Coded.state 7#5).wf = false ∧ (Coded.state 31#5).wf = false := by decide

theorem test_wf_default_rate_zero : ({ resetMasterCfg with defaultMinBps := 0#32 } : MasterCfg).wf = false := by decide

theorem test_wf_default_rate_above_i2c_maximum :
    ({ resetMasterCfg with defaultMinBps := 400001#32 } : MasterCfg).wf = false := by decide

theorem test_wf_default_rate_above_rffe_maximum :
    ({ resetMasterCfg with variant := .rffe, defaultMinBps := 11#32, rffeMaxBps := 10#32 } : MasterCfg).wf = false := by
  decide

theorem test_wf_cycle_count_zero : ({ resetMasterCfg with waitFns := .r101 0 } : MasterCfg).wf = false := by decide

theorem test_wf_memory_size_zero : ({ resetSlaveCfg with memSize := 0 } : SlaveCfg).wf = false := by decide

theorem test_wf_accepts : (Coded.cmd 0x13#32 0#32 0#32 0#32).wf = true ∧ (Coded.sym 8#4).wf = true ∧
    (Coded.state 6#5).wf = true ∧ (Coded.snap 15#4).wf = true ∧ resetMasterCfg.wf = true ∧ resetSlaveCfg.wf = true := by
  decide

/-! ## Decoding: words written out from 30_encoding.md R61, R63, R66, R70 and 95_test_vectors.md section 3 -/

/-- `CFG 100000, 1, 1` = `00000000 000186A0 00010001 00000000` (V-P1); TL is P[2][15:0], TH P[2][31:16] (R70). -/
theorem test_decode_cfg :
    decode (.cmd 0x00000000#32 0x000186A0#32 0x00010001#32 0x00000000#32) = .ok (.cfg 100000#32 1#16 1#16) ∧
    decode (.cmd 0x00000000#32 0x0000C350#32 0x00040003#32 0x00000000#32) = .ok (.cfg 50000#32 3#16 4#16) := by decide

/-- `START 0x40` = `00000001 00000040 00000000 00000000` (V-P1). -/
theorem test_decode_start :
    decode (.cmd 0x00000001#32 0x00000040#32 0x00000000#32 0x00000000#32) = .ok (.start 0x40#8) := by decide

/-- `MOVE` with more = 1 and with more = 0 (V-P1). -/
theorem test_decode_move :
    decode (.cmd 0x00000002#32 0x00001000#32 0x00000001#32 0x00000001#32) = .ok (.move 0x1000#32 1#32 true) ∧
    decode (.cmd 0x00000002#32 0x00001000#32 0x00000003#32 0x00000000#32) = .ok (.move 0x1000#32 3#32 false) := by decide

theorem test_decode_stop : decode (.cmd 0x00000003#32 0#32 0#32 0#32) = .ok .stop := by decide

/-- `RSTART 0x123` (V-P6); P[1][31:12] is ignored (R70). -/
theorem test_decode_rstart :
    decode (.cmd 0x00000011#32 0x00000123#32 0#32 0#32) = .ok (.rstart 0x123#12) ∧
    decode (.cmd 0x00000011#32 0xFFFFF5A5#32 0#32 0#32) = .ok (.rstart 0x5A5#12) := by decide

/-- `RMOVE TX {0xA5}` and `RMOVE RX 2` (V-P6). -/
theorem test_decode_rmove :
    decode (.cmd 0x00000012#32 0x00001000#32 0x00000000#32 0x00000001#32) = .ok (.rmove 0x1000#32 0#32 1#32) ∧
    decode (.cmd 0x00000012#32 0x00000000#32 0x00001000#32 0x00000002#32) = .ok (.rmove 0#32 0x1000#32 2#32) := by decide

theorem test_decode_rpark : decode (.cmd 0x00000013#32 0#32 0#32 0#32) = .ok .rpark := by decide

/-- The nine codes of R63. -/
theorem test_decode_symbols :
    decode (.sym 0b0000#4) = .ok .symStart ∧ decode (.sym 0b0001#4) = .ok .symStop ∧
    decode (.sym 0b0010#4) = .ok .symError ∧ decode (.sym 0b0011#4) = .ok .symTimeout ∧
    decode (.sym 0b0100#4) = .ok .symVoid ∧ decode (.sym 0b0101#4) = .ok .symRe0 ∧
    decode (.sym 0b0110#4) = .ok .symRe1 ∧ decode (.sym 0b0111#4) = .ok .symFe0 ∧
    decode (.sym 0b1000#4) = .ok .symFe1 ∧ decode (.sym 0b1001#4) = .error (.reservedSymbol 9#4) := by decide

/-- The sixteen snapshots of R61, named by their own bits. -/
theorem test_decode_snapshots :
    decode (.snap 0b0000#4) = .ok .snap0000 ∧ decode (.snap 0b0001#4) = .ok .snap0001 ∧
    decode (.snap 0b0010#4) = .ok .snap0010 ∧ decode (.snap 0b0011#4) = .ok .snap0011 ∧
    decode (.snap 0b0100#4) = .ok .snap0100 ∧ decode (.snap 0b0101#4) = .ok .snap0101 ∧
    decode (.snap 0b0110#4) = .ok .snap0110 ∧ decode (.snap 0b0111#4) = .ok .snap0111 ∧
    decode (.snap 0b1000#4) = .ok .snap1000 ∧ decode (.snap 0b1001#4) = .ok .snap1001 ∧
    decode (.snap 0b1010#4) = .ok .snap1010 ∧ decode (.snap 0b1011#4) = .ok .snap1011 ∧
    decode (.snap 0b1100#4) = .ok .snap1100 ∧ decode (.snap 0b1101#4) = .ok .snap1101 ∧
    decode (.snap 0b1110#4) = .ok .snap1110 ∧ decode (.snap 0b1111#4) = .ok .snap1111 := by decide

/-- The seven indices of R66. -/
theorem test_decode_states :
    decode (.state 0b00000#5) = .ok .stateIdle ∧ decode (.state 0b00001#5) = .ok .stateWaitForStart ∧
    decode (.state 0b00010#5) = .ok .stateStartBitReceived ∧ decode (.state 0b00011#5) = .ok .stateReceiveAddress ∧
    decode (.state 0b00100#5) = .ok .stateReceiveSubAddress ∧ decode (.state 0b00101#5) = .ok .stateReceiveData ∧
    decode (.state 0b00110#5) = .ok .stateTransmit ∧ decode (.state 0b00111#5) = .error (.reservedState 7#5) := by decide

/-- The host's table words: a command's P[0] bits, a snapshot of one byte, a state index (log entry 22). -/
theorem test_decode_table_words :
    decodeTableWord 32 0x03 = some .stop ∧ decodeTableWord 8 0x13 = some .rpark ∧
    decodeTableWord 32 0x04 = none ∧ decodeTableWord 4 9 = some .snap1001 ∧ decodeTableWord 8 9 = some .snap1001 ∧
    decodeTableWord 5 6 = some .stateTransmit := by decide

/-! ## The delay engine -/

/-- V-D1: Timer, wait parameter 5, status 0. -/
theorem test_cfg_timer : after (exec (.cfg 100000#32 1#16 1#16) State.reset)
    (fun t => (t.m.strategy, t.m.waitParam, t.m.bps, t.out.status)) =
    some (.timer, 5#32, 100000#32, [0x00000000#32]) := by decide

/-- V-D3: one above the I2C maximum is RATE_TOO_HIGH with status 0x00000380, and writes nothing. -/
theorem test_cfg_rate_too_high : after (exec (.cfg 400001#32 2#16 2#16) State.reset)
    (fun t => (t.m.strategy, t.m.tl, t.out.status)) = some (.none, 0#16, [0x00000380#32]) := by decide

/-! ## The masters -/

/-- V-M1: `START 0x40` begins `D1 G`, then the stuck test, `C1 W D0 W C0`; `M.addr` is 0x40, no pin has moved. -/
theorem test_start_begins : after (exec (.start 0x40#8) (busMaster .i2c))
    (fun t => (t.m.busy, t.m.addr, t.m.todo.take 4, t.m.sdaDir)) =
    some (true, 0x40#8, [.micro (.sda true), .micro .get, .stuckTest, .micro (.scl true)], .inp) := by decide

/-- V-D6: START on an unconfigured instance is NOT_CONFIGURED, status 0x00000980. -/
theorem test_start_not_configured : after (exec (.start 0x40#8) State.reset) (fun t => t.out.status) =
    some [0x00000980#32] := by decide

/-- V-M3: after a not-acknowledge `MOVE TX` with more = 0 is exactly `C0 W D0 W C1 W D1`. -/
theorem test_move_after_nack : after (exec (.move 7#32 3#32 false) (nacked 0x42#8)) (fun t => t.m.todo) =
    some [.micro (.scl false), .micro .wait, .micro (.sda false), .micro .wait, .micro (.scl true), .micro .wait,
      .micro (.sda true)] := by decide

/-- V-M5: `MOVE TX {}, 1` performs nothing at all. -/
theorem test_move_nothing : after (exec (.move 7#32 0#32 true) (addressed 0x40#8))
    (fun t => (t.m.busy, t.m.todo, t.out.status)) = some (false, [], [0x00000000#32]) := by decide

/-- V-P5: `STOP` is `C0 W D0 W C1 W D1`. -/
theorem test_stop : after (exec .stop (busMaster .i2c)) (fun t => t.m.todo.take 3) =
    some [.micro (.scl false), .micro .wait, .micro (.sda false)] := by decide

/-- V-R2: `RSTART 0x123` is `C0 D1 W D0 W`, then the bit 0 first; 70 micro-operations in all. -/
theorem test_rstart : after (exec (.rstart 0x123#12) (busMaster .rffe)) (fun t => (t.m.todo.take 6, t.m.todo.length)) =
    some ([.micro (.scl false), .micro (.sda true), .micro .wait, .micro (.sda false), .micro .wait,
      .micro (.sda false)], 70) := by decide

/-- V-R6: RSTART on an unconfigured RFFE instance is NOT_CONFIGURED. -/
theorem test_rstart_not_configured :
    after (exec (.rstart 0x123#12) { State.reset with m := { State.reset.m with cfg := (busMaster .rffe).m.cfg } })
      (fun t => t.out.status) = some [0x00000980#32] := by decide

/-- V-R6: both buffers and count 0 is MOVE_DUAL_DIR, status 0x00000680; one buffer and count 0 MOVE_ZERO_LEN. -/
theorem test_rmove_faults :
    after (exec (.rmove 1#32 1#32 0#32) (busMaster .rffe)) (fun t => t.out.status) = some [0x00000680#32] ∧
    after (exec (.rmove 1#32 0#32 0#32) (busMaster .rffe)) (fun t => t.out.status) = some [0x00000580#32] ∧
    after (exec (.rmove 0#32 0#32 3#32) (busMaster .rffe)) (fun t => t.out.status) = some [0x00000780#32] := by decide

/-- V-R4: `RMOVE RX` begins `C1 D0 W DZ C0 W DZ`. -/
theorem test_rmove_receive : after (exec (.rmove 0#32 1#32 2#32) (busMaster .rffe)) (fun t => t.m.todo.take 7) =
    some [.micro (.scl true), .micro (.sda false), .micro .wait, .micro .relSda, .micro (.scl false), .micro .wait,
      .micro .relSda] := by decide

/-- V-R7: `RPARK` is `C1 D0 W DZ C0 W DZ`. -/
theorem test_rpark : after (exec .rpark (busMaster .rffe)) (fun t => (t.m.todo.length, t.m.todo.take 2)) =
    some (7, [.micro (.scl true), .micro (.sda false)]) := by decide

/-- V-D9: `W` with SCL driven 0 takes `M.TL`, with SCL driven 1 `M.TH`; the product is not wrapped (V-D12). -/
theorem test_wait_counts :
    waitCount { State.reset.m with waitParam := 5#32, tl := 2#16, th := 3#16, sclVal := false } = 10 ∧
    waitCount { State.reset.m with waitParam := 5#32, tl := 2#16, th := 3#16, sclVal := true } = 15 ∧
    waitCount { State.reset.m with waitParam := 0x00020000#32, th := 0xFFFF#16, sclVal := true } = 0x1FFFE0000 := by
  decide

/-! ## The symbols -/

/-- V-S1: `S` from reset goes to ReceiveAddress with the bus busy. -/
theorem test_sym_start : after (exec .symStart State.reset) (fun t => (inByte t, t.s.busBusy)) =
    some ((3#5, 0#8, 0x80#8, false), true) := by decide

/-- V-S8: a Start inside a byte restarts with no Idle: the pending "memory written" stays. -/
theorem test_sym_start_repeated :
    after (exec .symStart { slaveIn .receiveData 0x80#8 0x20#8 false with
      s := { (slaveIn .receiveData 0x80#8 0x20#8 false).s with memWritten := true } })
      (fun t => (inByte t, t.s.memWritten)) = some ((3#5, 0#8, 0x80#8, false), true) := by decide

/-- V-S5: `P` from reset sets the bus-free flag and neither completion flag. -/
theorem test_sym_stop : after (exec .symStop State.reset)
    (fun t => (t.s.state, t.s.flagBusFree, t.s.flagWriteDone, t.s.flagReadDone)) =
    some (1#5, true, false, false) := by decide

/-- V-S6: `E` inside a byte: WaitForStart, the shift register kept, the write's flag set, the cursor restored. -/
theorem test_sym_error :
    after (exec .symError { slaveIn .receiveData 0xC0#8 0x20#8 false with
      s := { (slaveIn .receiveData 0xC0#8 0x20#8 false).s with cursor := 3, initCursor := 2, memWritten := true } })
      (fun t => (inByte t, t.s.cursor, t.s.flagWriteDone)) =
      some ((1#5, 0xC0#8, 0x20#8, false), 2, true) := by decide

/-- V-S7: `T` inside the address: WaitForStart, nothing dropped, no flag. -/
theorem test_sym_timeout : after (exec .symTimeout (slaveIn .receiveAddress 0x40#8 0x20#8 false))
    (fun t => (inByte t, t.s.flagWriteDone, t.s.flagReadDone)) =
    some ((1#5, 0x40#8, 0x20#8, false), false, false) := by decide

/-- V-S11: `V` changes nothing. -/
theorem test_sym_void : after (exec .symVoid (slaveIn .receiveData 0x12#8 0x04#8 false)) inByte =
    some (5#5, 0x12#8, 0x04#8, false) := by decide

/-- V-S2: the eighth bit of 0x42 is no match: Idle, no acknowledge driven. -/
theorem test_sym_re0_no_match : after (exec .symRe0 (slaveIn .receiveAddress 0x42#8 0x01#8 false))
    (fun t => (inByte t, slaveSda t)) = some ((1#5, 0x42#8, 0x00#8, false), true) := by decide

/-- V-S10: a readback that differs from the driven bit is a mismatch: Idle, SDA released. -/
theorem test_sym_re0_mismatch : after (exec .symRe0 (slaveIn .transmit 0xFF#8 0x40#8 false))
    (fun t => (inByte t, slaveSda t)) = some ((1#5, 0xFF#8, 0x40#8, false), true) := by decide

/-- V-S1: the eighth bit of 0x41 is a match: the whole byte is recorded. -/
theorem test_sym_re1_match : after (exec .symRe1 (slaveIn .receiveAddress 0x40#8 0x01#8 false))
    (fun t => (inByte t, t.s.decodedAddr)) = some ((3#5, 0x41#8, 0x00#8, false), 0x41#8) := by decide

/-- V-S12: with the not-acknowledge honoured the ninth rising edge with bit 1 goes to Idle and signals the read. -/
theorem test_sym_re1_nack :
    after (exec .symRe1 { slaveIn .transmit 0x11#8 0x00#8 true with
      s := { (slaveIn .transmit 0x11#8 0x00#8 true).s with cfg := { resetSlaveCfg with honoursNack := true } } })
      (fun t => (inByte t, t.s.flagReadDone)) = some ((1#5, 0x11#8, 0x00#8, true), true) := by decide

/-- V-S4: the falling edge after the eighth bit drives the acknowledge. -/
theorem test_sym_fe0_acknowledge : after (exec .symFe0 (slaveIn .receiveData 0x77#8 0x00#8 false))
    (fun t => (inByte t, slaveSda t)) = some ((5#5, 0x77#8, 0x00#8, true), false) := by decide

/-- V-S4: the falling edge that ends the acknowledge clock commits the byte, advances the cursor, releases SDA. -/
theorem test_sym_fe0_commit :
    after (exec .symFe0 { slaveIn .receiveData 0x77#8 0x00#8 true with
      s := { (slaveIn .receiveData 0x77#8 0x00#8 true).s with cursor := 2, initCursor := 2 } })
      (fun t => (inByte t, t.mem, t.s.cursor)) =
      some ((5#5, 0#8, 0x80#8, false), [(2, 0x77#8)], 3) := by decide

/-- V-S16: sub-address 0xFF modulo 16 is 15. -/
theorem test_sym_fe1_sub_address : after (exec .symFe1 (slaveIn .receiveSubAddress 0xFF#8 0x00#8 true))
    (fun t => (inByte t, t.s.cursor, t.s.initCursor)) = some ((5#5, 0#8, 0x80#8, false), 15, 15) := by decide

/-- V-S1: after a read address the byte at the cursor is staged and its bit 7 driven (0x5A: 0). -/
theorem test_sym_fe1_read_address :
    after (exec .symFe1 { slaveIn .receiveAddress 0x41#8 0x00#8 true with
      s := { (slaveIn .receiveAddress 0x41#8 0x00#8 true).s with decodedAddr := 0x41#8 }, mem := [(0, 0x5A#8)] })
      (fun t => (inByte t, slaveSda t)) = some ((6#5, 0x5A#8, 0x80#8, false), false) := by decide

/-! ## The snapshots -/

/-- V-C1: all 16 snapshots. -/
theorem test_classify :
    [0, 1, 2, 3, 4, 5, 6, 7, 8, 9, 10, 11, 12, 13, 14, 15].map (fun k => classify (BitVec.ofNat 4 k)) =
    [.void, .void, .fe0, .re0, .void, .void, .fe1, .re1, .void, .start, .error, .error, .void, .stop, .error, .error] := by
  decide

/-- The rows without effect, on an unstarted slave and inside a byte (V-C1, V-S11). -/
theorem test_snap_void :
    (∀ i ∈ [Instr.snap0000, .snap0001, .snap0100, .snap0101, .snap1000, .snap1100],
      after (exec i (slaveIn .receiveData 0x12#8 0x04#8 false)) inByte = some (5#5, 0x12#8, 0x04#8, false)) := by decide

/-- A rising edge takes the level of SDA as its bit (V-C2, R177). -/
theorem test_snap_rising :
    after (exec .snap0011 (slaveIn .receiveData 0x10#8 0x04#8 false)) inByte = some (5#5, 0x10#8, 0x02#8, false) ∧
    after (exec .snap0111 (slaveIn .receiveData 0x10#8 0x04#8 false)) inByte = some (5#5, 0x14#8, 0x02#8, false) := by
  decide

/-- A falling edge, whatever its bit, sets up the acknowledge after the eighth bit (R177, R168). -/
theorem test_snap_falling :
    ∀ i ∈ [Instr.snap0010, .snap0110],
      after (exec i (slaveIn .receiveData 0x77#8 0x00#8 false)) inByte = some (5#5, 0x77#8, 0x00#8, true) := by decide

/-- A Start and a Stop (V-C2, V-S5). -/
theorem test_snap_start_stop :
    after (exec .snap1001 State.reset) (fun t => (t.s.state, t.out.spy)) = some (3#5, ['S']) ∧
    after (exec .snap1101 State.reset) (fun t => (t.s.flagBusFree, t.out.spy)) = some (true, ['P', '\n']) := by decide

/-- Both latches: Error, so Idle (V-C4). -/
theorem test_snap_error :
    ∀ i ∈ [Instr.snap1010, .snap1011, .snap1110, .snap1111],
      after (exec i (slaveIn .receiveData 0x12#8 0x04#8 false)) (fun t => (t.s.state, t.out.spy)) =
        some (1#5, ['?']) := by decide

/-- V-C2 and V-C3: the capture reads latches and levels, and Timeout leaves the edge latch for the next invocation. -/
theorem test_capture :
    snapshot { State.reset with e := { State.reset.e with scl := true } } = 0b0111#4 ∧
    after (step { State.reset with e := { State.reset.e with scl := true, tmo := true } })
      (fun t => (t.e.tmo, t.e.scl)) = some (false, true) := by decide

/-! ## The states -/

/-- The hooks of V-S15: after a write ended by `P`, bus-free and then write-done; no flag where a hook is registered. -/
theorem test_state_idle :
    after (exec .stateIdle { State.reset with
      s := { State.reset.s with
        sym := .stop, memWritten := true
        cfg := { resetSlaveCfg with hookBusFree := true, hookWriteDone := true, hookReadDone := true } } })
      (fun t => (t.out.hooks, t.s.flagBusFree, t.s.memWritten, t.s.state)) =
      some ([.busFree, .writeDone], false, false, 1#5) := by decide

theorem test_state_wait_for_start :
    after (exec .stateWaitForStart { State.reset with s := { State.reset.s with sym := .start } })
      (fun t => (inByte t, t.s.busBusy)) = some ((3#5, 0#8, 0x80#8, false), true) := by decide

theorem test_state_start_bit_received :
    after (exec .stateStartBitReceived (slaveIn .receiveData 0x12#8 0x04#8 true)) (fun t => (inByte t, t.s.busBusy)) =
      some ((3#5, 0#8, 0x80#8, false), true) := by decide

/-- V-S1 with the symbol `RE1`. -/
theorem test_state_receive_address :
    after (exec .stateReceiveAddress { slaveIn .receiveAddress 0x40#8 0x01#8 false with
      s := { (slaveIn .receiveAddress 0x40#8 0x01#8 false).s with sym := .re1 } })
      (fun t => (inByte t, t.s.decodedAddr)) = some ((3#5, 0x41#8, 0x00#8, false), 0x41#8) := by decide

/-- V-S4 with the symbol `FE0`: 6 modulo 4 is 2. -/
theorem test_state_receive_sub_address :
    after (exec .stateReceiveSubAddress { slaveIn .receiveSubAddress 0x06#8 0x00#8 true with
      s := { (slaveIn .receiveSubAddress 0x06#8 0x00#8 true).s with
        sym := .fe0, cfg := { resetSlaveCfg with memSize := 4 } } })
      (fun t => (inByte t, t.s.cursor)) = some ((5#5, 0#8, 0x80#8, false), 2) := by decide

/-- V-S14 with the symbol `FE1`: with one byte of memory the cursor wraps to 0. -/
theorem test_state_receive_data :
    after (exec .stateReceiveData { slaveIn .receiveData 0xB2#8 0x00#8 true with
      s := { (slaveIn .receiveData 0xB2#8 0x00#8 true).s with
        sym := .fe1, cfg := { resetSlaveCfg with memSize := 1 } } })
      (fun t => (t.mem, t.s.cursor)) = some ([(0, 0xB2#8)], 0) := by decide

/-- V-S10 with the symbol `RE1`: the readback matches, the mask moves on. -/
theorem test_state_transmit :
    after (exec .stateTransmit { slaveIn .transmit 0xFF#8 0x80#8 false with
      s := { (slaveIn .transmit 0xFF#8 0x80#8 false).s with sym := .re1 } }) inByte =
      some (6#5, 0xFF#8, 0x40#8, false) := by decide

/-! ## The spy, the host, reset -/

/-- V-Y2's fourth bit: the nibble 1010 prints `A`, the counter becomes 4. -/
theorem test_spy_nibble :
    (fun t : State => (t.out.spy, t.s.spyCount, t.s.spyNibble)) (spyIfEnabled .re0 { State.reset with
      s := { State.reset.s with spyCount := 3#4, spyNibble := 0b101#4 } }) = (['A'], 4#4, 0#4) := by decide

/-- The host's operations of 46_common_semantics.md R201, one step each. -/
theorem test_host_memory :
    after (step (given (.memWrite 3 0x5A#8))) (fun t => t.mem) = some [(3, 0x5A#8)] ∧
    after (step (given (.memRead 3))) (fun t => t.out.received) = some [.memByte 3 0x00#8] ∧
    step (given (.memRead 16)) = .fault .memIndex := by
  refine ⟨by decide, by decide, rfl⟩

/-- Opcode 0x7F is BAD_COMMAND on any instance (V-R6), status 0x00000880. -/
theorem test_host_bad_opcode :
    after (step (given (.issue 0x7F#32 0#32 0#32 0#32))) (fun t => t.out.status) = some [0x00000880#32] := by decide

/-- `HostStatus` gives the word, and waits while micro-operations of a later command are left (R201). -/
theorem test_host_status :
    after (step { given .status with out := { State.reset.out with status := [0x00000980#32] } })
      (fun t => (t.m.busy, t.out.status, t.out.received)) = some (false, [], [.status 0x00000980#32]) ∧
    after (step { given .status with
      m := { (busMaster .i2c).m with busy := true, todo := [.micro .get] }
      out := { State.reset.out with status := [0x00000980#32] } })
      (fun t => (t.m.busy, t.inputs)) = some (true, [.status]) := by decide

/-- A construction with `MEM_SIZE` 0 leaves the slave halted with MEM_SIZE_ZERO (60_exceptions.md R228). -/
theorem test_host_construct_slave :
    after (step (given (.constructSlave { resetSlaveCfg with memSize := 0 } true)))
      (fun t => (t.s.fault, t.s.faultCode, t.e.enabled)) = some (true, 10#4, false) := by decide

/-- A table word placed at reset is what the next step runs. -/
theorem test_with_fetch_word :
    after (step (State.reset.withFetchWord 32 0)) (fun t => (t.out.status, t.m.bps)) = some ([0#32], 1#32) ∧
    after (step (State.reset.withFetchWord 4 9)) (fun t => t.s.state) = some 3#5 := by decide

/-! ## Witnesses: concrete states and operands that meet the hypotheses of each statement, clause by clause -/

theorem witness_DecodesExactlyTheAssignedCodes :
    (0xFFFFFF04#32 : Word).extractLsb' 0 8 ∉ opcodes ∧ (0x10#32 : Word).extractLsb' 0 8 ∉ opcodes ∧
    9 ≤ (9#4 : BitVec 4).toNat ∧ 9 ≤ (15#4 : BitVec 4).toNat ∧ 7 ≤ (7#5 : BitVec 5).toNat ∧
    7 ≤ (31#5 : BitVec 5).toNat := by decide

theorem witness_CommandFieldsAreTheTables :
    (0xFFFFFF00#32 : Word).extractLsb' 0 8 = 0x00#8 ∧ (0x01#32 : Word).extractLsb' 0 8 = 0x01#8 ∧
    (0x02#32 : Word).extractLsb' 0 8 = 0x02#8 ∧ (0x03#32 : Word).extractLsb' 0 8 = 0x03#8 ∧
    (0xFFFFFF11#32 : Word).extractLsb' 0 8 = 0x11#8 ∧ (0x12#32 : Word).extractLsb' 0 8 = 0x12#8 ∧
    (0x13#32 : Word).extractLsb' 0 8 = 0x13#8 := by decide

theorem witness_StepRunsTheIssuedCommand :
    (given (.issue 3#32 0#32 0#32 0#32)).inputs = .issue 3#32 0#32 0#32 0#32 :: [] ∧
    (given (.issue 3#32 0#32 0#32 0#32)).m.busy = false ∧
    (given (.issue 3#32 0#32 0#32 0#32)).turns = .outside :: [] ∧
    decode (.cmd 3#32 0#32 0#32 0#32) = .ok .stop ∧
    handlerReady (given (.issue 3#32 0#32 0#32 0#32)) = false ∧
    timerReady (given (.issue 3#32 0#32 0#32 0#32)) = false ∧
    ({ given (.issue 3#32 0#32 0#32 0#32) with turns := [] } : State).turns = [] ∧
    decode (.cmd 4#32 0#32 0#32 0#32) = .error (.reservedOpcode 4#8) ∧
    (given (.issue 4#32 0#32 0#32 0#32)).m.fault = false := by decide

/-- State.reset with its latches set as given, and the slave given the turn or no turn given. -/
def latched (sda scl tmo : Bool) (turns : List Turn) : State :=
  { State.reset with e := { sda := sda, scl := scl, tmo := tmo, enabled := true }, turns := turns }

theorem witness_StepRunsTheHandler :
    ((latched false true true [.slave]).turns = .slave :: [] ∧ (latched false true true [.slave]).e.tmo = true ∧
      (latched false true true [.slave]).s.fault = false ∧ decode (.sym 3#4) = .ok .symTimeout) ∧
    ((latched false true false []).turns = [] ∧ (latched false true false []).e.tmo = false ∧
      (latched false true false []).e.scl = true ∧ (latched false true false []).s.fault = false ∧
      decode (.snap (snapshot (latched false true false []))) = .ok .snap0111) := by decide

theorem witness_ClassifierTable :
    ((0b0101#4 : BitVec 4).getLsbD 3 = false ∧ (0b0101#4 : BitVec 4).getLsbD 1 = false) ∧
    ((0b0011#4 : BitVec 4).getLsbD 3 = false ∧ (0b0011#4 : BitVec 4).getLsbD 1 = true ∧
      (0b0011#4 : BitVec 4).getLsbD 0 = true) ∧
    ((0b0110#4 : BitVec 4).getLsbD 3 = false ∧ (0b0110#4 : BitVec 4).getLsbD 1 = true ∧
      (0b0110#4 : BitVec 4).getLsbD 0 = false) ∧
    ((0b1101#4 : BitVec 4).getLsbD 3 = true ∧ (0b1101#4 : BitVec 4).getLsbD 1 = false ∧
      (0b1101#4 : BitVec 4).getLsbD 0 = true) ∧
    ((0b1100#4 : BitVec 4).getLsbD 3 = true ∧ (0b1100#4 : BitVec 4).getLsbD 1 = false ∧
      (0b1100#4 : BitVec 4).getLsbD 0 = false) ∧
    ((0b1111#4 : BitVec 4).getLsbD 3 = true ∧ (0b1111#4 : BitVec 4).getLsbD 1 = true) := by decide

/-- The slave's invariant holds at State.reset. -/
theorem reset_slaveInv : SlaveInv State.reset := fun _ => by decide

/-- The master's invariant holds at State.reset. -/
theorem reset_masterInv : MasterInv State.reset := ⟨by decide, nofun, by decide, nofun⟩

theorem witness_SnapshotsAreClassifiedAndConsumed : State.reset.s.fault = false ∧ SlaveInv State.reset :=
  ⟨rfl, reset_slaveInv⟩

theorem witness_RestHandlesEverySymbol :
    Stored .waitForStart State.reset ∧ ∀ y, y ∈ [Symbol.re0, .re1, .fe0, .fe1] → y ≠ .void :=
  ⟨⟨rfl, rfl⟩, by decide⟩

theorem witness_DataStatesHandleFrameSymbolsAlike :
    ∀ x, x ∈ dataStates → Stored x (slaveIn x 0x12#8 0x04#8 false) := by
  intro x h
  exact ⟨rfl, by revert x; decide⟩

theorem witness_RisingEdgeAccumulates :
    (∀ x, x ∈ receiveStates → Stored x (slaveIn x 0#8 0x00#8 false) ∧ Stored x (slaveIn x 0#8 0x80#8 false)) ∧
    (slaveIn .receiveAddress 0#8 0x00#8 false).s.mask = 0#8 ∧
    (slaveIn .receiveAddress 0#8 0x02#8 false).s.mask ≠ 0#8 ∧
    (slaveIn .receiveAddress 0#8 0x02#8 false).s.mask >>> 1 ≠ 0#8 ∧
    (slaveIn .receiveData 0#8 0x01#8 false).s.mask ≠ 0#8 := by
  refine ⟨fun x h => ⟨⟨rfl, by revert x; decide⟩, ⟨rfl, by revert x; decide⟩⟩, by decide⟩

theorem witness_AddressCompare :
    Stored .receiveAddress (slaveIn .receiveAddress 0x40#8 0x01#8 false) ∧
    (slaveIn .receiveAddress 0x40#8 0x01#8 false).s.mask ≠ 0#8 ∧
    (slaveIn .receiveAddress 0x40#8 0x01#8 false).s.mask >>> 1 = 0#8 ∧
    addrMatch resetSlaveCfg (0x40#8 ||| 0x01#8) = true ∧ addrMatch resetSlaveCfg 0x42#8 = false ∧
    ({ resetSlaveCfg with addr := [] } : SlaveCfg).addr = [] ∧
    resetSlaveCfg.addr = [0x40#8, 0xB0#8, 0xC0#8, 0xD0#8] :=
  ⟨⟨rfl, rfl⟩, by decide⟩

theorem witness_AcknowledgeIsSetUp :
    (∀ x, x ∈ receiveStates → Stored x (slaveIn x 0#8 0x01#8 false) ∧ Stored x (slaveIn x 0#8 0x00#8 false)) ∧
    (slaveIn .receiveData 0#8 0x01#8 false).s.mask ≠ 0#8 ∧ (slaveIn .receiveData 0#8 0x00#8 false).s.mask = 0#8 ∧
    (slaveIn .receiveData 0#8 0x00#8 false).s.ackPhase = false :=
  ⟨fun x h => ⟨⟨rfl, by revert x; decide⟩, ⟨rfl, by revert x; decide⟩⟩, by decide⟩

/-- The slave at the end of an acknowledge clock, with an address and a cursor. -/
def acked (x : StateName) (a : Byte) (cursor size : Nat) : State :=
  { slaveIn x 0x40#8 0x00#8 true with
    s := { (slaveIn x 0x40#8 0x00#8 true).s with
      decodedAddr := a, cursor := cursor, cfg := { resetSlaveCfg with memSize := size } } }

theorem witness_AddressCommitBranches :
    Stored .receiveAddress (acked .receiveAddress 0x40#8 15 16) ∧
    (acked .receiveAddress 0x40#8 15 16).s.mask = 0#8 ∧ (acked .receiveAddress 0x40#8 15 16).s.ackPhase = true ∧
    (acked .receiveAddress 0x40#8 15 16).s.decodedAddr.getLsbD 0 = false ∧
    (acked .receiveAddress 0x41#8 15 16).s.decodedAddr.getLsbD 0 = true ∧
    (acked .receiveAddress 0x41#8 15 16).s.cursor < (acked .receiveAddress 0x41#8 15 16).s.cfg.memSize ∧
    (acked .receiveAddress 0x41#8 16 16).s.cfg.memSize ≤ (acked .receiveAddress 0x41#8 16 16).s.cursor :=
  ⟨⟨rfl, rfl⟩, by decide⟩

theorem witness_SubAddressCommit :
    Stored .receiveSubAddress (acked .receiveSubAddress 0x40#8 0 1) ∧
    (acked .receiveSubAddress 0x40#8 0 1).s.mask = 0#8 ∧ (acked .receiveSubAddress 0x40#8 0 1).s.ackPhase = true ∧
    (acked .receiveSubAddress 0x40#8 0 1).s.cfg.memSize ≠ 0 ∧
    (acked .receiveSubAddress 0x40#8 0 0).s.cfg.memSize = 0 :=
  ⟨⟨rfl, rfl⟩, by decide⟩

theorem witness_DataCommitStoresTheByte :
    Stored .receiveData (acked .receiveData 0x40#8 15 16) ∧ (acked .receiveData 0x40#8 15 16).s.mask = 0#8 ∧
    (acked .receiveData 0x40#8 15 16).s.ackPhase = true ∧
    (acked .receiveData 0x40#8 15 16).s.cursor < (acked .receiveData 0x40#8 15 16).s.cfg.memSize ∧
    (acked .receiveData 0x40#8 16 16).s.cfg.memSize ≤ (acked .receiveData 0x40#8 16 16).s.cursor ∧
    (acked .receiveData 0x40#8 15 16).mem.wf = true :=
  ⟨⟨rfl, rfl⟩, by decide⟩

/-- The same slave with the not-acknowledge honoured. -/
def honouring (x : State) : State :=
  { x with s := { x.s with cfg := { x.s.cfg with honoursNack := true } } }

theorem witness_TransmitOnRisingEdge :
    Stored .transmit (slaveIn .transmit 0x80#8 0x80#8 false) ∧ (slaveIn .transmit 0x80#8 0x80#8 false).s.mask ≠ 0#8 ∧
    true = decide ((slaveIn .transmit 0x80#8 0x80#8 false).s.sr &&& (slaveIn .transmit 0x80#8 0x80#8 false).s.mask ≠ 0#8) ∧
    false ≠ decide ((slaveIn .transmit 0x80#8 0x80#8 false).s.sr &&& (slaveIn .transmit 0x80#8 0x80#8 false).s.mask ≠ 0#8) ∧
    Stored .transmit (slaveIn .transmit 0x80#8 0x00#8 true) ∧ (slaveIn .transmit 0x80#8 0x00#8 true).s.mask = 0#8 ∧
    (slaveIn .transmit 0x80#8 0x00#8 true).s.cfg.honoursNack = false ∧
    (honouring (slaveIn .transmit 0x80#8 0x00#8 true)).s.cfg.honoursNack = true ∧
    (honouring (slaveIn .transmit 0x80#8 0x00#8 true)).s.ackPhase = true :=
  ⟨⟨rfl, rfl⟩, by decide, by decide, by decide, ⟨rfl, rfl⟩, by decide⟩

theorem witness_TransmitOnFallingEdge :
    Stored .transmit (slaveIn .transmit 0x80#8 0x01#8 false) ∧ (slaveIn .transmit 0x80#8 0x01#8 false).s.mask ≠ 0#8 ∧
    (slaveIn .transmit 0x80#8 0x00#8 false).s.mask = 0#8 ∧ (slaveIn .transmit 0x80#8 0x00#8 false).s.ackPhase = false ∧
    Stored .transmit (acked .transmit 0x41#8 15 16) ∧ (acked .transmit 0x41#8 15 16).s.mask = 0#8 ∧
    (acked .transmit 0x41#8 15 16).s.ackPhase = true ∧ (acked .transmit 0x41#8 15 16).s.cfg.memSize ≠ 0 ∧
    0 = ((acked .transmit 0x41#8 15 16).s.cursor + 1) % (acked .transmit 0x41#8 15 16).s.cfg.memSize ∧
    (acked .transmit 0x41#8 0 0).s.cfg.memSize = 0 :=
  ⟨⟨rfl, rfl⟩, by decide, by decide, by decide, ⟨rfl, rfl⟩, by decide⟩

theorem witness_FallingEdgeBitIsUnused :
    Stored .waitForStart State.reset ∧ ∀ x, x ∈ dataStates → Stored x (slaveIn x 0#8 0x00#8 true) :=
  ⟨⟨rfl, rfl⟩, fun x h => ⟨rfl, by revert x; decide⟩⟩

theorem witness_BadStateLatches :
    State.reset.s.fault = false ∧ storedState 0#5 = none ∧ storedState 2#5 = none ∧ storedState 7#5 = none ∧
    storedState 31#5 = none := by decide

theorem witness_SerialByteIsStored :
    Stored .receiveData (slaveIn .receiveData 0#8 0x80#8 false) ∧
    (slaveIn .receiveData 0#8 0x80#8 false).s.mask = 0x80#8 ∧ (slaveIn .receiveData 0#8 0x80#8 false).s.ackPhase = false ∧
    (slaveIn .receiveData 0#8 0x80#8 false).s.sr = 0#8 ∧
    (slaveIn .receiveData 0#8 0x80#8 false).s.cursor < (slaveIn .receiveData 0#8 0x80#8 false).s.cfg.memSize :=
  ⟨⟨rfl, rfl⟩, by decide⟩

theorem witness_PassThroughRows : State.reset.s.fault = false := rfl

theorem witness_StateRowsAreTheDispatchers :
    ∀ x, x = .waitForStart ∨ x ∈ dataStates →
      State.reset.s.fault = false ∧ SlaveInv { State.reset with s := { State.reset.s with state := stateCode x } } := by
  intro x h
  refine ⟨rfl, fun _ => ?_⟩
  simp only [dataStates, List.mem_cons, List.not_mem_nil, or_false] at h
  rcases h with rfl | rfl | rfl | rfl | rfl <;> decide

theorem witness_SpyEffectPerSymbol :
    State.reset.s.cfg.spyEn = true ∧
    ((0#4 : BitVec 4).toNat < 8 ∧ (0#4 : BitVec 4) ≠ 3#4 ∧ (0#4 : BitVec 4) ≠ 7#4) ∧
    ({ State.reset with s := { State.reset.s with spyCount := 7#4 } } : State).s.spyCount = 7#4 ∧
    ({ State.reset with s := { State.reset.s with spyCount := 8#4 } } : State).s.spyCount = 8#4 := by decide

theorem witness_SpyNeverInterferes :
    State.reset.s.cfg.spyEn = true ∧
    ({ State.reset with s := { State.reset.s with cfg := { resetSlaveCfg with spyEn := false } } } : State).s.cfg.spyEn =
      false := by decide

theorem witness_SpyCounterInvariant : SpyInv State.reset ∧ ∃ t, step State.reset = .next t :=
  ⟨by unfold SpyInv; decide, _, rfl⟩

theorem witness_LineLevelIsTheWiredAnd : State.reset.shared = true ∧ (busMaster .i2c).shared = false := by decide

/-- The environment pulls a line low: the level changes, and the latch is set. -/
theorem witness_LevelChangesSetTheLatch :
    after (step (given (.envDrive .sSda false))) (fun t => (sdaAtSlave t, t.e.sda)) = some (false, true) ∧
    sdaAtSlave (given (.envDrive .sSda false)) = true ∧ (given (.envDrive .sSda false)).e.enabled = true ∧
    handlerReady (given (.envDrive .sSda false)) = false ∧
    after (step (given (.envDrive .sScl false))) sclAtSlave = some false ∧
    sclAtSlave (given (.envDrive .sScl false)) = true ∧
    ∀ t : State, ¬ ∃ c p r, (given (.envDrive .sSda false)).inputs = .constructSlave c p :: r ∧ t.inputs = r := by
  refine ⟨by decide, by decide, by decide, by decide, by decide, by decide, ?_⟩
  rintro t ⟨c, p, r, h, -⟩
  cases h

/-- A live slave with every latch set, and the turn given to each of the other agents, a construction of the slave waiting
for the outside's turn. -/
theorem witness_LevelChangesSetTheLatch_live :
    (∀ x ∈ [Turn.master, .timer, .outside],
      after (step (latched true true true [x])) (fun t => (t.e.sda, t.e.scl, t.e.tmo)) = some (true, true, true) ∧
      (latched true true true [x]).turns = x :: [] ∧ x ≠ .slave ∧
      handlerReady (latched true true true [x]) = true ∧ (latched true true true [x]).inputs = []) ∧
    after (step { latched true true true [.master] with inputs := [.constructSlave resetSlaveCfg true] })
      (fun t => (t.e.sda, t.e.scl, t.inputs)) = some (true, true, [.constructSlave resetSlaveCfg true]) := by
  refine ⟨?_, by decide⟩
  intro x h
  simp only [List.mem_cons, List.not_mem_nil, or_false] at h
  rcases h with rfl | rfl | rfl <;> exact ⟨by decide, rfl, nofun, by decide, rfl⟩

/-- The reset master without a timer, its clock known or not. -/
def untimed (hz : Option Nat) : State :=
  { State.reset with
    m := { State.reset.m with cfg := { resetMasterCfg with timerHooked := false } }
    ct := { State.reset.ct with coreHz := hz } }

theorem witness_CfgConfigures :
    Wired State.reset ∧ (effectiveRate resetMasterCfg 400000#32).toNat ≤ (maxRate resetMasterCfg).toNat ∧
    timerParam resetMasterCfg 400000#32 ≠ 0 ∧
    Wired (untimed (some 16000000)) ∧ timerParam (untimed (some 16000000)).m.cfg 400000#32 = 0 ∧
    (untimed (some 16000000)).ct.coreHz = some 16000000 ∧
    waitParamSpin (untimed (some 16000000)).m.cfg.waitFns (400000#32 : Word).toNat 16000000 ≠ 0 ∧
    (untimed none).m.cfg.timerHooked = false ∧ resetMasterCfg.timerHooked = true ∧
    (untimed none).ct.coreHz = none ∧ (1 : Nat) ≠ 0 ∧ (1#32 : Word) ≠ 0#32 ∧ resetMasterCfg.variant = .i2c ∧
    (busMaster .rffe).m.cfg.variant = .rffe :=
  ⟨⟨rfl, rfl, rfl, rfl⟩, by decide, by decide, ⟨rfl, rfl, rfl, rfl⟩, by decide⟩

theorem witness_CfgFaultsInOrder :
    State.reset.m.busy = false ∧ State.reset.m.fault = false ∧ State.reset.m.pinsOk = true ∧
    State.reset.m.clockTreeOk = true ∧
    (maxRate resetMasterCfg).toNat < (effectiveRate resetMasterCfg 400001#32).toNat ∧
    (masterReset resetMasterCfg false false).pinsOk = false ∧
    (masterReset resetMasterCfg true false).clockTreeOk = false ∧
    (effectiveRate (untimed (some 400000)).m.cfg 400000#32).toNat ≤ (maxRate (untimed (some 400000)).m.cfg).toNat ∧
    timerParam (untimed (some 400000)).m.cfg 400000#32 = 0 ∧ (untimed (some 400000)).ct.coreHz = some 400000 ∧
    waitParamSpin (untimed (some 400000)).m.cfg.waitFns (400000#32 : Word).toNat 400000 = 0 := by decide

/-- A configured master accepts the commands of its family. -/
theorem busMaster_accepts (v : Variant) : Accepts v (busMaster v) := ⟨rfl, rfl, nofun, rfl⟩

theorem witness_StartBegins : Accepts .i2c (busMaster .i2c) := busMaster_accepts .i2c

theorem witness_StopAndRparkBegin : Accepts .i2c (busMaster .i2c) ∧ Accepts .rffe (busMaster .rffe) :=
  ⟨busMaster_accepts .i2c, busMaster_accepts .rffe⟩

theorem witness_MoveBegins :
    Accepts .i2c (addressed 0x41#8) ∧ (addressed 0x41#8).m.addr.getLsbD 0 = true ∧
    Accepts .i2c (addressed 0x40#8) ∧ (addressed 0x40#8).m.addr.getLsbD 0 = false ∧
    (addressed 0x40#8).m.ackFail = false ∧ 0 < (1#32 : Word).toNat ∧ Accepts .i2c (nacked 0x40#8) ∧
    (nacked 0x40#8).m.addr.getLsbD 0 = false ∧ (nacked 0x40#8).m.ackFail = true :=
  ⟨⟨rfl, rfl, nofun, rfl⟩, by decide, ⟨rfl, rfl, nofun, rfl⟩, by decide, by decide, by decide,
    ⟨rfl, rfl, nofun, rfl⟩, by decide⟩

theorem witness_RstartBegins : Accepts .rffe (busMaster .rffe) := busMaster_accepts .rffe

theorem witness_RmoveTestsAndBegins :
    Accepts .rffe (busMaster .rffe) ∧ (1#32 : Word) ≠ 0#32 ∧ ((0#32 : Word) = 0#32 ∨ (1#32 : Word) = 0#32) :=
  ⟨busMaster_accepts .rffe, by decide⟩

/-- A master with one micro-operation next and another, or nothing, after it. -/
def atMicro (v : Variant) (u : Micro) (rest : List Op) : State :=
  { busMaster v with
    m := { (busMaster v).m with busy := true, todo := .micro u :: rest }
    env := { State.reset.env with samples := [true] } }

theorem witness_MicroOperationsAct :
    (atMicro .i2c .get [.micro .wait]).m.todo = .micro .get :: [.micro .wait] ∧
    (atMicro .i2c .get [.micro .wait]).m.cfg.variant = .i2c ∧
    (atMicro .rffe .get []).m.cfg.variant = .rffe ∧ (atMicro .rffe .get []).env.samples = true :: [] ∧
    ({ atMicro .rffe .get [] with env := State.reset.env } : State).env.samples = [] ∧
    (atMicro .i2c .relSda []).m.todo = .micro .relSda :: [] ∧
    ({ atMicro .i2c .get [] with turns := [.master] } : State).turns = .master :: [] ∧
    (atMicro .i2c .get []).m.busy = true ∧ (atMicro .i2c .get []).m.fault = false ∧
    masterReady (atMicro .i2c .get []) = true ∧ masterReady State.reset = false := by decide

theorem witness_WaitBlocksUntilDone :
    (waitingMaster .timer 0#16 false false).m.todo = .micro .wait :: [.micro .get] ∧
    (waitingMaster .spin 2#16 false false).m.strategy = .spin ∧
    (waitingMaster .timer 2#16 false false).m.strategy = .timer ∧
    (waitingMaster .timer 2#16 false false).m.waiting = false ∧
    (waitingMaster .timer 2#16 true false).m.waiting = true ∧ (waitingMaster .timer 2#16 true false).timer.done = false ∧
    (waitingMaster .timer 2#16 true true).timer.done = true ∧
    0 = (waitingMaster .timer 0#16 false false).m.waitParam.toNat * (waitingMaster .timer 0#16 false false).m.th.toNat ∧
    (waitingMaster .timer 2#16 false false).m.waitParam.toNat *
      (waitingMaster .timer 2#16 false false).m.th.toNat ≠ 0 := by decide

theorem witness_StuckLineRunsEightStops :
    (atMicro .i2c .get [.stuckTest, .micro (.scl true), .micro .wait, .micro (.sda false), .micro .wait,
      .micro (.scl false), .txByte 0x40#8]).m.todo =
      .micro .get :: .stuckTest :: [.micro (.scl true), .micro .wait, .micro (.sda false), .micro .wait,
        .micro (.scl false), .txByte 0x40#8] ∧
    (atMicro .i2c .get []).m.cfg.variant = .i2c ∧ sdaAtMaster (atMicro .i2c .get []) = true ∧
    sdaAtMaster { atMicro .i2c .get [] with env := { State.reset.env with mSda := false } } = false := by decide

theorem witness_NackSkipsBytesButStops :
    Accepts .i2c (nacked 0x42#8) ∧ (nacked 0x42#8).m.addr.getLsbD 0 = false ∧ (nacked 0x42#8).m.ackFail = true :=
  ⟨⟨rfl, rfl, nofun, rfl⟩, by decide⟩

theorem witness_EveryCommandEnds :
    busCommandOf (.rmove 1#32 0#32 2#32) = some .rffe ∧ Accepts .rffe (busMaster .rffe) ∧
    (busMaster .rffe).m.strategy = .spin ∧ RmoveLegal 1#32 0#32 2#32 ∧ RmoveLegal 0#32 1#32 2#32 ∧
    busCommandOf (.start 0x40#8) = some .i2c ∧ Accepts .i2c (busMaster .i2c) ∧ (busMaster .i2c).out.status = [] :=
  ⟨rfl, busMaster_accepts .rffe, rfl, by unfold RmoveLegal; decide, by unfold RmoveLegal; decide, rfl,
    busMaster_accepts .i2c, rfl⟩

theorem witness_StopAndRparkRunToTheirEnds :
    Accepts .i2c (busMaster .i2c) ∧ (busMaster .i2c).m.strategy = .spin ∧ Accepts .rffe (busMaster .rffe) ∧
    (busMaster .rffe).m.strategy = .spin :=
  ⟨busMaster_accepts .i2c, rfl, busMaster_accepts .rffe, rfl⟩

theorem witness_StartAloneIsNotAcknowledged :
    Accepts .i2c (busMaster .i2c) ∧ (busMaster .i2c).m.strategy = .spin ∧ (busMaster .i2c).shared = false ∧
    (busMaster .i2c).env.mSda = true ∧ (busMaster .i2c).m.parityErr = false ∧ (busMaster .i2c).m.faultCode = 0#4 :=
  ⟨busMaster_accepts .i2c, by decide⟩

/-- V-R4: the samples 1 0 1 0 0 1 0 1 of 0xA5, its parity bit 1, and one more sample. -/
theorem witness_RffeByteIsTheSamples :
    Accepts .rffe { busMaster .rffe with
      env := { State.reset.env with samples := [true, false, true, false, false, true, false, true, true, false] } } ∧
    (busMaster .rffe).m.strategy = .spin ∧ (1#32 : Word) ≠ 0#32 ∧
    [true, false, true, false, false, true, false, true, true, false] =
      [7, 6, 5, 4, 3, 2, 1, 0].map (0xA5#8 : Byte).getLsbD ++ true :: [false] :=
  ⟨⟨rfl, rfl, nofun, rfl⟩, by decide⟩

theorem witness_StatusWordLayout : ∀ j, j ∈ [2, 6, 12, 31, 32] → j ≠ 0 ∧ j ≠ 1 ∧ j ≠ 7 ∧ (j < 8 ∨ 12 ≤ j) := by decide

theorem witness_RaisingLatchesTheFault :
    ({ resetSlaveCfg with memSize := 0 } : SlaveCfg).memSize = 0 ∧ resetSlaveCfg.memSize ≠ 0 ∧
    ({ resetSlaveCfg with memSize := 1 } : SlaveCfg).memSize ≠ 0 := by decide

theorem witness_CommandDecodeOrder :
    haltedMaster.m.busy = false ∧ haltedMaster.m.fault = true ∧ State.reset.m.busy = false ∧
    State.reset.m.fault = false ∧ (0x04#32 : Word).extractLsb' 0 8 ∉ opcodes ∧
    decode (.cmd 0#32 1#32 2#32 3#32) = .ok (.cfg 1#32 2#16 0#16) ∧ decode (.cmd 3#32 0#32 0#32 0#32) = .ok .stop ∧
    busCommandOf .stop = some .i2c ∧ State.reset.m.strategy = .none ∧ (busMaster .rffe).m.strategy ≠ .none ∧
    (busMaster .rffe).m.cfg.variant ≠ .i2c ∧ (busMaster .i2c).m.cfg.variant = .i2c := by decide

theorem witness_HaltedContextsOnlyRefuse :
    isSlaveRow .stop = false ∧ haltedMaster.m.fault = true ∧ haltedMaster.m.busy = false ∧
    isSlaveRow .symStart = true ∧ haltedSlave.s.fault = true := by decide

theorem witness_FaultLatchesClearOnlyByConstruction :
    haltedMaster.m.fault = true ∧ haltedSlave.s.fault = true ∧ (∃ t, step haltedMaster = .next t) ∧
    (∃ t, step haltedSlave = .next t) ∧
    after (step { haltedMaster with inputs := [.constructMaster resetMasterCfg true true], turns := [.outside] })
      (fun t => (t.m.fault, t.inputs)) = some (false, []) ∧
    after (step { haltedSlave with inputs := [.constructSlave resetSlaveCfg true], turns := [.master] })
      (fun t => (t.s.fault, t.inputs.length)) = some (true, 1) :=
  ⟨rfl, rfl, ⟨_, rfl⟩, ⟨_, rfl⟩, by decide, by decide⟩

theorem witness_ResetValues : State.reset.s.pinsOk = true ∧ State.reset.s.cfg.memSize ≠ 0 := by decide

theorem witness_SlaveInvariantKept : SlaveInv State.reset ∧ ∃ t, step State.reset = .next t :=
  ⟨reset_slaveInv, _, rfl⟩

theorem witness_DriveInvariantKept :
    SlaveInv State.reset ∧ DriveInv State.reset ∧ ∃ t, step State.reset = .next t :=
  ⟨reset_slaveInv, fun _ => by decide, _, rfl⟩

theorem witness_MasterInvariantKept : MasterInv State.reset ∧ ∃ t, step State.reset = .next t :=
  ⟨reset_masterInv, _, rfl⟩

theorem witness_MemoriesKeepCanonicalForm :
    MemoriesWf (given (.memWrite 15 1#8)) ∧ after (step (given (.memWrite 15 1#8))) (fun t => t.mem) = some [(15, 1#8)] ∧
    Memory.wf [(0, 1#8), (15, 2#8)] = true :=
  ⟨⟨rfl, rfl⟩, by decide, by decide⟩

/-- One witness for each of the three ways: a step that leaves the memory, a commit, a host's write. -/
theorem witness_BackingMemoryChangesOnlyByCommitOrHost :
    after (step State.reset) (fun t => t.mem) = some [] ∧
    after (step { acked .receiveData 0x40#8 15 16 with
      e := { State.reset.e with scl := true }, env := { State.reset.env with sScl := false } }) (fun t => t.mem) =
      some [(15, 0x40#8)] ∧
    after (step (given (.memWrite 3 1#8))) (fun t => t.mem) = some [(3, 1#8)] := by decide

/-- A master at a `Wait` whose countdown runs and never finishes. -/
def deadWait : State :=
  { waitingMaster .timer 2#16 true false with timer := { running := true, count := 10, done := false, dead := true } }

/-- The stops the statement lists: the countdown that never finishes, an index outside the memory, a hook not registered. -/
theorem witness_StepStopsOnlyOutsideTheRows :
    SlaveInv State.reset ∧ MasterInv State.reset ∧
    (SlaveInv deadWait ∧ MasterInv deadWait ∧ step deadWait = .fault .timerStuck) ∧
    step (given (.memRead 16)) = .fault .memIndex ∧ step (given (.hookEvent .busFree)) = .fault .hostPrecondition :=
  ⟨reset_slaveInv, reset_masterInv,
    ⟨fun _ => by decide, ⟨by decide, fun _ => ⟨nofun, rfl, _, _, rfl⟩, nofun, fun _ => .inl rfl⟩, rfl⟩,
    rfl, rfl⟩

/-- The master's invariant where a command is left to run. -/
theorem witness_MasterInvariantKept_busy : MasterInv (waitingMaster .spin 2#16 false false) :=
  ⟨by decide, fun _ => ⟨nofun, rfl, _, _, rfl⟩, nofun, nofun⟩

theorem witness_ContextsOwnTheirState :
    (∃ t, isSlaveRow .symStart = true ∧ exec .symStart State.reset = .next t) ∧
    (∃ t, isSlaveRow .stop = false ∧ exec .stop (busMaster .i2c) = .next t) ∧
    ∃ t, masterStep (atMicro .i2c .get []) = .next t :=
  ⟨⟨_, rfl, rfl⟩, ⟨_, rfl, rfl⟩, ⟨_, rfl⟩⟩

theorem witness_HostOperations :
    (∃ t, applyInput .timeout State.reset = .next t) ∧
    ({ State.reset with out := { State.reset.out with status := [1#32] } } : State).out.status = 1#32 :: [] ∧
    15 < State.reset.s.cfg.memSize ∧
    hookEn { resetSlaveCfg with hookReadDone := true } .readDone = true ∧
    ({ State.reset with out := { State.reset.out with hooks := [.readDone] } } : State).out.hooks = .readDone :: [] ∧
    State.reset.s.cfg.spyEn = true ∧ (∀ c p, Input.timeout ≠ .constructSlave c p) ∧
    (∀ c p k, Input.timeout ≠ .constructMaster c p k) ∧ (∀ p0 p1 p2 p3, Input.timeout ≠ .issue p0 p1 p2 p3) ∧
    Input.timeout ≠ .status ∧ ({ State.reset with turns := [.timer] } : State).turns = .timer :: [] ∧
    (given .status).inputs = .status :: [] ∧ (given .status).turns = .outside :: [] ∧
    inputReady .timeout (given .timeout) = true ∧ inputReady .status (given .status) = false ∧
    State.reset.timer.running = false ∧ (armTimer 5 State.reset).timer.running = true ∧
    (armTimer 5 State.reset).timer.dead = false := by
  refine ⟨⟨_, rfl⟩, rfl, by decide, rfl, rfl, rfl, ?_, ?_, ?_, ?_, rfl, rfl, rfl, rfl, rfl, rfl, rfl, rfl⟩ <;> intros <;> nofun

end Sys2Proof.Tests
end

section
/-! PROOFS. The encodings of 30_encoding.md: the fields a command word is decoded into (R70) and the bits of the status
word (R72). -/

namespace Sys2Proof.Encoding

open Sys2Proof Sys2Proof.Machine

/-- `P[0]` counts only through its opcode byte: `P[0][31:8]` is ignored (30_encoding.md R70). -/
theorem decode_cmd_congr_opcode {p0 q0 p1 p2 p3 : Word} (h : p0.extractLsb' 0 8 = q0.extractLsb' 0 8) :
    decode (.cmd p0 p1 p2 p3) = decode (.cmd q0 p1 p2 p3) := by
  simp only [decode, decodeCmd, h]

/-- Settles O3: the opcode byte may be completed with zeros, and with `P[0]` written out the decoder computes the row. -/
theorem commandFieldsAreTheTables : Obligations.CommandFieldsAreTheTables := by
  intro p0 p1 p2 p3
  refine ⟨fun h => ?cfg, fun h => ?start, fun h => ?move, fun h => ?stop, fun h => ?rstart, fun h => ?rmove,
    fun h => ?rpark⟩
  case cfg => exact decode_cmd_congr_opcode (q0 := 0x00#32) h
  case start => exact decode_cmd_congr_opcode (q0 := 0x01#32) h
  case move => exact decode_cmd_congr_opcode (q0 := 0x02#32) h
  case stop => exact decode_cmd_congr_opcode (q0 := 0x03#32) h
  case rstart => exact decode_cmd_congr_opcode (q0 := 0x11#32) h
  case rmove => exact decode_cmd_congr_opcode (q0 := 0x12#32) h
  case rpark => exact decode_cmd_congr_opcode (q0 := 0x13#32) h

/-- A flag shifted to bit `n` of a word stands at that bit and nowhere else. -/
theorem getLsbD_flag_shiftLeft (b : Bool) {n : Nat} (hn : n < 32) (j : Nat) :
    ((BitVec.ofBool b).setWidth 32 <<< n).getLsbD j = (decide (j = n) && b) := by
  rw [BitVec.getLsbD_shiftLeft, BitVec.getLsbD_setWidth, BitVec.getLsbD_ofBool]
  grind

/-- Every bit of the status word: three flags, and the fault code from bit 8 upward (30_encoding.md R72). -/
theorem getLsbD_statusWord (m : Master) (j : Nat) :
    (statusWord m).getLsbD j =
      (decide (j = 0) && m.ackFail || decide (j = 1) && m.parityErr || decide (j = 7) && m.fault ||
        decide (8 ≤ j) && m.faultCode.getLsbD (j - 8)) := by
  have hack : ((BitVec.ofBool m.ackFail).setWidth 32).getLsbD j = (decide (j = 0) && m.ackFail) := by
    simpa using getLsbD_flag_shiftLeft m.ackFail (n := 0) (by decide) j
  have hcode : (m.faultCode.setWidth 32 <<< 8).getLsbD j = (decide (8 ≤ j) && m.faultCode.getLsbD (j - 8)) := by
    have hwide : 32 ≤ j → m.faultCode.getLsbD (j - 8) = false := fun h =>
      BitVec.getLsbD_of_ge _ _ (by omega)
    rw [BitVec.getLsbD_shiftLeft, BitVec.getLsbD_setWidth]
    grind
  rw [statusWord, BitVec.getLsbD_or, BitVec.getLsbD_or, BitVec.getLsbD_or, hack,
    getLsbD_flag_shiftLeft m.parityErr (by decide), getLsbD_flag_shiftLeft m.fault (by decide), hcode]

/-- Settles O46: each clause reads one bit, or the four bits of the fault code, off `getLsbD_statusWord`. -/
theorem statusWordLayout : Obligations.StatusWordLayout := by
  intro m
  refine ⟨?ackFail, ?parityErr, ?fault, ?faultCode, ?reserved⟩
  case ackFail => rw [getLsbD_statusWord]; simp
  case parityErr => rw [getLsbD_statusWord]; simp
  case fault => rw [getLsbD_statusWord]; simp
  case faultCode =>
    refine BitVec.eq_of_getLsbD_eq fun i hi => ?_
    have h1 : 8 + i ≠ 1 := by omega
    have h7 : 8 + i ≠ 7 := by omega
    simp [getLsbD_statusWord, hi, h1, h7]
  case reserved =>
    intro j h0 h1 h7 hj
    have hcode : 8 ≤ j → m.faultCode.getLsbD (j - 8) = false := fun h =>
      BitVec.getLsbD_of_ge _ _ (by omega)
    simpa [getLsbD_statusWord, h0, h1, h7] using hcode

end Sys2Proof.Encoding
end

section
/-! PROOFS. The odd-parity bit of 42_master_rffe.md (R133). -/

namespace Sys2Proof.Parity

open Sys2Proof Sys2Proof.Machine

/-- The Boolean form of the parity bit computes R133's formula, at every width. -/
theorem toNat_parity {w : Nat} (v : BitVec w) : (parity v).toNat = 1 - popcount v % 2 := by
  obtain heven | hodd := Nat.mod_two_eq_zero_or_one (popcount v)
  · simp [parity, heven]
  · simp [parity, hodd]

/-- A frame of a value and its parity bit holds an odd number of 1 bits, at every width. -/
theorem popcount_add_parity_mod_two {w : Nat} (v : BitVec w) : (popcount v + (parity v).toNat) % 2 = 1 := by
  rw [toNat_parity]
  omega

/-- Settles O45: both widths are instances of the laws for every width, and the eight examples are computed. -/
theorem parityMakesTheCountOdd : Obligations.ParityMakesTheCountOdd := by
  refine ⟨fun v => ?byte, fun v => ?command, ?examples⟩
  case byte => exact ⟨toNat_parity v, popcount_add_parity_mod_two v⟩
  case command => exact ⟨toNat_parity v, popcount_add_parity_mod_two v⟩
  case examples => decide

end Sys2Proof.Parity
end

section
/-! PROOFS. The classifier table of 43_classifier.md (R152) against its prose in 30_encoding.md (R62). -/

namespace Sys2Proof.Classifier

open Sys2Proof Sys2Proof.Machine Sys2Proof.Safety

/-- The table in words: which latches are set decides first, the levels of SDA and SCL second (30_encoding.md R62). -/
def symbolOfBits (eSda lSda eScl lScl : Bool) : Symbol :=
  match eSda, eScl with
  | false, false => .void
  | false, true => if lScl then rising lSda else if lSda then .fe1 else .fe0
  | true, false => if lScl then (if lSda then .stop else .start) else .void
  | true, true => .error

/-- Every entry of the table is the symbol the prose gives the snapshot's four bits: one comparison per entry. -/
theorem classify_eq_symbolOfBits :
    ∀ c : BitVec 4, classify c = symbolOfBits (c.getLsbD 3) (c.getLsbD 2) (c.getLsbD 1) (c.getLsbD 0) := by decide

/-- Settles O7: the entries are read off the table, and each clause in words is a case of `classify_eq_symbolOfBits`. -/
theorem classifierTable : Obligations.ClassifierTable := by
  refine ⟨?entries, fun c => ?words⟩
  case entries => decide
  case words =>
    rw [classify_eq_symbolOfBits]
    refine ⟨?noLatch, ?risingEdge, ?fallingEdge, ?startStop, ?sdaAtLowScl, ?bothLatches⟩
    case noLatch => intro hSda hScl; rw [hSda, hScl]; rfl
    case risingEdge => intro hSda hScl hHigh; rw [hSda, hScl, hHigh]; rfl
    case fallingEdge => intro hSda hScl hLow; rw [hSda, hScl, hLow]; rfl
    case startStop => intro hSda hScl hHigh; rw [hSda, hScl, hHigh]; rfl
    case sdaAtLowScl => intro hSda hScl hLow; rw [hSda, hScl, hLow]; rfl
    case bothLatches => intro hSda hScl; rw [hSda, hScl]; rfl

end Sys2Proof.Classifier
end

section
/-! PROOFS. Rows of the slave state machine (44_slave_fsm.md): the frame symbols in every stored state (R173, R174,
R176), the address compare (R178, R189), the acknowledge (R179, R181, R183), and Transmit on a rising edge (R185, R186). -/

namespace Sys2Proof.SlaveFsm

open Sys2Proof Sys2Proof.Machine Sys2Proof.Safety

/-! ## The state function of every stored state is COMMON (R176) -/

/-- A receive state is COMMON around an accumulation and ACKEDGE with its own commit (R177, R178, R181, R183). -/
theorem stateFn_receive {x : StateName} (hx : x ∈ receiveStates) :
    ∃ rise commit, ∀ y s, stateFn x y s = commonFn x rise (ackEdge x commit) y s := by
  simp only [receiveStates, List.mem_cons, List.not_mem_nil, or_false] at hx
  obtain rfl | rfl | rfl := hx
  · exact ⟨addressRise, addressCommit, fun _ _ => rfl⟩
  · exact ⟨fun b s => .ok (s.setS (accum b s.s), .receiveSubAddress), subAddressCommit, fun _ _ => rfl⟩
  · exact ⟨fun b s => .ok (s.setS (accum b s.s), .receiveData), dataCommit, fun _ _ => rfl⟩

/-- COMMON of R176 is what every stored state does around its own two edge answers; WaitForStart's ignore the edge. -/
theorem stateFn_eq_commonFn {x : StateName} (hx : passThrough x = false) :
    ∃ rise fall, ∀ y s, stateFn x y s = commonFn x rise fall y s := by
  cases x with
  | idle | startBitReceived => cases hx
  | waitForStart =>
    exact ⟨fun _ s => .ok (s, .waitForStart), fun s => .ok (s, .waitForStart), fun y _ => by cases y <;> rfl⟩
  | receiveAddress | receiveSubAddress | receiveData =>
    exact (stateFn_receive (by decide)).imp fun _ ⟨commit, hcommon⟩ => ⟨ackEdge _ commit, hcommon⟩
  | transmit => exact ⟨transmitRise, transmitFall, fun _ _ => rfl⟩

/-! ## The frame symbols, in every stored state -/

theorem spyIfEnabled_void (s : State) : spyIfEnabled .void s = s := ite_self s

section

variable {x : StateName} {s : State} (h : Stored x s)
include h

/-- A symbol the state function answers with no action and no move leaves the slave as it was, up to the spy and the
model's record of the symbol. -/
theorem exec_symbol_ignored {y : Symbol} (hy : stateFn x y (withSym y s) = .ok (withSym y s, x)) :
    exec (symbolInstr y) s = .next (spyIfEnabled y (withSym y s)) := exec_symbol_stays h hy

/-- Start passes through StartBitReceived (R173, R175, R176). -/
theorem exec_symStart_stored :
    exec .symStart s = .next (spyIfEnabled .start { s with
      s := { s.s with
      sym := .start, busBusy := true, sr := 0#8, mask := 0x80#8, ackPhase := false,
      state := stateCode .receiveAddress } }) := by
  obtain ⟨rise, fall, hcommon⟩ := stateFn_eq_commonFn (stored_code h).2.2
  have hmove : stateFn x .start (withSym .start s) = .ok (withSym .start s, .startBitReceived) := hcommon ..
  exact exec_symbol_ok h (runState_startBit hmove)

/-- Stop marks the bus free and passes through Idle (R174, R176). -/
theorem exec_symStop_stored :
    ∃ t, exec .symStop s = .next (spyIfEnabled .stop t) ∧
      IdleDone .stop { s with s := { s.s with sym := .stop, busBusy := false } } t := by
  obtain ⟨rise, fall, hcommon⟩ := stateFn_eq_commonFn (stored_code h).2.2
  have hmove : stateFn x .stop (withSym .stop s) = .ok (busFreed (withSym .stop s), .idle) := hcommon ..
  exact exec_symbol_idle h hmove

/-- Error and Timeout pass through Idle (R174, R176). -/
theorem exec_reset_stored {y : Symbol} (hy : y = .error ∨ y = .timeout) :
    ∃ t, exec (symbolInstr y) s = .next (spyIfEnabled y t) ∧ IdleDone y (withSym y s) t := by
  obtain ⟨rise, fall, hcommon⟩ := stateFn_eq_commonFn (stored_code h).2.2
  have hmove : stateFn x y (withSym y s) = .ok (withSym y s, .idle) := by
    rw [hcommon]
    obtain rfl | rfl := hy <;> rfl
  exact exec_symbol_idle h hmove

/-- Void does nothing, and the spy does not see it (R169). -/
theorem exec_symVoid_stored : exec .symVoid s = .next (withSym .void s) := by
  obtain ⟨rise, fall, hcommon⟩ := stateFn_eq_commonFn (stored_code h).2.2
  have hvoid := exec_symbol_ignored h (y := .void) (hcommon ..)
  rwa [spyIfEnabled_void] at hvoid

end

/-- Settles O9: the frame symbols are those of every stored state, and WaitForStart ignores the edges. -/
theorem restHandlesEverySymbol : Obligations.RestHandlesEverySymbol := by
  intro s h
  refine ⟨exec_symStart_stored h, exec_symStop_stored h, exec_reset_stored h (.inl rfl),
    exec_reset_stored h (.inr rfl), exec_symVoid_stored h, fun y hy => exec_symbol_ignored h ?_⟩
  simp only [List.mem_cons, List.not_mem_nil, or_false] at hy
  obtain rfl | rfl | rfl | rfl := hy <;> rfl

/-- Settles O10: the data-bearing states are stored states, which all handle the frame symbols alike. -/
theorem dataStatesHandleFrameSymbolsAlike : Obligations.DataStatesHandleFrameSymbolsAlike :=
  fun _ _ _ h => ⟨exec_symStart_stored h, exec_symStop_stored h, exec_reset_stored h (.inl rfl),
    exec_reset_stored h (.inr rfl), exec_symVoid_stored h⟩

/-! ## Edges in the data-bearing states -/

theorem commonFn_rising (here : StateName) (rise : Bool → State → Moved) (fall : State → Moved) (b : Bool)
    (s : State) : commonFn here rise fall (rising b) s = rise b s := by cases b <;> rfl

theorem commonFn_falling (here : StateName) (rise : Bool → State → Moved) (fall : State → Moved) {y : Symbol}
    (hy : y = .fe0 ∨ y = .fe1) (s : State) : commonFn here rise fall y s = fall s := by
  obtain rfl | rfl := hy <;> rfl

/-! ## The address compare -/

/-- The mask 0xFE keeps the bits 1 to 7. -/
theorem and_FE_eq_iff (v a : Byte) :
    v &&& 0xFE#8 = a &&& 0xFE#8 ↔ ∀ k, 1 ≤ k → k < 8 → v.getLsbD k = a.getLsbD k := by
  have hmask : ∀ k < 8, (0xFE#8).getLsbD k = decide (1 ≤ k) := by decide
  constructor
  · intro h k h1 h8
    have hk := congrArg (·.getLsbD k) h
    simpa [hmask k h8, h1] using hk
  · intro h
    refine BitVec.eq_of_getLsbD_eq fun k h8 => ?_
    rw [BitVec.getLsbD_and, BitVec.getLsbD_and, hmask k h8]
    by_cases h1 : 1 ≤ k
    · rw [h k h1 h8]
    · simp [h1]

/-- Some entry agrees with the byte but for bit 0 (R189). -/
theorem addrMatch_iff (c : SlaveCfg) (v : Byte) :
    addrMatch c v = true ↔ ∃ a ∈ c.addr, ∀ k, 1 ≤ k → k < 8 → v.getLsbD k = a.getLsbD k := by
  simp only [addrMatch, List.any_eq_true, beq_iff_eq, and_FE_eq_iff]

/-- The byte under reception with a bit entered at the mask (R177). -/
def byteWithBit (b : Bool) (x : Slave) : Byte := if b then x.sr ||| x.mask else x.sr

theorem accum_of_due {x : Slave} (hdue : x.mask ≠ 0#8) (b : Bool) :
    accum b x = { x with sr := byteWithBit b x, mask := x.mask >>> 1 } := if_pos hdue

/-- The rising edge that spends the mask compares the byte it completes (R178). -/
theorem stateFn_addressEnd {s : State} (hdue : s.s.mask ≠ 0#8) (hlast : s.s.mask >>> 1 = 0#8) (b : Bool) :
    stateFn .receiveAddress (rising b) s =
      if addrMatch s.s.cfg (byteWithBit b s.s) then
        .ok ({ s with
          s := { s.s with sr := byteWithBit b s.s, mask := 0#8, decodedAddr := byteWithBit b s.s } }, .receiveAddress)
      else .ok ({ s with s := { s.s with sr := byteWithBit b s.s, mask := 0#8 } }, .idle) := by
  have hrise : stateFn .receiveAddress (rising b) s = addressRise b s := commonFn_rising ..
  rw [hrise, addressRise, accum_of_due hdue, hlast]
  exact if_pos ⟨hdue, rfl⟩

/-- Settles O12: both outcomes are branches of the compare at the end of the byte; which bytes match is
`addrMatch_iff`. -/
theorem addressCompare : Obligations.AddressCompare := by
  refine ⟨fun s b h hdue hlast => ⟨fun hmatch => ?onMatch, fun hmatch => ?noMatch⟩, addrMatch_iff, ?emptyTable,
    ?exampleTable⟩
  case onMatch =>
    have hmove := stateFn_addressEnd (s := withSym (rising b) s) hdue hlast b
    exact exec_symbol_stays h (hmove.trans (if_pos hmatch))
  case noMatch =>
    have hmove := stateFn_addressEnd (s := withSym (rising b) s) hdue hlast b
    exact exec_symbol_idle h (hmove.trans (if_neg (Bool.eq_false_iff.mp hmatch)))
  case emptyTable =>
    intro c hc v
    rw [addrMatch, hc, List.any_nil]
  case exampleTable =>
    intro c hc
    rw [addrMatch, addrMatch, hc]
    decide

/-! ## The acknowledge -/

theorem ackEdge_of_due {s : State} (hdue : s.s.mask ≠ 0#8) (here : StateName) (commit : State → Moved) :
    ackEdge here commit s = .ok (s, here) := if_pos hdue

theorem ackEdge_setUp {s : State} (hspent : s.s.mask = 0#8) (hphase : s.s.ackPhase = false) (here : StateName)
    (commit : State → Moved) :
    ackEdge here commit s = .ok ({ slaveSetSda false s with
      s := { s.s with sdaDir := .out, sdaVal := false, ackPhase := true } }, here) := by
  rw [ackEdge, if_neg (not_not.mpr hspent), if_pos hphase]
  rfl

/-- Settles O13: ACKEDGE waits while bits are due and then sets the acknowledge up. -/
theorem acknowledgeIsSetUp : Obligations.AcknowledgeIsSetUp := by
  intro x s y hx h hy
  obtain ⟨rise, commit, hcommon⟩ := stateFn_receive hx
  have hfall : stateFn x y (withSym y s) = ackEdge x commit (withSym y s) :=
    (hcommon ..).trans (commonFn_falling _ _ _ hy _)
  refine ⟨fun hdue => ?bitsDue, fun hspent hphase => ?setUp⟩
  case bitsDue =>
    exact exec_symbol_ignored h (hfall.trans (ackEdge_of_due (s := withSym y s) hdue x commit))
  case setUp =>
    exact exec_symbol_stays h (hfall.trans (ackEdge_setUp (s := withSym y s) hspent hphase x commit))

/-! ## Transmit on a rising edge -/

theorem stateFn_transmit_rising (b : Bool) (s : State) : stateFn .transmit (rising b) s = transmitRise b s :=
  commonFn_rising ..

/-- While bits are due the readback is checked against the staged bit (R185). -/
theorem transmitRise_of_due {s : State} (hdue : s.s.mask ≠ 0#8) (b : Bool) :
    transmitRise b s =
      if b = stagedBit s.s then .ok ({ s with s := { s.s with mask := s.s.mask >>> 1 } }, .transmit)
      else .ok (s, .idle) := by
  rw [transmitRise, if_pos hdue, ite_not]
  rfl

/-- On the ninth edge only an honoured not-acknowledge acts (R186). -/
theorem transmitRise_of_spent {s : State} (hspent : s.s.mask = 0#8) (b : Bool) :
    transmitRise b s =
      if s.s.cfg.honoursNack = true ∧ s.s.ackPhase = true ∧ b = true then
        .ok ({ s with s := { s.s with memRead := true } }, .idle)
      else .ok (s, .transmit) := by
  rw [transmitRise, if_neg (not_not.mpr hspent)]
  rfl

/-- Settles O17: each clause is one branch of Transmit's answer to a rising edge. -/
theorem transmitOnRisingEdge : Obligations.TransmitOnRisingEdge := by
  refine ⟨fun s b h hdue => ⟨fun hsame => ?readback, fun hother => ?mismatch⟩,
    fun s b h hspent => ⟨fun hnone => ?ninthEdge, fun honours hphase hb => ?notAcknowledged⟩⟩
  case readback =>
    have hmove := (stateFn_transmit_rising b _).trans (transmitRise_of_due (s := withSym (rising b) s) hdue b)
    exact exec_symbol_stays h (hmove.trans (if_pos hsame))
  case mismatch =>
    have hmove := (stateFn_transmit_rising b _).trans (transmitRise_of_due (s := withSym (rising b) s) hdue b)
    exact exec_symbol_idle h (hmove.trans (if_neg hother))
  case ninthEdge =>
    have hmove := (stateFn_transmit_rising b _).trans (transmitRise_of_spent (s := withSym (rising b) s) hspent b)
    have hnot : ¬ (s.s.cfg.honoursNack = true ∧ s.s.ackPhase = true ∧ b = true) := by
      rintro ⟨honours, hphase, hb⟩
      simp [honours, hphase, hb] at hnone
    exact exec_symbol_ignored h (hmove.trans (if_neg hnot))
  case notAcknowledged =>
    subst hb
    have hmove := (stateFn_transmit_rising true _).trans (transmitRise_of_spent (s := withSym .re1 s) hspent true)
    exact exec_symbol_idle h (hmove.trans (if_pos ⟨honours, hphase, rfl⟩))

end Sys2Proof.SlaveFsm
end

section
/-! PROOFS. The bus spy of 45_bus_spy.md: what one invocation writes, as a function of the symbol and the two counters
alone (R210). -/

namespace Sys2Proof.Spy

open Sys2Proof Sys2Proof.Machine

/-- What one invocation of the spy writes: the count, the nibble and the characters appended to its stream (R210). -/
abbrev Writes := BitVec 4 × BitVec 4 × List Char

/-- The writes carried out on a state. -/
def applyWrites (w : Writes) (s : State) : State := emit w.2.2 (setSpy w.1 w.2.1 s)

/-- The writes of a rising edge, from the counters before it (R212). -/
def riseWrites (b : Bool) (count nibble : BitVec 4) : Writes :=
  let c := count + 1#4
  let n := (nibble <<< 1) ||| (BitVec.ofBool b).setWidth 4
  if c.toNat ≤ 8 then
    if c = 4#4 ∨ c = 8#4 then (c, 0#4, [hexDigit n]) else (c, n, [])
  else (0#4, nibble, [if b then 'n' else 'a'])

/-- The writes of each symbol, from the counters before it (R212). -/
def spyWrites (y : Symbol) (count nibble : BitVec 4) : Writes :=
  match y with
  | .start => (0#4, 0#4, ['S'])
  | .stop => (0#4, 0#4, ['P', Config.spyEol])
  | .error => (count, nibble, ['?'])
  | .re0 => riseWrites false count nibble
  | .re1 => riseWrites true count nibble
  | .timeout | .void | .fe0 | .fe1 => (count, nibble, [])

theorem emit_nil (s : State) : emit [] s = s := by
  rw [emit, List.append_nil]
  rfl

theorem spyRise_eq_applyWrites (b : Bool) (s : State) :
    spyRise b s = applyWrites (riseWrites b s.s.spyCount s.s.spyNibble) s := by
  simp only [spyRise, riseWrites]
  split
  case isTrue =>
    split
    case isTrue => rfl
    case isFalse => exact (emit_nil _).symm
  case isFalse => rfl

theorem spyStep_eq_applyWrites (y : Symbol) (s : State) :
    spyStep y s = applyWrites (spyWrites y s.s.spyCount s.s.spyNibble) s := by
  cases y with
  | start | stop | error => rfl
  | re0 | re1 => exact spyRise_eq_applyWrites _ s
  | timeout | void | fe0 | fe1 => exact (emit_nil s).symm

/-- Settles O25: with `SPY_EN` the spy carries out `spyWrites`, which sees no state but the two counters. -/
theorem spyNeverInterferes : Obligations.SpyNeverInterferes := by
  refine ⟨fun y => ⟨spyWrites y, fun s henabled => ?enabled⟩, fun y s hdisabled => ?disabled⟩
  case enabled => exact (if_pos henabled).trans (spyStep_eq_applyWrites y s)
  case disabled => exact if_neg (Bool.eq_false_iff.mp hdisabled)

end Sys2Proof.Spy
end

section
/-! PROOFS. Decoder and encoder over every word (30_encoding.md R61, R63, R66, R70, R74). -/

namespace Sys2Proof.Encoding

open Sys2Proof Sys2Proof.Machine

/-- Settles O1: a command's operands stand in the fields of its words, by the field lemmas of Laws/Decode; the rows
without operands are computed. -/
theorem decodeInvertsEncode : Obligations.DecodeInvertsEncode := by
  intro i
  cases i with
  | cfg bps tl th => simp [encode, decode, decodeCmd]
  | start addr8 => simp [encode, decode, decodeCmd]
  | move buf count more => simp [encode, decode, decodeCmd, -BitVec.getLsbD_setWidth]
  | rstart cmd12 => simp [encode, decode, decodeCmd]
  | rmove txbuf rxbuf count => rfl
  | _ => rfl

/-- A command decodes exactly when its opcode byte is one of the seven (30_encoding.md R70, R74). -/
theorem decodeCmd_cases (p0 p1 p2 p3 : Word) :
    (p0.extractLsb' 0 8 ∈ opcodes ∧ ∃ i, decodeCmd p0 p1 p2 p3 = .ok i) ∨
      (p0.extractLsb' 0 8 ∉ opcodes ∧ decodeCmd p0 p1 p2 p3 = .error (.reservedOpcode (p0.extractLsb' 0 8))) := by
  have hopcode : ∀ n, n < 256 → (p0.extractLsb' 0 8).toNat = n → p0.extractLsb' 0 8 = BitVec.ofNat 8 n :=
    fun n hn h => BitVec.eq_of_toNat_eq (by rw [h, BitVec.toNat_ofNat, Nat.mod_eq_of_lt hn])
  unfold decodeCmd
  split
  case h_8 h0 h1 h2 h3 h4 h5 h6 =>
    refine .inr ⟨fun hmem => ?_, rfl⟩
    simp only [opcodes, List.mem_cons, List.not_mem_nil, or_false] at hmem
    rcases hmem with h | h | h | h | h | h | h <;> simp [h] at h0 h1 h2 h3 h4 h5 h6
  all_goals
    next h => exact .inl ⟨by rw [hopcode _ (by decide) h]; decide, _, rfl⟩

/-- The assigned SYM codes are those below 9 (30_encoding.md R63). -/
theorem symbolOfCode_cases : ∀ c : BitVec 4,
    (c.toNat < 9 ∧ (symbolOfCode c).isSome) ∨ (9 ≤ c.toNat ∧ symbolOfCode c = none) := by decide

/-- The assigned STATE indices are those below 7 (30_encoding.md R66). -/
theorem stateOfCode_cases : ∀ c : BitVec 5,
    (c.toNat < 7 ∧ (stateOfCode c).isSome) ∨ (7 ≤ c.toNat ∧ stateOfCode c = none) := by decide

/-- A reserved SYM code is refused by its name (30_encoding.md R74). -/
theorem decode_sym_reserved {c : BitVec 4} (h : 9 ≤ c.toNat) : decode (.sym c) = .error (.reservedSymbol c) := by
  obtain ⟨hlt, _⟩ | ⟨_, hnone⟩ := symbolOfCode_cases c
  · omega
  · simp only [decode, hnone]

/-- A reserved STATE index is refused by its name (30_encoding.md R74). -/
theorem decode_state_reserved {c : BitVec 5} (h : 7 ≤ c.toNat) : decode (.state c) = .error (.reservedState c) := by
  obtain ⟨hlt, _⟩ | ⟨_, hnone⟩ := stateOfCode_cases c
  · omega
  · simp only [decode, hnone]

/-- A word is well-formed exactly when it decodes: one case for each format. -/
theorem wf_iff_decodes (c : Coded) : c.wf = true ↔ ∃ i, decode c = .ok i := by
  cases c with
  | cmd p0 p1 p2 p3 =>
    simp only [Coded.wf, List.contains_iff_mem, decode]
    obtain ⟨hmem, i, hi⟩ | ⟨hmem, he⟩ := decodeCmd_cases p0 p1 p2 p3
    · simp [hmem, hi]
    · simp [hmem, he]
  | sym c =>
    simp only [Coded.wf, decide_eq_true_eq]
    obtain ⟨hlt, hsome⟩ | ⟨hge, hnone⟩ := symbolOfCode_cases c
    · obtain ⟨y, hy⟩ := Option.isSome_iff_exists.mp hsome
      simp [decode, hlt, hy]
    · simp [decode_sym_reserved hge, hge]
  | snap c => exact ⟨fun _ => ⟨_, rfl⟩, fun _ => rfl⟩
  | state c =>
    simp only [Coded.wf, decide_eq_true_eq]
    obtain ⟨hlt, hsome⟩ | ⟨hge, hnone⟩ := stateOfCode_cases c
    · obtain ⟨x, hx⟩ := Option.isSome_iff_exists.mp hsome
      simp [decode, hlt, hx]
    · simp [decode_state_reserved hge, hge]

/-- Settles O2: the formats' case lemmas say which codes are assigned and how the others are refused. -/
theorem decodesExactlyTheAssignedCodes : Obligations.DecodesExactlyTheAssignedCodes := by
  refine ⟨wf_iff_decodes, fun p0 p1 p2 p3 hnot => ?opcode, fun _ => decode_sym_reserved,
    fun _ => decode_state_reserved, fun _ => rfl⟩
  obtain ⟨hmem, _⟩ | ⟨_, he⟩ := decodeCmd_cases p0 p1 p2 p3
  · exact absurd hmem hnot
  · exact he

/-- Settles O4: eight words, computed. -/
theorem handWrittenWordsDecode : Obligations.HandWrittenWordsDecode := by
  unfold Obligations.HandWrittenWordsDecode
  decide

end Sys2Proof.Encoding
end

section
/-! PROOFS. One completed step, seen as its agent's: which parts of the state each agent reaches (60_exceptions.md R241,
46_common_semantics.md R201), and how an invariant is carried over every step. -/

namespace Sys2Proof.Steps

open Sys2Proof Sys2Proof.Machine Sys2Proof.Safety

/-! ## Commands and the master's step reach no slave register -/

/-- What a command's entry may change: master registers other than its pins, the clock tree, the host's buffers and the
status words. -/
def CommandFrame (s t : State) : Prop :=
  ∃ m ct bufs st, t = { s with m := m, ct := ct, bufs := bufs, out := { s.out with status := st } } ∧
    m.sdaDir = s.m.sdaDir ∧ m.sdaVal = s.m.sdaVal ∧ m.sclDir = s.m.sclDir ∧ m.sclVal = s.m.sclVal

theorem CommandFrame.refl (s : State) : CommandFrame s s := ⟨_, _, _, _, rfl, rfl, rfl, rfl, rfl⟩

/-- Going on with an expansion moves no pin. -/
theorem resume_frame (ops : List Op) (s : State) : CommandFrame s (resume ops s) := by
  obtain ⟨acc, a, p, bufs, todo, busy, st, heq, _⟩ := resume_eq ops s
  exact ⟨_, _, _, _, heq, rfl, rfl, rfl, rfl⟩

theorem CommandRan.frame {s t : State} (h : CommandRan (accept s) t) : CommandFrame s t := by
  cases h with
  | raised c => exact ⟨_, _, _, _, rfl, rfl, rfl, rfl, rfl⟩
  | configured r tl th st p _ => exact ⟨_, _, _, _, rfl, rfl, rfl, rfl, rfl⟩
  | unclocked r tl th c => exact ⟨_, _, _, _, rfl, rfl, rfl, rfl, rfl⟩
  | began ops a p d _ =>
    obtain ⟨m, ct, bufs, st, heq, hpins⟩ := resume_frame ops
      (((accept s).setM { (accept s).m with ackFail := a, parityErr := p, addr := d }).setM
        { ((accept s).setM { (accept s).m with ackFail := a, parityErr := p, addr := d }).m with
          pos := 0, waiting := false })
    exact ⟨m, ct, bufs, st, heq, hpins⟩

/-- A command placed by the host always has its step, and reaches no further than `CommandFrame`. -/
theorem issueCommand_frame (p0 p1 p2 p3 : Word) (s : State) :
    ∃ t, issueCommand p0 p1 p2 p3 s = .next t ∧ CommandFrame s t := by
  obtain ⟨_, h⟩ | ⟨_, _, h⟩ | ⟨_, _, t, hran, h⟩ := issueCommand_cases p0 p1 p2 p3 s
  · exact ⟨_, h, .refl s⟩
  · exact ⟨_, h, _, _, _, _, rfl, rfl, rfl, rfl, rfl⟩
  · exact ⟨t, h, CommandRan.frame hran⟩

/-- A row of the master is a command placed by the host: the encoder gives its words. -/
theorem exec_master_row {i : Instr} (h : isSlaveRow i = false) (s : State) :
    ∃ p0 p1 p2 p3, encode i = .cmd p0 p1 p2 p3 ∧ exec i s = issueCommand p0 p1 p2 p3 s := by
  have hwords : ∃ p0 p1 p2 p3, encode i = .cmd p0 p1 p2 p3 := by
    cases i with
    | cfg bps tl th => exact ⟨_, _, _, _, rfl⟩
    | start addr8 => exact ⟨_, _, _, _, rfl⟩
    | move buf count more => exact ⟨_, _, _, _, rfl⟩
    | stop => exact ⟨_, _, _, _, rfl⟩
    | rstart cmd12 => exact ⟨_, _, _, _, rfl⟩
    | rmove txbuf rxbuf count => exact ⟨_, _, _, _, rfl⟩
    | rpark => exact ⟨_, _, _, _, rfl⟩
    | _ => cases h
  obtain ⟨p0, p1, p2, p3, he⟩ := hwords
  have hdecode : decodeCmd p0 p1 p2 p3 = .ok i := by
    have := Encoding.decodeInvertsEncode i
    rwa [he] at this
  exact ⟨p0, p1, p2, p3, he, by simp only [issueCommand, hdecode]⟩

/-- What a step of the master may change: master registers, the edge latches, the environment's supply of samples, the
timer, the host's buffers and the status words. -/
def MasterFrame (s t : State) : Prop :=
  ∃ m e env timer bufs st, t =
    { s with m := m, e := e, env := env, timer := timer, bufs := bufs, out := { s.out with status := st } } ∧
    e.tmo = s.e.tmo ∧ e.enabled = s.e.enabled

/-- One micro-operation, before the expansion goes on. -/
theorem Moved1.frame {s q : State} (h : Moved1 s q) : MasterFrame s q := by
  cases h with
  | sda b => exact ⟨_, _, _, _, _, _, rfl, rfl, rfl⟩
  | relSda => exact ⟨_, _, _, _, _, _, rfl, rfl, rfl⟩
  | scl b => exact ⟨_, _, _, _, _, _, rfl, rfl, rfl⟩
  | get =>
    obtain ⟨b, v, heq, _⟩ := masterSample_eq s
    exact ⟨_, _, _, _, _, _, heq, rfl, rfl⟩
  | wait => exact ⟨_, _, _, _, _, _, rfl, rfl, rfl⟩

theorem MasterFrame.resume {s q : State} (h : MasterFrame s q) (ops : List Op) : MasterFrame s (resume ops q) := by
  obtain ⟨m, e, env, timer, bufs, st, rfl, htmo, hen⟩ := h
  obtain ⟨acc, a, p, bufs', todo, busy, st', heq, _⟩ := resume_eq ops
    { s with m := m, e := e, env := env, timer := timer, bufs := bufs, out := { s.out with status := st } }
  exact ⟨_, _, _, _, _, _, heq, htmo, hen⟩

theorem masterStep_frame {s t : State} (h : masterStep s = .next t) : MasterFrame s t := by
  obtain ⟨u, rest, q, _, hmoved, k⟩ | ⟨rest, _, _, _, ⟨_, _, k⟩ | ⟨_, k⟩⟩ | ⟨rest, _, _, _, k⟩ | ⟨_, k⟩ :=
    masterStep_cases s
  · rw [k] at h
    cases h
    obtain ⟨m, e, env, timer, bufs, st, rfl, htmo, hen⟩ := Moved1.frame hmoved
    exact MasterFrame.resume ⟨_, e, env, timer, bufs, st, rfl, htmo, hen⟩ rest
  · rw [k] at h
    cases h
    exact ⟨_, _, _, _, _, _, rfl, rfl, rfl⟩
  · rw [k] at h
    cases h
    exact ⟨_, _, _, _, _, _, rfl, rfl, rfl⟩
  · rw [k] at h
    cases h
  · rw [k] at h
    cases h
    exact MasterFrame.resume ⟨_, _, _, _, _, _, rfl, rfl, rfl⟩ _

/-! ## The slave's rows -/

/-- A row of the slave consumes a symbol or runs a state function. -/
theorem exec_slave_row {i : Instr} (h : isSlaveRow i = true) :
    (∃ y, ∀ s, exec i s = consume y s) ∨ ∃ x, ∀ s, exec i s = execState x s := by
  cases i with
  | cfg | start | move | stop | rstart | rmove | rpark => cases h
  | stateIdle => exact .inr ⟨.idle, fun _ => rfl⟩
  | stateWaitForStart => exact .inr ⟨.waitForStart, fun _ => rfl⟩
  | stateStartBitReceived => exact .inr ⟨.startBitReceived, fun _ => rfl⟩
  | stateReceiveAddress => exact .inr ⟨.receiveAddress, fun _ => rfl⟩
  | stateReceiveSubAddress => exact .inr ⟨.receiveSubAddress, fun _ => rfl⟩
  | stateReceiveData => exact .inr ⟨.receiveData, fun _ => rfl⟩
  | stateTransmit => exact .inr ⟨.transmit, fun _ => rfl⟩
  | _ => exact .inl ⟨_, fun _ => rfl⟩

theorem execState_halted {s : State} (h : s.s.fault = true) (x : StateName) : execState x s = .next s := if_pos h

/-- A state row on a live slave runs its state function with the pass-through. -/
theorem execState_ok {x : StateName} {s t : State} (hf : s.s.fault = false) (h : runState x s.s.sym s = .ok t) :
    execState x s = .next t := by simp [execState, hf, h]

theorem execState_error {x : StateName} {s : State} {e : Fault} (hf : s.s.fault = false)
    (h : runState x s.s.sym s = .error e) : execState x s = .fault e := by simp [execState, hf, h]

theorem execState_outside {x : StateName} {s t : State} (h : execState x s = .next t) : SameOutside s t := by
  cases hf : s.s.fault with
  | true =>
    cases (execState_halted hf x).symm.trans h
    exact .refl s
  | false =>
    cases hr : runState x s.s.sym s with
    | ok u =>
      cases (execState_ok hf hr).symm.trans h
      exact runState_outside hr
    | error e => cases (execState_error hf hr).symm.trans h

/-- A slave register that no state function writes by hand, and that is neither the driven pin nor a poll flag, is kept
by every action of the slave's own. -/
theorem respected_of_register {α : Type} (f : Slave → α) (hnear : ∀ x y, x.Near y → f y = f x)
    (hpin : ∀ (x : Slave) d v, f { x with sdaDir := d, sdaVal := v } = f x)
    (hflags : ∀ (x : Slave) a b c, f { x with flagBusFree := a, flagWriteDone := b, flagReadDone := c } = f x) :
    Respected fun s t => f t.s = f s.s where
  refl _ := rfl
  trans h k := k.trans h
  near s x h := hnear s.s x h
  release s := hpin s.s .inp s.s.sdaVal
  drive b s := hpin s.s .out b
  fire h s := by
    rw [fire_eq]
    dsimp only
    split_ifs
    · rfl
    · cases h <;> exact hflags s.s _ _ _
  write _ _ _ := rfl

theorem consume_halted {s : State} (h : s.s.fault = true) (y : Symbol) : consume y s = .next s := if_pos h

/-- Settles O59: the slave's rows leave the outside as it was, and the master's two frames name no slave register. -/
theorem contextsOwnTheirState : Obligations.ContextsOwnTheirState := by
  refine ⟨fun i s t hrow h => ?slave, fun i s t hrow h => ?command, fun s t h => ?master⟩
  case slave =>
    have hsame : SameOutside s t := by
      obtain ⟨y, hy⟩ | ⟨x, hx⟩ := exec_slave_row hrow
      · exact consume_outside ((hy s).symm.trans h)
      · exact execState_outside ((hx s).symm.trans h)
    obtain ⟨hm, henv, htimer, hct, hbufs, hstatus, hreceived, hinputs, hturns, _, _, _, htmo, _⟩ := hsame
    exact ⟨hm, henv, htimer, hct, hbufs, htmo, hstatus, hreceived, hinputs, hturns⟩
  case command =>
    obtain ⟨p0, p1, p2, p3, _, hexec⟩ := exec_master_row hrow s
    obtain ⟨u, hu, m, ct, bufs, st, heq, hpins⟩ := issueCommand_frame p0 p1 p2 p3 s
    rw [hexec, hu] at h
    cases h
    subst heq
    exact ⟨rfl, rfl, rfl, rfl, rfl, rfl, rfl, hpins⟩
  case master =>
    obtain ⟨m, e, env, timer, bufs, st, rfl, htmo, _⟩ := masterStep_frame h
    exact ⟨rfl, rfl, htmo, rfl, rfl, rfl⟩

/-! ## The operations of host and environment -/

/-- The checks of a slave's construction pass (60_exceptions.md R228). -/
def constructionOk (c : SlaveCfg) (pinsOk : Bool) : Bool := pinsOk && decide (c.memSize ≠ 0)

/-- The code a slave's construction latches: the null pin's first, then the memory size's (60_exceptions.md R228). -/
def constructionCode (c : SlaveCfg) (pinsOk : Bool) : BitVec 4 :=
  if pinsOk = false then faultCode .nullPin else if c.memSize = 0 then faultCode .memSizeZero else 0#4

/-- What a slave's construction leaves: the reset values, halted with the edge interrupts off where a check failed. -/
theorem constructSlave_eq (c : SlaveCfg) (p : Bool) (s : State) :
    constructSlave c p s = { s with
      s := { slaveReset c p with fault := !constructionOk c p, faultCode := constructionCode c p }
      e := { sda := false, scl := false, tmo := false, enabled := constructionOk c p }
      out := { s.out with spy := [] } } := by
  cases p with
  | false => simp [constructSlave, constructionOk, constructionCode, raiseSlave, State.setS, State.setE, State.setOut]
  | true =>
    by_cases h : c.memSize = 0
    · simp [constructSlave, constructionOk, constructionCode, h, raiseSlave, State.setS, State.setE, State.setOut]
    · simp [constructSlave, constructionOk, constructionCode, h, slaveReset, State.setS, State.setE, State.setOut]

theorem setHookFlag_eq (x : Slave) (h : Hook) (b : Bool) :
    ∃ f g k, setHookFlag x h b = { x with flagBusFree := f, flagWriteDone := g, flagReadDone := k } := by
  cases h <;> exact ⟨_, _, _, rfl⟩

/-- The states an operation of host or environment can end in; `received` is every operation that only takes something
out of the outgoing interfaces or adds to what the host has received. -/
inductive Applied (s : State) : Input → State → Prop
  | issue (p0 p1 p2 p3 : Word) {t : State} (hrun : issueCommand p0 p1 p2 p3 s = .next t) :
    Applied s (.issue p0 p1 p2 p3) t
  | received (i : Input) (hooks : List Hook) (received : List Reading) :
    Applied s i (s.setOut { s.out with hooks := hooks, received := received })
  | status (st : List Word) (received : List Reading) :
    Applied s .status ((s.setM { s.m with busy := false }).setOut { s.out with status := st, received := received })
  | bufWrite (buf k : Word) (v : Byte) : Applied s (.bufWrite buf k v) (writeBuf s buf k.toNat v)
  | memWrite (k : Nat) (v : Byte) (hk : k < s.s.cfg.memSize) : Applied s (.memWrite k v) (s.setMem (s.mem.write k v))
  | flagClear (h : Hook) : Applied s (.flagClear h) (s.setS (setHookFlag s.s h false))
  | timeout : Applied s .timeout (s.setE { s.e with tmo := true })
  | constructMaster (c : MasterCfg) (p k : Bool) : Applied s (.constructMaster c p k) (constructMaster c p k s)
  | constructSlave (c : SlaveCfg) (p : Bool) : Applied s (.constructSlave c p) (constructSlave c p s)
  | envDrive (l : Line) (v : Bool) : Applied s (.envDrive l v) (envDrive l v s)
  | envSample (b : Bool) : Applied s (.envSample b) (s.setEnv { s.env with samples := s.env.samples ++ [b] })
  | clockKnown (hz : Nat) : Applied s (.clockKnown hz) (s.setCt { s.ct with coreHz := some hz })
  | timerArm (n : Nat) : Applied s (.timerArm n) (armTimer n s)

theorem applyInput_applied {i : Input} {s t : State} (h : applyInput i s = .next t) : Applied s i t := by
  cases i with
  | issue p0 p1 p2 p3 => exact .issue p0 p1 p2 p3 h
  | status =>
    simp only [applyInput] at h
    split at h
    · cases h; exact .received .status s.out.hooks s.out.received
    · next w r _ => cases h; exact .status r _
  | bufWrite buf k v => cases h; exact .bufWrite buf k v
  | bufRead buf k => cases h; exact .received _ s.out.hooks _
  | memRead k =>
    simp only [applyInput] at h
    split at h <;> cases h
    exact .received _ s.out.hooks _
  | memWrite k v =>
    simp only [applyInput] at h
    split at h
    · next u hu =>
      cases h
      obtain ⟨hk, rfl⟩ := writeMem_ok hu
      exact .memWrite k v hk
    · cases h
  | flagRead k => cases h; exact .received _ s.out.hooks _
  | flagClear k => cases h; exact .flagClear k
  | hookEvent k =>
    simp only [applyInput] at h
    split at h <;> cases h
    exact .received _ _ _
  | timeout => cases h; exact .timeout
  | spyRead =>
    simp only [applyInput] at h
    split at h <;> cases h
    exact .received _ s.out.hooks _
  | busBusyRead => cases h; exact .received _ s.out.hooks _
  | constructMaster c p k => cases h; exact .constructMaster c p k
  | constructSlave c p => cases h; exact .constructSlave c p
  | envDrive l v => cases h; exact .envDrive l v
  | envSample b => cases h; exact .envSample b
  | clockKnown hz => cases h; exact .clockKnown hz
  | timerArm n => cases h; exact .timerArm n

/-- A command's frame, from the answer of the host's operation. -/
theorem issueCommand_next_frame {p0 p1 p2 p3 : Word} {s t : State} (h : issueCommand p0 p1 p2 p3 s = .next t) :
    CommandFrame s t := by
  obtain ⟨u, hu, hframe⟩ := issueCommand_frame p0 p1 p2 p3 s
  cases hu.symm.trans h
  exact hframe

/-- No operation but a construction reaches a slave register other than the poll flags. -/
theorem applyInput_slave {i : Input} {s t : State} (h : applyInput i s = .next t)
    (hi : ∀ c p, i ≠ .constructSlave c p) :
    ∃ a b c, t.s = { s.s with flagBusFree := a, flagWriteDone := b, flagReadDone := c } := by
  cases applyInput_applied h with
  | constructSlave c p => exact absurd rfl (hi c p)
  | flagClear k => exact setHookFlag_eq s.s k false
  | issue p0 p1 p2 p3 hrun =>
    obtain ⟨m, ct, bufs, st, rfl, _⟩ := issueCommand_next_frame hrun
    exact ⟨_, _, _, rfl⟩
  | _ => exact ⟨_, _, _, rfl⟩

/-- No operation but a construction, a command and HostStatus reaches a master register. -/
theorem applyInput_master {i : Input} {s t : State} (h : applyInput i s = .next t)
    (hconstruct : ∀ c p k, i ≠ .constructMaster c p k) (hissue : ∀ p0 p1 p2 p3, i ≠ .issue p0 p1 p2 p3)
    (hstatus : i ≠ .status) : t.m = s.m := by
  cases applyInput_applied h with
  | constructMaster c p k => exact absurd rfl (hconstruct c p k)
  | issue p0 p1 p2 p3 _ => exact absurd rfl (hissue p0 p1 p2 p3)
  | status _ _ => exact absurd rfl hstatus
  | constructSlave c p => rw [constructSlave_eq]
  | _ => rfl

/-! ## One completed step -/

/-- What the agent that steps from `u` did, with the turn `x` given, when its step ends in `t`. -/
inductive Stepped (x : Option Turn) (u t : State) : Prop
  | timeout (hturn : x = none ∨ x = some .slave) (hready : handlerReady u = true) (htmo : u.e.tmo = true)
      (hrun : consume .timeout (u.setE { u.e with tmo := false }) = .next t)
  | snapshot (hturn : x = none ∨ x = some .slave) (hready : handlerReady u = true) (htmo : u.e.tmo = false)
      (hrun : consume (classify (snapshot u)) (clearEdges u) = .next t)
  | master (hready : masterReady u = true) (hrun : masterStep u = .next t)
  | timer (hready : timerReady u = true) (hrun : t = timerDone u)
  | outside (i : Input) (r : List Input) (hnext : u.inputs = i :: r) (hready : inputReady i u = true)
      (hrun : applyInput i { u with inputs := r } = .next t)
  | rest (hrun : t = u)

/-- A completed step is one agent's. -/
theorem step_stepped {s t : State} (h : step s = .next t) : ∃ x u, Gives s x u ∧ Stepped x u t := by
  obtain ⟨x, u, hgives, hby⟩ := step_cases s
  refine ⟨x, u, hgives, ?_⟩
  rw [h] at hby
  obtain ⟨hx, hr, htmo, ho⟩ | ⟨hx, hr, htmo, ho⟩ | ⟨hr, ho⟩ | ⟨hr, ho⟩ | ⟨i, r, hi, hr, ho⟩ | ho | ⟨_, _, _, _, _, _, ho⟩ :=
    hby
  · exact .timeout hx hr htmo ho.symm
  · exact .snapshot hx hr htmo ho.symm
  · exact .master hr ho.symm
  · exact .timer hr (by injection ho)
  · exact .outside i r hi hr ho.symm
  · exact .rest (by injection ho)
  · cases ho

/-- What an invariant has to survive: the passing of a turn, and the step of each agent. -/
structure KeptByAgents (P : State → Prop) : Prop where
  turns : ∀ {s : State} ts, P s → P { s with turns := ts }
  inputs : ∀ {s : State} r, P s → P { s with inputs := r }
  handler : ∀ {s t : State} y e, P s → consume y (s.setE e) = .next t → P t
  master : ∀ {s t : State}, P s → masterReady s = true → masterStep s = .next t → P t
  timer : ∀ {s : State}, P s → P (timerDone s)
  outside : ∀ {s t : State} i, P s → inputReady i s = true → applyInput i s = .next t → P t

/-- What every agent keeps, every step keeps. -/
theorem KeptByAgents.step {P : State → Prop} (hP : KeptByAgents P) {s t : State} (hs : P s)
    (h : step s = .next t) : P t := by
  obtain ⟨x, u, hgives, hstep⟩ := step_stepped h
  obtain ⟨ts, rfl⟩ := hgives.eq
  have hu := hP.turns ts hs
  cases hstep with
  | timeout _ _ _ hrun => exact hP.handler _ _ hu hrun
  | snapshot _ _ _ hrun => exact hP.handler _ _ hu hrun
  | master hready hrun => exact hP.master hu hready hrun
  | timer _ hrun => exact hrun ▸ hP.timer hu
  | outside i r _ hready hrun => exact hP.outside i (hP.inputs r hu) hready hrun
  | rest hrun => exact hrun ▸ hu

end Sys2Proof.Steps
end

section
/-! PROOFS. The bus spy of 45_bus_spy.md: its effect on each symbol (R212, R214) and the range of its counters (R213). -/

namespace Sys2Proof.Spy

open Sys2Proof Sys2Proof.Machine Sys2Proof.Safety

/-! ## The effect on each symbol -/

/-- With `SPY_EN` the spy carries out its writes. -/
theorem spyIfEnabled_eq_applyWrites {s : State} (h : s.s.cfg.spyEn = true) (y : Symbol) :
    spyIfEnabled y s = applyWrites (spyWrites y s.s.spyCount s.s.spyNibble) s :=
  (if_pos h).trans (spyStep_eq_applyWrites y s)

theorem spyWrites_rising (b : Bool) (c n : BitVec 4) : spyWrites (rising b) c n = riseWrites b c n := by
  cases b <;> rfl

/-- The nibble with a bit shifted in. -/
def shifted (b : Bool) (n : BitVec 4) : BitVec 4 := (n <<< 1) ||| (if b then 1#4 else 0#4)

/-- A rising edge in the middle of a nibble shifts its bit in. -/
theorem riseWrites_within {c : BitVec 4} (hc : c.toNat < 8) (h3 : c ≠ 3#4) (h7 : c ≠ 7#4) (b : Bool) (n : BitVec 4) :
    riseWrites b c n = (c + 1#4, shifted b n, []) := by
  have hcount : ∀ c : BitVec 4, c.toNat < 8 → c ≠ 3#4 → c ≠ 7#4 →
      (c + 1#4).toNat ≤ 8 ∧ ¬ (c + 1#4 = 4#4 ∨ c + 1#4 = 8#4) := by decide
  obtain ⟨hle, hnot⟩ := hcount c hc h3 h7
  simp only [riseWrites, if_pos hle, if_neg hnot]
  cases b <;> rfl

/-- A rising edge that completes a nibble prints its digit. -/
theorem riseWrites_digit {c : BitVec 4} (hc : c = 3#4 ∨ c = 7#4) (b : Bool) (n : BitVec 4) :
    riseWrites b c n = (c + 1#4, 0#4, [hexDigit (shifted b n)]) := by
  rcases hc with rfl | rfl <;> cases b <;> rfl

/-- The ninth rising edge prints the acknowledge bit. -/
theorem riseWrites_ack (b : Bool) (n : BitVec 4) : riseWrites b 8#4 n = (0#4, n, [if b then 'n' else 'a']) := rfl

/-- The writes carried out, field by field. -/
theorem applyWrites_eq (c n : BitVec 4) (text : List Char) (s : State) :
    applyWrites (c, n, text) s = { s with
      s := { s.s with spyCount := c, spyNibble := n }
      out := { s.out with spy := s.out.spy ++ text } } := rfl

/-- Writing back the counters and printing nothing changes nothing. -/
theorem applyWrites_same (s : State) : applyWrites (s.s.spyCount, s.s.spyNibble, []) s = s := by
  rw [applyWrites_eq, List.append_nil]

/-- Settles O24: the digits are computed; each symbol's row is its `spyWrites`, a rising edge's by the count. -/
theorem spyEffectPerSymbol : Obligations.SpyEffectPerSymbol := by
  refine ⟨by decide, fun s henabled => ⟨?start, ?stop, ?error, fun y hy => ?silent, fun b n hn => ⟨?within, ?digit, ?ack⟩⟩⟩
  case start => exact spyIfEnabled_eq_applyWrites henabled .start
  case stop => exact spyIfEnabled_eq_applyWrites henabled .stop
  case error => exact spyIfEnabled_eq_applyWrites henabled .error
  case silent =>
    rw [spyIfEnabled_eq_applyWrites henabled]
    simp only [List.mem_cons, List.not_mem_nil, or_false] at hy
    rcases hy with rfl | rfl | rfl | rfl <;> exact applyWrites_same s
  all_goals
    subst hn
    rw [spyIfEnabled_eq_applyWrites henabled, spyWrites_rising]
  case within =>
    intro hc h3 h7
    rw [riseWrites_within hc h3 h7, applyWrites_eq, List.append_nil]
    rfl
  case digit =>
    intro hc
    rw [riseWrites_digit hc]
    rfl
  case ack =>
    intro hc
    rw [hc, riseWrites_ack]
    rfl

/-! ## The range of the counters -/

/-- A count and a nibble in their range (R213). -/
def InRange (c n : BitVec 4) : Prop := c.toNat ≤ 8 ∧ n.toNat < 2 ^ (c.toNat % 4)

/-- A rising edge keeps the range: one comparison per count, nibble and bit. -/
theorem riseWrites_inRange (b : Bool) {c n : BitVec 4} (h : InRange c n) :
    InRange (riseWrites b c n).1 (riseWrites b c n).2.1 := by
  have hall : ∀ (b : Bool) (c n : BitVec 4), c.toNat ≤ 8 → n.toNat < 2 ^ (c.toNat % 4) →
      (riseWrites b c n).1.toNat ≤ 8 ∧ (riseWrites b c n).2.1.toNat < 2 ^ ((riseWrites b c n).1.toNat % 4) := by
    decide
  exact hall b c n h.1 h.2

/-- Every symbol keeps the range. -/
theorem spyWrites_inRange (y : Symbol) {c n : BitVec 4} (h : InRange c n) :
    InRange (spyWrites y c n).1 (spyWrites y c n).2.1 := by
  have hzero : InRange 0#4 0#4 := ⟨by decide, by decide⟩
  cases y with
  | start | stop => exact hzero
  | re0 | re1 => exact riseWrites_inRange _ h
  | error | timeout | void | fe0 | fe1 => exact h

theorem spyIfEnabled_spyInv (y : Symbol) {s : State} (h : SpyInv s) : SpyInv (spyIfEnabled y s) := by
  cases henabled : s.s.cfg.spyEn with
  | true =>
    rw [spyIfEnabled_eq_applyWrites henabled]
    exact spyWrites_inRange y h
  | false => rwa [spyIfEnabled, if_neg (by simp [henabled])]

/-- The slave's own actions do not reach the spy's counters. -/
theorem runState_spyInv {x : StateName} {y : Symbol} {s t : State} (h : runState x y s = .ok t) (hs : SpyInv s) :
    SpyInv t := by
  have hsame := runState_respects (Steps.respected_of_register (fun x => (x.spyCount, x.spyNibble))
    (fun _ _ h => by rw [h]) (fun _ _ _ => rfl) (fun _ _ _ _ => rfl)) h
  obtain ⟨hcount, hnibble⟩ := Prod.mk.inj hsame
  unfold SpyInv
  rw [hcount, hnibble]
  exact hs

theorem consume_spyInv {y : Symbol} {s t : State} (hs : SpyInv s) (h : consume y s = .next t) : SpyInv t := by
  obtain ⟨_, k⟩ | ⟨_, _, k⟩ | ⟨x, u, _, _, hrun, k⟩ | ⟨x, e, _, _, _, k⟩ := consume_cases y s <;> rw [k] at h <;> cases h
  · exact hs
  · exact hs
  · exact spyIfEnabled_spyInv y (runState_spyInv hrun hs)

/-- No agent takes the counters out of their range: only the handler's spy and a construction write them. -/
theorem spyInv_kept : Steps.KeptByAgents SpyInv where
  turns _ h := h
  inputs _ h := h
  handler y e h hrun := consume_spyInv (s := State.setE _ e) h hrun
  master h _ hrun := by
    obtain ⟨m, e, env, timer, bufs, st, rfl, _⟩ := Steps.masterStep_frame hrun
    exact h
  timer h := h
  outside i h _ hrun := by
    by_cases hi : ∃ c p, i = .constructSlave c p
    · obtain ⟨c, p, rfl⟩ := hi
      cases hrun
      rw [Steps.constructSlave_eq]
      exact ⟨show (0#4).toNat ≤ 8 by decide, show (0#4).toNat < 2 ^ ((0#4).toNat % 4) by decide⟩
    · obtain ⟨a, b, c, hs⟩ := Steps.applyInput_slave hrun fun c p hcp => hi ⟨c, p, hcp⟩
      unfold SpyInv
      rw [hs]
      exact h

/-- Settles O26: reset's counters are 0, and the range is kept by every agent. -/
theorem spyCounterInvariant : Obligations.SpyCounterInvariant :=
  ⟨rfl, rfl, fun _ _ hs h => spyInv_kept.step hs h⟩

end Sys2Proof.Spy
end

section
/-! PROOFS. The invariant of the master (10_state.md R13; 40_delay_engine.md R95, R97) and the fault latches of both
contexts (60_exceptions.md R227) over every step. -/

namespace Sys2Proof.MasterKept

open Sys2Proof Sys2Proof.Machine Sys2Proof.Safety Sys2Proof.Steps

/-! ## The master's invariant -/

/-- The invariant reads the master and the timer alone. -/
theorem masterInv_congr {s t : State} (hm : t.m = s.m) (htimer : t.timer = s.timer) (h : MasterInv s) :
    MasterInv t := by
  unfold MasterInv
  rw [hm, htimer]
  exact h

/-- A master at rest needs only its wait parameter and its timer. -/
theorem masterInv_of_idle {s : State} (hbusy : s.m.busy = false) (htodo : s.m.todo = [])
    (hparam : s.m.strategy ≠ .none → s.m.waitParam ≠ 0#32)
    (hwaiting : s.m.waiting = true → s.timer.running = true ∨ s.timer.done = true) : MasterInv s :=
  ⟨hparam, fun h => by simp [hbusy] at h, fun _ => htodo, hwaiting⟩

/-- Going on with an expansion ends the command or leaves a micro-operation, so it establishes the invariant. -/
theorem resume_masterInv (ops : List Op) {s : State} (hbusy : s.m.busy = true)
    (hstrategy : s.m.strategy ≠ .none) (hfault : s.m.fault = false) (hparam : s.m.waitParam ≠ 0#32)
    (hwaiting : s.m.waiting = false) : MasterInv (resume ops s) := by
  obtain ⟨acc, a, p, bufs, todo, busy, st, heq, ⟨rfl, rfl, _⟩ | ⟨rfl, _, hmicro⟩⟩ := resume_eq ops s <;> rw [heq]
  · exact masterInv_of_idle rfl rfl (fun _ => hparam) fun h => by simp [hwaiting] at h
  · exact ⟨fun _ => hparam, fun _ => ⟨hstrategy, hfault, hmicro⟩, fun h => by simp [hbusy] at h,
      fun h => by simp [hwaiting] at h⟩

/-- A micro-operation moves the master's pins and its sampled bit alone. -/
theorem Moved1.master {s q : State} (h : Moved1 s q) : ∃ a b c d v, q.m =
    { s.m with sdaDir := a, sdaVal := b, sclDir := c, sclVal := d, sampled := v } := by
  cases h with
  | get =>
    obtain ⟨b, v, heq, _⟩ := masterSample_eq s
    exact ⟨_, _, _, _, b, by rw [heq]; rfl⟩
  | _ => exact ⟨_, _, _, _, _, rfl⟩

theorem masterStep_masterInv {s t : State} (h : MasterInv s) (hready : masterReady s = true)
    (hrun : masterStep s = .next t) : MasterInv t := by
  obtain ⟨hparam, hbusy, hfree, hwaiting⟩ := h
  simp only [masterReady, Bool.and_eq_true] at hready
  obtain ⟨⟨hb, _⟩, _⟩ := hready
  obtain ⟨hs, hf, w, rest, htodo⟩ := hbusy hb
  obtain ⟨u, rest, q, _, hmoved, k⟩ | ⟨rest, _, _, _, ⟨_, _, k⟩ | ⟨_, k⟩⟩ | ⟨rest, _, _, _, k⟩ | ⟨hnone, _⟩ :=
    masterStep_cases s
  · obtain ⟨a, b, c, d, v, hm⟩ := Moved1.master hmoved
    rw [k] at hrun
    cases hrun
    refine resume_masterInv rest ?_ ?_ ?_ ?_ rfl <;> simp only [setM_m, hm]
    exacts [hb, hs, hf, hparam hs]
  · rw [k] at hrun
    cases hrun
    exact ⟨hparam, hbusy, hfree, hwaiting⟩
  · rw [k] at hrun
    cases hrun
    exact ⟨hparam, hbusy, hfree, fun _ => .inl rfl⟩
  · rw [k] at hrun
    cases hrun
  · exact absurd htodo (hnone w rest)

/-- A command run on a free, unhalted master. -/
theorem CommandRan.masterInv {s t : State} (h : MasterInv s) (hb : s.m.busy = false) (hf : s.m.fault = false)
    (hran : CommandRan (accept s) t) : MasterInv t := by
  obtain ⟨hparam, _, hfree, hwaiting⟩ := h
  cases hran with
  | raised c => exact masterInv_of_idle rfl (hfree hb) hparam hwaiting
  | configured r tl th st p hp => exact masterInv_of_idle rfl (hfree hb) hp hwaiting
  | unclocked r tl th c => exact masterInv_of_idle rfl (hfree hb) (fun hs => absurd rfl hs) hwaiting
  | began ops a p d hs => exact resume_masterInv ops rfl hs hf (hparam hs) rfl

theorem issueCommand_masterInv {p0 p1 p2 p3 : Word} {s t : State} (h : MasterInv s)
    (hrun : issueCommand p0 p1 p2 p3 s = .next t) : MasterInv t := by
  obtain ⟨_, k⟩ | ⟨hb, _, k⟩ | ⟨hb, hf, u, hran, k⟩ := issueCommand_cases p0 p1 p2 p3 s <;> rw [k] at hrun <;> cases hrun
  · exact h
  · obtain ⟨hparam, _, hfree, hwaiting⟩ := h
    exact masterInv_of_idle rfl (hfree hb) hparam hwaiting
  · exact CommandRan.masterInv h hb hf hran

/-- HostStatus is taken when no expansion is left. -/
theorem todo_of_status_ready {s : State} (h : MasterInv s) (hready : inputReady .status s = true) : s.m.todo = [] := by
  obtain ⟨_, hbusy, hfree, _⟩ := h
  simp only [inputReady, Bool.and_eq_true, Bool.or_eq_true, List.isEmpty_iff] at hready
  obtain ⟨hempty | hfault, _⟩ := hready
  · exact hempty
  · refine hfree (Bool.eq_false_iff.mpr fun hb => ?_)
    obtain ⟨_, hf, _⟩ := hbusy hb
    simp [hf] at hfault

theorem applyInput_masterInv {i : Input} {s t : State} (h : MasterInv s) (hready : inputReady i s = true)
    (hrun : applyInput i s = .next t) : MasterInv t := by
  cases applyInput_applied hrun with
  | issue p0 p1 p2 p3 hissue => exact issueCommand_masterInv h hissue
  | constructMaster c p k => exact masterInv_of_idle rfl rfl (fun hs => absurd rfl hs) nofun
  | status st received =>
    have htodo := todo_of_status_ready h hready
    obtain ⟨hparam, _, _, hwaiting⟩ := h
    exact masterInv_of_idle rfl htodo hparam hwaiting
  | timerArm n =>
    obtain ⟨hparam, hbusy, hfree, _⟩ := h
    exact ⟨hparam, hbusy, hfree, fun _ => .inl rfl⟩
  | constructSlave c p => rw [constructSlave_eq]; exact h
  | _ => exact h

/-- Every agent keeps the master's invariant; the slave's handler reaches neither the master nor the timer. -/
theorem masterInv_kept : KeptByAgents MasterInv where
  turns _ h := h
  inputs _ h := h
  handler y e h hrun := by
    obtain ⟨hm, _, htimer, _⟩ := consume_outside hrun
    exact masterInv_congr hm htimer h
  master := masterStep_masterInv
  timer h := by
    obtain ⟨hparam, hbusy, hfree, _⟩ := h
    exact ⟨hparam, hbusy, hfree, fun _ => .inr rfl⟩
  outside _ := applyInput_masterInv

/-- Settles O55: every agent's step keeps the invariant. -/
theorem masterInvariantKept : Obligations.MasterInvariantKept := fun _ _ hs h => masterInv_kept.step hs h

/-! ## The fault latches -/

/-- No operation but a construction clears the master's fault latch or changes its code. -/
theorem applyInput_masterFault {i : Input} {s t : State} (h : applyInput i s = .next t) (hf : s.m.fault = true)
    (hconstruct : ∀ c p k, i ≠ .constructMaster c p k) : t.m.fault = true ∧ t.m.faultCode = s.m.faultCode := by
  cases applyInput_applied h with
  | constructMaster c p k => exact absurd rfl (hconstruct c p k)
  | issue p0 p1 p2 p3 hissue =>
    obtain ⟨_, k⟩ | ⟨_, _, k⟩ | ⟨_, hlive, _⟩ := issueCommand_cases p0 p1 p2 p3 s
    · cases k.symm.trans hissue; exact ⟨hf, rfl⟩
    · cases k.symm.trans hissue; exact ⟨hf, rfl⟩
    · simp [hf] at hlive
  | constructSlave c p => rw [constructSlave_eq]; exact ⟨hf, rfl⟩
  | _ => exact ⟨hf, rfl⟩

/-- No operation but a construction clears the slave's fault latch or changes its code. -/
theorem applyInput_slaveFault {i : Input} {s t : State} (h : applyInput i s = .next t) (hf : s.s.fault = true)
    (hconstruct : ∀ c p, i ≠ .constructSlave c p) : t.s.fault = true ∧ t.s.faultCode = s.s.faultCode := by
  obtain ⟨a, b, c, hs⟩ := applyInput_slave h hconstruct
  rw [hs]
  exact ⟨hf, rfl⟩

/-- Settles O50: a halted context has no step of its own, and of the outside's operations only its construction reaches
its latch. -/
theorem faultLatchesClearOnlyByConstruction : Obligations.FaultLatchesClearOnlyByConstruction := by
  intro s t h
  obtain ⟨x, u, hgives, hstep⟩ := step_stepped h
  obtain ⟨ts, rfl⟩ := hgives.eq
  refine ⟨fun hf => ?master, fun hf => ?slave⟩
  case master =>
    have hsame : ∀ {v : State}, v.m = s.m → v.m.fault = true ∧ v.m.faultCode = s.m.faultCode := fun hm => by
      rw [hm]; exact ⟨hf, rfl⟩
    cases hstep with
    | timeout _ _ _ hrun => exact .inl (hsame (consume_outside hrun).1)
    | snapshot _ _ _ hrun => exact .inl (hsame (consume_outside hrun).1)
    | master hready _ => simp [masterReady, hf] at hready
    | timer _ hrun => subst hrun; exact .inl (hsame rfl)
    | rest hrun => subst hrun; exact .inl (hsame rfl)
    | outside i r hnext _ hrun =>
      by_cases hconstruct : ∃ c p k, i = .constructMaster c p k
      · obtain ⟨c, p, k, rfl⟩ := hconstruct
        cases hrun
        exact .inr ⟨c, p, k, r, hnext, rfl, rfl⟩
      · exact .inl (applyInput_masterFault (s := { s with turns := ts, inputs := r }) hrun hf
          fun c p k hi => hconstruct ⟨c, p, k, hi⟩)
  case slave =>
    have hsame : ∀ {v : State}, v.s = s.s → v.s.fault = true ∧ v.s.faultCode = s.s.faultCode := fun hs => by
      rw [hs]; exact ⟨hf, rfl⟩
    cases hstep with
    | timeout _ hready _ _ => simp [handlerReady, hf] at hready
    | snapshot _ hready _ _ => simp [handlerReady, hf] at hready
    | master _ hrun =>
      obtain ⟨m, e, env, timer, bufs, st, rfl, _⟩ := masterStep_frame hrun
      exact .inl (hsame rfl)
    | timer _ hrun => subst hrun; exact .inl (hsame rfl)
    | rest hrun => subst hrun; exact .inl (hsame rfl)
    | outside i r hnext _ hrun =>
      by_cases hconstruct : ∃ c p, i = .constructSlave c p
      · obtain ⟨c, p, rfl⟩ := hconstruct
        cases hrun
        rw [constructSlave_eq]
        exact .inr ⟨c, p, r, hnext, rfl, rfl, rfl, rfl⟩
      · exact .inl (applyInput_slaveFault (s := { s with turns := ts, inputs := r }) hrun hf
          fun c p hi => hconstruct ⟨c, p, hi⟩)

end Sys2Proof.MasterKept
end

section
/-! PROOFS. The two memories over every step (20_memory.md R41, R42, R47): their canonical form. -/

namespace Sys2Proof.Memories

open Sys2Proof Sys2Proof.Machine Sys2Proof.Safety Sys2Proof.Steps

/-- Settling an expansion writes the buffers only by its stores. -/
theorem settle_bufs_wf (ops : List Op) (s : State) (h : s.bufs.wf = true) : (settle ops s).1.bufs.wf = true := by
  fun_induction settle ops s <;> simp_all [write_wf]

theorem resume_bufs (ops : List Op) (s : State) : (resume ops s).bufs = (settle ops s).1.bufs := by
  unfold resume
  dsimp only
  split <;> rfl

theorem resume_bufs_wf (ops : List Op) {s : State} (h : s.bufs.wf = true) : (resume ops s).bufs.wf = true := by
  rw [resume_bufs]
  exact settle_bufs_wf ops s h

theorem CommandRan.bufs_wf {s t : State} (hran : CommandRan (accept s) t) (h : s.bufs.wf = true) : t.bufs.wf = true := by
  cases hran with
  | raised | configured | unclocked => exact h
  | began ops a p d _ => exact resume_bufs_wf ops h

theorem issueCommand_bufs_wf {p0 p1 p2 p3 : Word} {s t : State} (hrun : issueCommand p0 p1 p2 p3 s = .next t)
    (h : s.bufs.wf = true) : t.bufs.wf = true := by
  obtain ⟨_, k⟩ | ⟨_, _, k⟩ | ⟨_, _, u, hran, k⟩ := issueCommand_cases p0 p1 p2 p3 s <;> rw [k] at hrun <;> cases hrun
  · exact h
  · exact h
  · exact CommandRan.bufs_wf hran h

theorem masterStep_bufs_wf {s t : State} (hrun : masterStep s = .next t) (h : s.bufs.wf = true) :
    t.bufs.wf = true := by
  obtain ⟨u, rest, q, _, hmoved, k⟩ | ⟨rest, _, _, _, ⟨_, _, k⟩ | ⟨_, k⟩⟩ | ⟨rest, _, _, _, k⟩ | ⟨_, k⟩ :=
    masterStep_cases s <;> rw [k] at hrun <;> cases hrun
  · have hbufs : q.bufs = s.bufs := by
      cases hmoved with
      | get => obtain ⟨b, v, heq, _⟩ := masterSample_eq s; rw [heq]; rfl
      | _ => rfl
    exact resume_bufs_wf rest (hbufs ▸ h)
  · exact h
  · exact h
  · exact resume_bufs_wf _ h

/-- The slave's memory keeps its canonical form. -/
def MemKept (s t : State) : Prop := s.mem.wf = true → t.mem.wf = true

/-- Of the slave's own actions only the commit reaches the memory, and a write keeps the form. -/
theorem memKept_respected : Respected MemKept where
  refl _ := id
  trans h k := k ∘ h
  near _ _ _ := id
  release _ := id
  drive _ _ := id
  fire h s := by rw [fire_eq]; exact id
  write _ _ _ := write_wf

theorem spyIfEnabled_mem (y : Symbol) (s : State) : (spyIfEnabled y s).mem = s.mem := by
  obtain ⟨c, n, text, h⟩ := spyIfEnabled_eq y s
  rw [h]
  rfl

theorem consume_mem_wf {y : Symbol} {s t : State} (hrun : consume y s = .next t) (h : s.mem.wf = true) :
    t.mem.wf = true := by
  obtain ⟨_, k⟩ | ⟨_, _, k⟩ | ⟨x, u, _, _, hu, k⟩ | ⟨x, e, _, _, _, k⟩ := consume_cases y s <;> rw [k] at hrun <;>
    cases hrun
  · exact h
  · exact h
  · rw [spyIfEnabled_mem]
    exact runState_respects memKept_respected hu h

/-- The backing memory is written by no operation but HostMemWrite, inside its size. -/
theorem applyInput_mem {i : Input} {s t : State} (h : applyInput i s = .next t) :
    t.mem = s.mem ∨ ∃ k v, i = .memWrite k v ∧ k < s.s.cfg.memSize ∧ t.mem = s.mem.write k v := by
  cases applyInput_applied h with
  | memWrite k v hk => exact .inr ⟨k, v, rfl, hk, rfl⟩
  | issue p0 p1 p2 p3 hrun => obtain ⟨m, ct, bufs, st, rfl, _⟩ := issueCommand_next_frame hrun; exact .inl rfl
  | constructSlave c p => rw [constructSlave_eq]; exact .inl rfl
  | _ => exact .inl rfl

/-- The buffers are written by no operation but a command and HostBufWrite. -/
theorem applyInput_bufs_wf {i : Input} {s t : State} (hrun : applyInput i s = .next t) (h : s.bufs.wf = true) :
    t.bufs.wf = true := by
  cases applyInput_applied hrun with
  | issue p0 p1 p2 p3 hissue => exact issueCommand_bufs_wf hissue h
  | bufWrite buf k v => exact write_wf h
  | constructSlave c p => rw [constructSlave_eq]; exact h
  | _ => exact h

/-- Every agent keeps both memories canonical. -/
theorem memoriesWf_kept : KeptByAgents MemoriesWf where
  turns _ h := h
  inputs _ h := h
  handler y e h hrun := by
    obtain ⟨hmem, hbufs⟩ := h
    obtain ⟨_, _, _, _, hsame, _⟩ := consume_outside hrun
    exact ⟨consume_mem_wf hrun hmem, hsame.symm ▸ hbufs⟩
  master h _ hrun := by
    obtain ⟨hmem, hbufs⟩ := h
    refine ⟨?_, masterStep_bufs_wf hrun hbufs⟩
    obtain ⟨m, e, env, timer, bufs, st, rfl, _⟩ := masterStep_frame hrun
    exact hmem
  timer h := h
  outside i h _ hrun := by
    obtain ⟨hmem, hbufs⟩ := h
    refine ⟨?_, applyInput_bufs_wf hrun hbufs⟩
    obtain hsame | ⟨k, v, _, _, hwrite⟩ := applyInput_mem hrun
    · rwa [hsame]
    · rw [hwrite]
      exact write_wf hmem

/-- Bytes of different handles or indices stand apart (20_memory.md R47). -/
theorem bufKey_inj (b b' i i' : Word) : bufKey b i.toNat = bufKey b' i'.toNat ↔ b = b' ∧ i = i' := by
  have hi := i.isLt
  have hi' := i'.isLt
  simp only [bufKey, ← BitVec.toNat_inj]
  omega

/-- Settles O56: every agent keeps the form, in which `read_write` is the memory's law. -/
theorem memoriesKeepCanonicalForm : Obligations.MemoriesKeepCanonicalForm :=
  ⟨fun _ _ hs h => memoriesWf_kept.step hs h, fun _ _ _ c hm => read_write hm c, bufKey_inj⟩

end Sys2Proof.Memories
end

section
/-! PROOFS. The edges of the data-bearing states (44_slave_fsm.md R177 to R188): what the state function answers, branch
by branch. -/

namespace Sys2Proof.SlaveFsm

open Sys2Proof Sys2Proof.Machine Sys2Proof.Safety

/-! ## A receive state on a rising edge -/

/-- `s` with a bit entered at the mask and the mask moved on (R177). -/
def bitEntered (b : Bool) (s : State) : State :=
  { s with s := { s.s with sr := byteWithBit b s.s, mask := s.s.mask >>> 1 } }

theorem accum_of_spent {x : Slave} (hspent : x.mask = 0#8) (b : Bool) : accum b x = x := if_neg (not_not.mpr hspent)

/-- A rising edge in the two states that receive a byte without comparing it (R181, R183). -/
theorem stateFn_rising_accum {x : StateName} (hx : x = .receiveSubAddress ∨ x = .receiveData) (b : Bool) (s : State) :
    stateFn x (rising b) s = .ok (s.setS (accum b s.s), x) := by
  obtain rfl | rfl := hx <;> cases b <;> rfl

theorem stateFn_rising_address (b : Bool) (s : State) : stateFn .receiveAddress (rising b) s = addressRise b s :=
  commonFn_rising ..

/-- With the mask spent a rising edge does nothing (R177). -/
theorem stateFn_rising_spent {x : StateName} (hx : x ∈ receiveStates) {s : State} (hspent : s.s.mask = 0#8) (b : Bool) :
    stateFn x (rising b) s = .ok (s, x) := by
  simp only [receiveStates, List.mem_cons, List.not_mem_nil, or_false] at hx
  obtain rfl | hx := hx
  · rw [stateFn_rising_address, addressRise, accum_of_spent hspent]
    exact if_neg fun h => h.1 hspent
  · rw [stateFn_rising_accum hx, accum_of_spent hspent]
    rfl

/-- While bits are due a rising edge enters its bit, but for the last one of the address (R177, R178). -/
theorem stateFn_rising_due {x : StateName} (hx : x ∈ receiveStates) {s : State} (hdue : s.s.mask ≠ 0#8)
    (hmore : x = .receiveAddress → s.s.mask >>> 1 ≠ 0#8) (b : Bool) :
    stateFn x (rising b) s = .ok (bitEntered b s, x) := by
  simp only [receiveStates, List.mem_cons, List.not_mem_nil, or_false] at hx
  obtain rfl | hx := hx
  · rw [stateFn_rising_address, addressRise, accum_of_due hdue]
    exact if_neg fun h => hmore rfl h.2
  · rw [stateFn_rising_accum hx, accum_of_due hdue]
    rfl

/-- Settles O11: the bit is entered while bits are due, and nothing happens once they are spent. -/
theorem risingEdgeAccumulates : Obligations.RisingEdgeAccumulates := by
  intro x s b hx h
  refine ⟨fun hspent => ?spent, fun hdue haddress hmore => ?address, fun hdue hother => ?other⟩
  case spent => exact exec_symbol_ignored h (stateFn_rising_spent (s := withSym (rising b) s) hx hspent b)
  case address =>
    exact exec_symbol_stays h (stateFn_rising_due (s := withSym (rising b) s) hx hdue (fun _ => hmore) b)
  case other =>
    exact exec_symbol_stays h
      (stateFn_rising_due (s := withSym (rising b) s) hx hdue (fun haddress => absurd haddress hother) b)

/-! ## The commits of the three receive states -/

/-- What ends the byte of a receive state (R180, R182, R184). -/
def commitOf (x : StateName) : State → Moved :=
  match x with
  | .receiveSubAddress => subAddressCommit
  | .receiveData => dataCommit
  | _ => addressCommit

/-- A receive state answers a falling edge by ACKEDGE with its commit (R177). -/
theorem stateFn_falling {x : StateName} (hx : x ∈ receiveStates) {y : Symbol} (hy : y = .fe0 ∨ y = .fe1) (s : State) :
    stateFn x y s = ackEdge x (commitOf x) s := by
  simp only [receiveStates, List.mem_cons, List.not_mem_nil, or_false] at hx
  obtain rfl | rfl | rfl := hx <;> obtain rfl | rfl := hy <;> rfl

/-- `s` with the acknowledge phase over and the mask of the next byte, before the commit. -/
def ackOver (s : State) : State := s.setS { s.s with ackPhase := false, mask := 0x80#8 }

/-- The falling edge that ends the acknowledge clock runs the state's commit (R177). -/
theorem stateFn_commits {x : StateName} (hx : x ∈ receiveStates) {y : Symbol} (hy : y = .fe0 ∨ y = .fe1) {s : State}
    (hspent : s.s.mask = 0#8) (hphase : s.s.ackPhase = true) : stateFn x y s = commitOf x (ackOver s) := by
  rw [stateFn_falling hx hy, ackEdge, if_neg (not_not.mpr hspent), if_neg (by simp [hphase]), ackOver]

/-- A byte ended: SDA released and the next byte begun, in the state it ends in. -/
def byteEnded (s : State) : State :=
  { slaveReleaseSda s with s := { s.s with sdaDir := .inp, ackPhase := false, mask := 0x80#8, sr := 0#8 } }

/-- A read address ended: the byte at the cursor is staged and its bit 7 driven (R180). -/
def readStaged (s : State) : State :=
  { slaveSetSda ((s.mem.read s.s.cursor).getLsbD 7) s with
    s := { s.s with
      sdaDir := .out, sdaVal := (s.mem.read s.s.cursor).getLsbD 7, ackPhase := false, mask := 0x80#8
      sr := s.mem.read s.s.cursor } }

/-- The cursor committed (R182). -/
def cursorCommitted (s : State) : State :=
  { slaveReleaseSda s with
    s := { s.s with
      sdaDir := .inp, ackPhase := false, mask := 0x80#8, sr := 0#8
      cursor := s.s.sr.toNat % s.s.cfg.memSize, initCursor := s.s.sr.toNat % s.s.cfg.memSize } }

/-- The byte committed to the memory (R184). -/
def byteCommitted (s : State) : State :=
  { slaveReleaseSda s with
    mem := s.mem.write s.s.cursor s.s.sr
    s := { s.s with
      sdaDir := .inp, ackPhase := false, mask := 0x80#8, sr := 0#8
      cursor := (s.s.cursor + 1) % s.s.cfg.memSize, memWritten := true } }

theorem readMem_outside {s : State} {i : Nat} (h : s.s.cfg.memSize ≤ i) : readMem s i = .error .memIndex :=
  if_neg (not_lt.mpr h)

theorem writeMem_outside {s : State} {i : Nat} (h : s.s.cfg.memSize ≤ i) (v : Byte) :
    writeMem s i v = .error .memIndex := if_neg (not_lt.mpr h)

theorem reduceIndex_empty {c : SlaveCfg} (h : c.memSize = 0) (v : Byte) : reduceIndex c v = .error .memIndex := if_pos h

theorem reduceIndex_mod {c : SlaveCfg} (h : c.memSize ≠ 0) (v : Byte) : reduceIndex c v = .ok (v.toNat % c.memSize) :=
  if_neg h

/-- Staging the byte at the cursor stops outside the memory. -/
theorem stageByte_outside {s : State} (h : s.s.cfg.memSize ≤ s.s.cursor) : stageByte s = .error .memIndex := by
  rw [stageByte, readMem_outside h]

/-- Staging the byte at the cursor drives its bit 7. -/
theorem stageByte_inside {s : State} (h : s.s.cursor < s.s.cfg.memSize) :
    stageByte s =
      .ok (slaveSetSda ((s.mem.read s.s.cursor).getLsbD 7) (s.setS { s.s with sr := s.mem.read s.s.cursor })) := by
  rw [stageByte, readMem_lt h]

theorem addressCommit_read {s : State} (hread : s.s.decodedAddr.getLsbD 0 = true) :
    addressCommit s = (stageByte s).map fun t => (t, .transmit) := by
  rw [addressCommit, if_neg (by rw [hread]; decide)]
  cases stageByte s <;> rfl

theorem subAddressCommit_mod {s : State} (h : s.s.cfg.memSize ≠ 0) :
    Machine.subAddressCommit s =
      .ok ({ slaveReleaseSda s with
        s := { s.s with
          sdaDir := .inp, cursor := s.s.sr.toNat % s.s.cfg.memSize, initCursor := s.s.sr.toNat % s.s.cfg.memSize
          sr := 0#8 } }, .receiveData) := by
  rw [Machine.subAddressCommit, reduceIndex_mod h]
  rfl

theorem subAddressCommit_empty {s : State} (h : s.s.cfg.memSize = 0) :
    Machine.subAddressCommit s = .error .memIndex := by
  rw [Machine.subAddressCommit, reduceIndex_empty h]

theorem dataCommit_inside {s : State} (h : s.s.cursor < s.s.cfg.memSize) :
    dataCommit s =
      .ok ({ slaveReleaseSda s with
        mem := s.mem.write s.s.cursor s.s.sr
        s := { s.s with sdaDir := .inp, cursor := nextCursor s.s, memWritten := true, sr := 0#8 } }, .receiveData) := by
  rw [dataCommit, writeMem_lt (s := slaveReleaseSda s) h]
  rfl

theorem dataCommit_outside {s : State} (h : s.s.cfg.memSize ≤ s.s.cursor) : dataCommit s = .error .memIndex := by
  rw [dataCommit, writeMem_outside (s := slaveReleaseSda s) h]

section

variable {y : Symbol} (hy : y = .fe0 ∨ y = .fe1) {s : State} (hspent : s.s.mask = 0#8) (hphase : s.s.ackPhase = true)
include hy hspent hphase

/-- A write address goes on to the sub-address (R180). -/
theorem stateFn_writeAddress (hwrite : s.s.decodedAddr.getLsbD 0 = false) :
    stateFn .receiveAddress y s = .ok (byteEnded s, .receiveSubAddress) :=
  (stateFn_commits (by decide) hy hspent hphase).trans (if_pos hwrite)

/-- A read address goes on to Transmit with the byte at the cursor staged (R180). -/
theorem stateFn_readAddress (hread : s.s.decodedAddr.getLsbD 0 = true) (hc : s.s.cursor < s.s.cfg.memSize) :
    stateFn .receiveAddress y s = .ok (readStaged s, .transmit) := by
  have hcommit := addressCommit_read (s := ackOver s) hread
  rw [stageByte_inside (s := ackOver s) hc] at hcommit
  exact (stateFn_commits (by decide) hy hspent hphase).trans hcommit

theorem stateFn_readAddress_outside (hread : s.s.decodedAddr.getLsbD 0 = true) (hc : s.s.cfg.memSize ≤ s.s.cursor) :
    stateFn .receiveAddress y s = .error .memIndex := by
  have hcommit := addressCommit_read (s := ackOver s) hread
  rw [stageByte_outside (s := ackOver s) hc] at hcommit
  exact (stateFn_commits (by decide) hy hspent hphase).trans hcommit

/-- The sub-address becomes both cursors (R182). -/
theorem stateFn_subAddress (hsize : s.s.cfg.memSize ≠ 0) :
    stateFn .receiveSubAddress y s = .ok (cursorCommitted s, .receiveData) :=
  (stateFn_commits (by decide) hy hspent hphase).trans (subAddressCommit_mod (s := ackOver s) hsize)

theorem stateFn_subAddress_empty (hsize : s.s.cfg.memSize = 0) :
    stateFn .receiveSubAddress y s = .error .memIndex :=
  (stateFn_commits (by decide) hy hspent hphase).trans (subAddressCommit_empty (s := ackOver s) hsize)

/-- The data byte is written at the cursor (R184). -/
theorem stateFn_data (hc : s.s.cursor < s.s.cfg.memSize) :
    stateFn .receiveData y s = .ok (byteCommitted s, .receiveData) :=
  (stateFn_commits (by decide) hy hspent hphase).trans (dataCommit_inside (s := ackOver s) hc)

theorem stateFn_data_outside (hc : s.s.cfg.memSize ≤ s.s.cursor) :
    stateFn .receiveData y s = .error .memIndex :=
  (stateFn_commits (by decide) hy hspent hphase).trans (dataCommit_outside (s := ackOver s) hc)

end

/-- The symbol row where the state function itself stops. -/
theorem exec_symbol_stops {x : StateName} {y : Symbol} {s : State} {e : Fault} (h : Stored x s)
    (hstop : stateFn x y (withSym y s) = .error e) : exec (symbolInstr y) s = .fault e :=
  exec_symbol_error h (by simp only [runState, hstop])

/-- Settles O14: the two branches of the address commit, and the stop of the read branch. -/
theorem addressCommitBranches : Obligations.AddressCommitBranches := by
  intro s y h hy hspent hphase
  refine ⟨fun hwrite => ?write, fun hread hc => ?read, fun hread hc => ?outside⟩
  case write => exact exec_symbol_moves h (stateFn_writeAddress (s := withSym y s) hy hspent hphase hwrite) rfl
  case read => exact exec_symbol_moves h (stateFn_readAddress (s := withSym y s) hy hspent hphase hread hc) rfl
  case outside => exact exec_symbol_stops h (stateFn_readAddress_outside (s := withSym y s) hy hspent hphase hread hc)

/-- Settles O15: the cursor commit and its stop. -/
theorem subAddressCommit : Obligations.SubAddressCommit := by
  intro s y h hy hspent hphase
  refine ⟨fun hsize => ?commit, fun hsize => ?empty⟩
  case commit => exact exec_symbol_moves h (stateFn_subAddress (s := withSym y s) hy hspent hphase hsize) rfl
  case empty => exact exec_symbol_stops h (stateFn_subAddress_empty (s := withSym y s) hy hspent hphase hsize)

/-- Settles O16: the memory commit and its stop; the frame of the memory is `read_write`. -/
theorem dataCommitStoresTheByte : Obligations.DataCommitStoresTheByte := by
  intro s y h hy hspent hphase
  refine ⟨fun hc => ?commit, fun hc => ?outside, fun hwf a => read_write hwf a⟩
  case commit => exact exec_symbol_stays h (stateFn_data (s := withSym y s) hy hspent hphase hc)
  case outside => exact exec_symbol_stops h (stateFn_data_outside (s := withSym y s) hy hspent hphase hc)

/-! ## Transmit on a falling edge -/

/-- The bit at the mask driven (R187). -/
def bitDriven (s : State) : State := slaveSetSda (stagedBit s.s) s

/-- SDA released for the master's acknowledge bit (R187). -/
def releasedForAck (s : State) : State :=
  { slaveReleaseSda s with s := { s.s with sdaDir := .inp, ackPhase := true } }

/-- The next byte begun at the advanced cursor, before it is staged (R188). -/
def cursorAdvanced (s : State) : State :=
  s.setS { s.s with cursor := nextCursor s.s, memRead := true, mask := 0x80#8, ackPhase := false }

/-- The next byte, staged at the advanced cursor (R188). -/
def nextStaged (s : State) : State :=
  { slaveSetSda ((s.mem.read (nextCursor s.s)).getLsbD 7) s with
    s := { s.s with
      sdaDir := .out, sdaVal := (s.mem.read (nextCursor s.s)).getLsbD 7, cursor := nextCursor s.s
      sr := s.mem.read (nextCursor s.s), memRead := true, mask := 0x80#8, ackPhase := false } }

theorem nextCursor_lt {x : Slave} (h : x.cfg.memSize ≠ 0) : nextCursor x < x.cfg.memSize :=
  Nat.mod_lt _ (Nat.pos_of_ne_zero h)

section

variable {y : Symbol} (hy : y = .fe0 ∨ y = .fe1) {s : State}
include hy

theorem stateFn_transmit_falling : stateFn .transmit y s = transmitFall s := commonFn_falling _ _ _ hy _

theorem stateFn_transmit_bit (hdue : s.s.mask ≠ 0#8) : stateFn .transmit y s = .ok (bitDriven s, .transmit) :=
  (stateFn_transmit_falling hy).trans (if_pos hdue)

theorem stateFn_transmit_release (hspent : s.s.mask = 0#8) (hphase : s.s.ackPhase = false) :
    stateFn .transmit y s = .ok (releasedForAck s, .transmit) := by
  rw [stateFn_transmit_falling hy, transmitFall, if_neg (not_not.mpr hspent), if_pos hphase]
  rfl

/-- The edge that ends the acknowledge clock stages the byte at the advanced cursor (R188). -/
theorem stateFn_transmit_next_eq (hspent : s.s.mask = 0#8) (hphase : s.s.ackPhase = true) :
    stateFn .transmit y s = (stageByte (cursorAdvanced s)).map fun t => (t, .transmit) := by
  rw [stateFn_transmit_falling hy, transmitFall, if_neg (not_not.mpr hspent), if_neg (by rw [hphase]; decide),
    cursorAdvanced]
  cases stageByte _ <;> rfl

theorem stateFn_transmit_next (hspent : s.s.mask = 0#8) (hphase : s.s.ackPhase = true) (hsize : s.s.cfg.memSize ≠ 0) :
    stateFn .transmit y s = .ok (nextStaged s, .transmit) := by
  rw [stateFn_transmit_next_eq hy hspent hphase, stageByte_inside (s := cursorAdvanced s) (nextCursor_lt hsize)]
  rfl

theorem stateFn_transmit_next_empty (hspent : s.s.mask = 0#8) (hphase : s.s.ackPhase = true)
    (hsize : s.s.cfg.memSize = 0) : stateFn .transmit y s = .error .memIndex := by
  have hout : (cursorAdvanced s).s.cfg.memSize ≤ (cursorAdvanced s).s.cursor := hsize ▸ Nat.zero_le _
  rw [stateFn_transmit_next_eq hy hspent hphase, stageByte_outside hout]
  rfl

end

/-- Settles O18: the three branches of Transmit on a falling edge, and the stop of the last. -/
theorem transmitOnFallingEdge : Obligations.TransmitOnFallingEdge := by
  refine ⟨fun s y h hy => ⟨fun hdue => ?bit, fun hspent hphase => ?release⟩,
    fun s y h hy hspent hphase => ⟨fun hsize c v hc hv => ?next, fun hsize => ?empty⟩⟩
  case bit => exact exec_symbol_stays h (stateFn_transmit_bit (s := withSym y s) hy hdue)
  case release => exact exec_symbol_stays h (stateFn_transmit_release (s := withSym y s) hy hspent hphase)
  case next =>
    subst hc hv
    exact exec_symbol_stays h (stateFn_transmit_next (s := withSym y s) hy hspent hphase hsize)
  case empty => exact exec_symbol_stops h (stateFn_transmit_next_empty (s := withSym y s) hy hspent hphase hsize)

/-! ## The bit of a falling edge -/

/-- Every state function ignores the bit of a falling edge (R168). -/
theorem stateFn_fe (x : StateName) : stateFn x .fe0 = stateFn x .fe1 := by cases x <;> rfl

theorem passOn_fe (n : Nat) (r : State × StateName) : passOn n .fe0 r = passOn n .fe1 r := by
  induction n generalizing r with
  | zero => rfl
  | succ n ih => simp only [passOn, stateFn_fe, ih]

theorem runState_fe (x : StateName) (s : State) : runState x .fe0 s = runState x .fe1 s := by
  simp only [runState, stateFn_fe, passOn_fe]

theorem spyIfEnabled_falling {y : Symbol} (hy : y = .fe0 ∨ y = .fe1) (s : State) : spyIfEnabled y s = s := by
  obtain rfl | rfl := hy <;> exact ite_self s

/-- The slave's own actions leave the record of the current symbol. -/
theorem runState_sym {x : StateName} {y : Symbol} {s t : State} (h : runState x y s = .ok t) : t.s.sym = s.s.sym :=
  runState_respects (Steps.respected_of_register (·.sym) (fun _ _ h => by rw [h]) (fun _ _ _ => rfl)
    (fun _ _ _ _ => rfl)) h

/-- From another recorded symbol a run ends with that record, and otherwise as before. -/
theorem runState_withSym_ok {x : StateName} {y z : Symbol} {s t : State} (h : runState x y s = .ok t) :
    runState x y (withSym z s) = .ok (withSym z t) := by
  have hrelabel := runState_relabel x y s.s.state z s
  rw [h] at hrelabel
  exact hrelabel

theorem runState_withSym_error {x : StateName} {y z : Symbol} {s : State} {e : Fault}
    (h : runState x y s = .error e) : runState x y (withSym z s) = .error e := by
  have hrelabel := runState_relabel x y s.s.state z s
  rw [h] at hrelabel
  exact hrelabel

/-- Where FE0 ends, FE1 ends in the same state but for the record of the symbol. -/
theorem exec_fe_ok {x : StateName} {s u : State} (h : Stored x s) (hu : runState x .fe0 (withSym .fe0 s) = .ok u) :
    exec .symFe0 s = .next u ∧ exec .symFe1 s = .next (withSym .fe1 u) ∧ u.s.sym = .fe0 := by
  have hu1 : runState x .fe1 (withSym .fe1 s) = .ok (withSym .fe1 u) :=
    runState_withSym_ok (s := withSym .fe0 s) (runState_fe x _ ▸ hu)
  have h0 := exec_symbol_ok h hu
  have h1 := exec_symbol_ok h hu1
  rw [spyIfEnabled_falling (.inl rfl)] at h0
  rw [spyIfEnabled_falling (.inr rfl)] at h1
  exact ⟨h0, h1, runState_sym hu⟩

/-- Where FE0 stops, FE1 stops for the same reason. -/
theorem exec_fe_error {x : StateName} {s : State} {e : Fault} (h : Stored x s)
    (he : runState x .fe0 (withSym .fe0 s) = .error e) : exec .symFe0 s = .fault e ∧ exec .symFe1 s = .fault e :=
  ⟨exec_symbol_error (y := .fe0) h he,
    exec_symbol_error (y := .fe1) h (runState_withSym_error (s := withSym .fe0 s) (runState_fe x _ ▸ he))⟩

/-- Two states with the same recorded symbol that agree once it is replaced are one. -/
theorem eq_of_withSym_eq {y : Symbol} {s t : State} (h : withSym y s = withSym y t) (hsym : s.s.sym = t.s.sym) :
    s = t := by
  have hback := congrArg (withSym s.s.sym) h
  have hs : withSym s.s.sym (withSym y s) = s := rfl
  have ht : withSym s.s.sym (withSym y t) = t := by rw [hsym]; rfl
  rwa [hs, ht] at hback

/-- Settles O19: both edges run the same state function, from states that differ in the recorded symbol alone. -/
theorem fallingEdgeBitIsUnused : Obligations.FallingEdgeBitIsUnused := by
  intro x s h
  cases hrun : runState x .fe0 (withSym .fe0 s) with
  | ok u =>
    obtain ⟨h0, h1, hsym⟩ := exec_fe_ok h hrun
    rw [h0, h1]
    refine ⟨fun t => ⟨fun ht => ?same, fun ⟨ht, hsymt⟩ => ?back⟩, fun e => ⟨nofun, nofun⟩⟩
    case same =>
      cases ht
      exact ⟨rfl, hsym⟩
    case back =>
      injection ht with ht
      rw [eq_of_withSym_eq ht (hsym.trans hsymt.symm)]
  | error e =>
    obtain ⟨h0, h1⟩ := exec_fe_error h hrun
    rw [h0, h1]
    exact ⟨fun t => ⟨nofun, fun ht => nomatch ht.1⟩, fun _ => Iff.rfl⟩

end Sys2Proof.SlaveFsm
end

section
/-! PROOFS. Everything a state function can answer in a stored state (44_slave_fsm.md R173 to R188), and the invariants
of the slave over every step (R190). -/

namespace Sys2Proof.SlaveKept

open Sys2Proof Sys2Proof.Machine Sys2Proof.Safety Sys2Proof.Steps Sys2Proof.SlaveFsm

/-! ## The answers of a state function -/

/-- The answers of the stored state `x` to the symbol `y` from `s`: the state after the actions and the next state. -/
inductive Answer (s : State) : StateName → Symbol → State → StateName → Prop
  | stays (x : StateName) (y : Symbol) : Answer s x y s x
  | start (x : StateName) : Answer s x .start s .startBitReceived
  | stop (x : StateName) : Answer s x .stop (busFreed s) .idle
  | leaves (x : StateName) (y : Symbol) : Answer s x y s .idle
  | bit {x : StateName} (hx : x ∈ receiveStates) (b : Bool) (hdue : s.s.mask ≠ 0#8)
      (hmore : x = .receiveAddress → s.s.mask >>> 1 ≠ 0#8) : Answer s x (rising b) (bitEntered b s) x
  | addressMatched (b : Bool) (hmatch : addrMatch s.s.cfg (byteWithBit b s.s) = true) :
      Answer s .receiveAddress (rising b) { s with
        s := { s.s with sr := byteWithBit b s.s, mask := 0#8, decodedAddr := byteWithBit b s.s } } .receiveAddress
  | addressOther (b : Bool) :
      Answer s .receiveAddress (rising b) { s with s := { s.s with sr := byteWithBit b s.s, mask := 0#8 } } .idle
  | acknowledges {x : StateName} {y : Symbol} (hx : x ∈ receiveStates) (hy : y = .fe0 ∨ y = .fe1)
      (hspent : s.s.mask = 0#8) (hphase : s.s.ackPhase = false) :
      Answer s x y { slaveSetSda false s with
        s := { s.s with sdaDir := .out, sdaVal := false, ackPhase := true } } x
  | writeAddress {y : Symbol} (hy : y = .fe0 ∨ y = .fe1) :
      Answer s .receiveAddress y (byteEnded s) .receiveSubAddress
  | readAddress {y : Symbol} (hy : y = .fe0 ∨ y = .fe1) : Answer s .receiveAddress y (readStaged s) .transmit
  | subAddress {y : Symbol} (hy : y = .fe0 ∨ y = .fe1) (hsize : s.s.cfg.memSize ≠ 0) :
      Answer s .receiveSubAddress y (cursorCommitted s) .receiveData
  | data {y : Symbol} (hy : y = .fe0 ∨ y = .fe1) (hspent : s.s.mask = 0#8) (hphase : s.s.ackPhase = true)
      (hc : s.s.cursor < s.s.cfg.memSize) : Answer s .receiveData y (byteCommitted s) .receiveData
  | readback (b : Bool) (hdue : s.s.mask ≠ 0#8) :
      Answer s .transmit (rising b) { s with s := { s.s with mask := s.s.mask >>> 1 } } .transmit
  | notAcknowledged (b : Bool) : Answer s .transmit (rising b) { s with s := { s.s with memRead := true } } .idle
  | transmitBit {y : Symbol} (hy : y = .fe0 ∨ y = .fe1) : Answer s .transmit y (bitDriven s) .transmit
  | transmitRelease {y : Symbol} (hy : y = .fe0 ∨ y = .fe1) (hspent : s.s.mask = 0#8) :
      Answer s .transmit y (releasedForAck s) .transmit
  | transmitNext {y : Symbol} (hy : y = .fe0 ∨ y = .fe1) (hsize : s.s.cfg.memSize ≠ 0) :
      Answer s .transmit y (nextStaged s) .transmit

/-- A symbol that is no edge is a frame symbol or Void. -/
theorem symbol_cases (y : Symbol) :
    (∃ b, y = rising b) ∨ (y = .fe0 ∨ y = .fe1) ∨ y = .start ∨ y = .stop ∨ y = .error ∨ y = .timeout ∨ y = .void := by
  cases y with
  | re0 => exact .inl ⟨false, rfl⟩
  | re1 => exact .inl ⟨true, rfl⟩
  | _ => simp

section

variable {s t : State} {z : StateName}

theorem Answer.of_eq {x : StateName} {y : Symbol} {t' : State} {z' : StateName} (ha : Answer s x y t' z')
    (he : stateFn x y s = .ok (t', z')) (h : stateFn x y s = .ok (t, z)) : Answer s x y t z := by
  cases he.symm.trans h
  exact ha

/-- A rising edge in a receive state. -/
theorem answer_receive_rising {x : StateName} (hx : x ∈ receiveStates) {b : Bool}
    (h : stateFn x (rising b) s = .ok (t, z)) : Answer s x (rising b) t z := by
  by_cases hspent : s.s.mask = 0#8
  · exact .of_eq (.stays x _) (stateFn_rising_spent hx hspent b) h
  by_cases hlast : x = .receiveAddress ∧ s.s.mask >>> 1 = 0#8
  · obtain ⟨rfl, hlast⟩ := hlast
    have hend := stateFn_addressEnd hspent hlast b
    cases hmatch : addrMatch s.s.cfg (byteWithBit b s.s) with
    | true => exact .of_eq (.addressMatched b hmatch) (hend.trans (if_pos hmatch)) h
    | false => exact .of_eq (.addressOther b) (hend.trans (if_neg (Bool.eq_false_iff.mp hmatch))) h
  · have hmore : x = .receiveAddress → s.s.mask >>> 1 ≠ 0#8 := fun hxa hm => hlast ⟨hxa, hm⟩
    exact .of_eq (.bit hx b hspent hmore) (stateFn_rising_due hx hspent hmore b) h

/-- A falling edge in a receive state. -/
theorem answer_receive_falling {x : StateName} (hx : x ∈ receiveStates) {y : Symbol} (hy : y = .fe0 ∨ y = .fe1)
    (h : stateFn x y s = .ok (t, z)) : Answer s x y t z := by
  by_cases hdue : s.s.mask ≠ 0#8
  · exact .of_eq (.stays x y) ((stateFn_falling hx hy s).trans (ackEdge_of_due hdue _ _)) h
  have hspent : s.s.mask = 0#8 := not_not.mp hdue
  cases hphase : s.s.ackPhase with
  | false =>
    exact .of_eq (.acknowledges hx hy hspent hphase) ((stateFn_falling hx hy s).trans (ackEdge_setUp hspent hphase _ _)) h
  | true =>
    simp only [receiveStates, List.mem_cons, List.not_mem_nil, or_false] at hx
    obtain rfl | rfl | rfl := hx
    · cases hbit : s.s.decodedAddr.getLsbD 0 with
      | false => exact .of_eq (.writeAddress hy) (stateFn_writeAddress hy hspent hphase hbit) h
      | true =>
        by_cases hc : s.s.cursor < s.s.cfg.memSize
        · exact .of_eq (.readAddress hy) (stateFn_readAddress hy hspent hphase hbit hc) h
        · cases (stateFn_readAddress_outside hy hspent hphase hbit (not_lt.mp hc)).symm.trans h
    · by_cases hsize : s.s.cfg.memSize = 0
      · cases (stateFn_subAddress_empty hy hspent hphase hsize).symm.trans h
      · exact .of_eq (.subAddress hy hsize) (stateFn_subAddress hy hspent hphase hsize) h
    · by_cases hc : s.s.cursor < s.s.cfg.memSize
      · exact .of_eq (.data hy hspent hphase hc) (stateFn_data hy hspent hphase hc) h
      · cases (stateFn_data_outside hy hspent hphase (not_lt.mp hc)).symm.trans h

theorem answer_transmit_rising {b : Bool} (h : stateFn .transmit (rising b) s = .ok (t, z)) :
    Answer s .transmit (rising b) t z := by
  rw [stateFn_transmit_rising] at h
  by_cases hdue : s.s.mask ≠ 0#8
  · by_cases hsame : b = stagedBit s.s
    · cases ((transmitRise_of_due hdue b).trans (if_pos hsame)).symm.trans h
      exact .readback b hdue
    · cases ((transmitRise_of_due hdue b).trans (if_neg hsame)).symm.trans h
      exact .leaves _ _
  · have hspent := transmitRise_of_spent (not_not.mp hdue) b
    by_cases hnack : s.s.cfg.honoursNack = true ∧ s.s.ackPhase = true ∧ b = true
    · cases (hspent.trans (if_pos hnack)).symm.trans h
      exact .notAcknowledged b
    · cases (hspent.trans (if_neg hnack)).symm.trans h
      exact .stays _ _

theorem answer_transmit_falling {y : Symbol} (hy : y = .fe0 ∨ y = .fe1) (h : stateFn .transmit y s = .ok (t, z)) :
    Answer s .transmit y t z := by
  by_cases hdue : s.s.mask ≠ 0#8
  · exact .of_eq (.transmitBit hy) (stateFn_transmit_bit hy hdue) h
  have hspent : s.s.mask = 0#8 := not_not.mp hdue
  cases hphase : s.s.ackPhase with
  | false => exact .of_eq (.transmitRelease hy hspent) (stateFn_transmit_release hy hspent hphase) h
  | true =>
    by_cases hsize : s.s.cfg.memSize = 0
    · cases (stateFn_transmit_next_empty hy hspent hphase hsize).symm.trans h
    · exact .of_eq (.transmitNext hy hsize) (stateFn_transmit_next hy hspent hphase hsize) h

/-- An edge in WaitForStart does nothing (R174). -/
theorem waitForStart_edge {y : Symbol} (hy : (∃ b, y = rising b) ∨ y = .fe0 ∨ y = .fe1) :
    stateFn .waitForStart y s = .ok (s, .waitForStart) := by
  obtain ⟨b, rfl⟩ | rfl | rfl := hy
  · cases b <;> rfl
  · rfl
  · rfl

/-- Whatever a stored state answers is one of these. -/
theorem stateFn_answer {x : StateName} {y : Symbol} (hx : passThrough x = false) (h : stateFn x y s = .ok (t, z)) :
    Answer s x y t z := by
  obtain ⟨rise, fall, hcommon⟩ := stateFn_eq_commonFn hx
  obtain ⟨b, rfl⟩ | hy | rfl | rfl | rfl | rfl | rfl := symbol_cases y
  · cases x with
    | idle | startBitReceived => cases hx
    | waitForStart => exact .of_eq (.stays _ _) (waitForStart_edge (.inl ⟨b, rfl⟩)) h
    | receiveAddress | receiveSubAddress | receiveData => exact answer_receive_rising (by decide) h
    | transmit => exact answer_transmit_rising h
  · cases x with
    | idle | startBitReceived => cases hx
    | waitForStart => exact .of_eq (.stays _ _) (waitForStart_edge (.inr hy)) h
    | receiveAddress | receiveSubAddress | receiveData => exact answer_receive_falling (by decide) hy h
    | transmit => exact answer_transmit_falling hy h
  · exact .of_eq (.start x) (hcommon ..) h
  · exact .of_eq (.stop x) (hcommon ..) h
  · exact .of_eq (.leaves x _) (hcommon ..) h
  · exact .of_eq (.leaves x _) (hcommon ..) h
  · exact .of_eq (.stays x _) (hcommon ..) h

end

/-- `u` with the stored state replaced. -/
def storedIn (z : StateName) (u : State) : State := u.setS { u.s with state := stateCode z }

/-- `u` after StartBitReceived, with ReceiveAddress stored (R175). -/
def addressBegun (u : State) : State :=
  u.setS { u.s with
    busBusy := true, sr := 0#8, mask := 0x80#8, ackPhase := false, state := stateCode .receiveAddress }

/-- What an invocation ends in after the answer `z`: the state is stored, or passed through to the next one (R166). -/
inductive Ended (y : Symbol) (u : State) (z : StateName) : State → Prop
  | stored (hz : passThrough z = false) : Ended y u z (storedIn z u)
  | idle (hz : z = .idle) {t : State} (ht : IdleDone y u t) : Ended y u z t
  | startBit (hz : z = .startBitReceived) : Ended y u z (addressBegun u)

/-- An invocation is its state function's answer and what it passes on to. -/
theorem runState_ended {x : StateName} {y : Symbol} {s t : State} (hx : passThrough x = false)
    (h : runState x y s = .ok t) : ∃ u z, Answer s x y u z ∧ Ended y u z t := by
  cases hr : stateFn x y s with
  | error e => simp [runState, hr] at h
  | ok r =>
    obtain ⟨u, z⟩ := r
    refine ⟨u, z, stateFn_answer hx hr, ?_⟩
    cases z with
    | idle =>
      cases (runState_idle hr).symm.trans h
      exact .idle rfl (idleDone y u)
    | startBitReceived =>
      cases (runState_startBit hr).symm.trans h
      exact .startBit rfl
    | waitForStart | receiveAddress | receiveSubAddress | receiveData | transmit =>
      cases (runState_stays hr rfl).symm.trans h
      exact .stored rfl

/-! ## The registers: R190 (a), (b), (c), (d), (f), (g) and R167 -/

/-- What holds in every state, the two passed through included: R190 (a), (b) and (c). -/
def Regs (x : Slave) : Prop :=
  (x.cursor < x.cfg.memSize ∧ x.initCursor < x.cfg.memSize) ∧ x.mask ∈ masks ∧ (x.ackPhase = true → x.mask = 0#8)

/-- A whole address byte has matched and is recorded: R190 (f). -/
def Compared (x : Slave) : Prop := x.mask = 0#8 → addrMatch x.cfg x.sr = true ∧ x.decodedAddr = x.sr

/-- A slave at rest has released SDA and its sticky flags are down: R190 (d) and (g). -/
def AtRest (s : State) : Prop := slaveSda s = true ∧ s.s.memWritten = false ∧ s.s.memRead = false

theorem stateCode_injective {x z : StateName} (h : stateCode x = stateCode z) : x = z := by
  have hdecoded := congrArg stateOfCode h
  simpa using hdecoded

theorem stored_of_code {x : StateName} {s : State} (hf : s.s.fault = false) (hstate : s.s.state = stateCode x)
    (hx : passThrough x = false) : Stored x s := ⟨hf, hstate ▸ storedState_stateCode hx⟩

/-- The invariant of a live slave in the stored state `x`, part by part. -/
theorem slaveInv_iff {x : StateName} {s : State} (h : Stored x s) :
    SlaveInv s ↔ Regs s.s ∧ (x = .receiveAddress → Compared s.s) ∧ (x = .waitForStart → AtRest s) := by
  obtain ⟨hf, hstate, _⟩ := stored_code h
  have hcode : ∀ z, s.s.state = stateCode z ↔ x = z := fun z =>
    ⟨fun hz => stateCode_injective (hstate.symm.trans hz), fun hz => hz ▸ hstate⟩
  have hsome : storedState s.s.state ≠ none := by rw [h.2]; nofun
  simp only [SlaveInv, hcode]
  constructor
  · intro hinv
    obtain ⟨hbounds, hmask, hack, hsda, hmatch, hflags, _⟩ := hinv hf
    exact ⟨⟨hbounds, hmask, hack⟩, hmatch, fun hx => ⟨hsda hx, hflags hx⟩⟩
  · intro ⟨⟨hbounds, hmask, hack⟩, hmatch, hrest⟩ _
    exact ⟨hbounds, hmask, hack, fun hx => (hrest hx).1, hmatch, fun hx => (hrest hx).2, hsome⟩

/-- The invariant is kept by what changes none of the registers it reads. -/
theorem slaveInv_of_halted {s : State} (h : s.s.fault = true) : SlaveInv s := fun hf => by simp [h] at hf

theorem mask_shift : ∀ m ∈ masks, m >>> 1 ∈ masks := by decide

/-- Every answer keeps the registers in their range. -/
theorem Answer.regs {s u : State} {x z : StateName} {y : Symbol} (ha : Answer s x y u z) (h : Regs s.s) : Regs u.s := by
  obtain ⟨⟨hc, hi⟩, hmask, hack⟩ := h
  have hspentMask : (0#8 : Byte) ∈ masks := by decide
  have hfirstMask : (0x80#8 : Byte) ∈ masks := by decide
  have hnoAck : s.s.mask ≠ 0#8 → s.s.ackPhase = true → s.s.mask >>> 1 = 0#8 := fun hdue hphase =>
    absurd (hack hphase) hdue
  cases ha with
  | stays | start | stop | leaves | notAcknowledged | transmitBit => exact ⟨⟨hc, hi⟩, hmask, hack⟩
  | bit _ _ hdue _ => exact ⟨⟨hc, hi⟩, mask_shift _ hmask, hnoAck hdue⟩
  | readback _ hdue => exact ⟨⟨hc, hi⟩, mask_shift _ hmask, hnoAck hdue⟩
  | addressMatched | addressOther => exact ⟨⟨hc, hi⟩, hspentMask, fun _ => rfl⟩
  | acknowledges _ _ hspent _ => exact ⟨⟨hc, hi⟩, hmask, fun _ => hspent⟩
  | transmitRelease _ hspent => exact ⟨⟨hc, hi⟩, hmask, fun _ => hspent⟩
  | writeAddress | readAddress => exact ⟨⟨hc, hi⟩, hfirstMask, nofun⟩
  | subAddress _ hsize =>
    have hlt := Nat.mod_lt s.s.sr.toNat (Nat.pos_of_ne_zero hsize)
    exact ⟨⟨hlt, hlt⟩, hfirstMask, nofun⟩
  | data => exact ⟨⟨Nat.mod_lt _ (Nat.zero_lt_of_lt hc), hi⟩, hfirstMask, nofun⟩
  | transmitNext _ hsize => exact ⟨⟨nextCursor_lt hsize, hi⟩, hfirstMask, nofun⟩

/-- An answer that stays in ReceiveAddress has compared the byte it completed. -/
theorem Answer.compared {s u : State} {x : StateName} {y : Symbol} (ha : Answer s x y u .receiveAddress)
    (h : x = .receiveAddress → Compared s.s) : Compared u.s := by
  cases ha with
  | stays => exact h rfl
  | bit _ _ _ hmore => exact fun hspent => absurd hspent (hmore rfl)
  | addressMatched b hmatch => exact fun _ => ⟨hmatch, rfl⟩
  | acknowledges => exact h rfl

/-- Only WaitForStart answers WaitForStart, with no action. -/
theorem Answer.atRest {s u : State} {x : StateName} {y : Symbol} (ha : Answer s x y u .waitForStart)
    (h : x = .waitForStart → AtRest s) : AtRest u := by
  cases ha with
  | stays => exact h rfl
  | bit hx => simp [receiveStates] at hx
  | acknowledges hx => simp [receiveStates] at hx

/-- The state after a pass through Idle: the registers stay in their range and the slave is at rest. -/
theorem idleDone_regs {y : Symbol} {u t : State} (ht : IdleDone y u t) (h : Regs u.s) :
    Regs t.s ∧ AtRest t ∧ t.s.fault = u.s.fault ∧ t.s.state = stateCode .waitForStart := by
  obtain ⟨⟨hc, hi⟩, hmask, hack⟩ := h
  unfold IdleDone at ht
  subst ht
  refine ⟨⟨⟨?_, hi⟩, hmask, hack⟩, ⟨rfl, rfl, rfl⟩, rfl, rfl⟩
  show (if u.s.cfg.cursorRestore then u.s.initCursor else u.s.cursor) < u.s.cfg.memSize
  split
  · exact hi
  · exact hc

/-- What an invocation leaves, from what its answer leaves. -/
theorem Ended.slaveInv {y : Symbol} {u t : State} {z : StateName} (he : Ended y u z t) (hf : u.s.fault = false)
    (hregs : Regs u.s) (hcompared : z = .receiveAddress → Compared u.s) (hrest : z = .waitForStart → AtRest u) :
    SlaveInv t := by
  cases he with
  | stored hz => exact (slaveInv_iff (stored_of_code (s := storedIn z u) hf rfl hz)).mpr ⟨hregs, hcompared, hrest⟩
  | idle hz ht =>
    obtain ⟨htregs, htrest, htf, htstate⟩ := idleDone_regs ht hregs
    exact (slaveInv_iff (stored_of_code (htf.trans hf) htstate rfl)).mpr ⟨htregs, nofun, fun _ => htrest⟩
  | startBit hz =>
    obtain ⟨hbounds, _, _⟩ := hregs
    exact (slaveInv_iff (x := .receiveAddress) (stored_of_code (s := addressBegun u) hf rfl rfl)).mpr
      ⟨⟨hbounds, show 0x80#8 ∈ masks by decide, nofun⟩,
        fun _ hspent => absurd hspent (show ¬ 0x80#8 = 0#8 by decide), nofun⟩

/-- No answer raises a fault. -/
theorem Answer.fault {s u : State} {x z : StateName} {y : Symbol} (ha : Answer s x y u z) : u.s.fault = s.s.fault := by
  cases ha <;> rfl

theorem slaveInv_spy {y : Symbol} {s : State} (h : SlaveInv s) : SlaveInv (spyIfEnabled y s) := by
  obtain ⟨c, n, text, heq⟩ := spyIfEnabled_eq y s
  rw [heq]
  exact h

/-- One symbol consumed keeps the invariant: the answer keeps the registers, and so does what it passes on to. -/
theorem consume_slaveInv {y : Symbol} {s t : State} (h : SlaveInv s) (hrun : consume y s = .next t) : SlaveInv t := by
  obtain ⟨_, k⟩ | ⟨_, _, k⟩ | ⟨x, v, hf, hx, hv, k⟩ | ⟨x, e, _, _, _, k⟩ := consume_cases y s <;> rw [k] at hrun <;>
    cases hrun
  · exact h
  · exact slaveInv_of_halted rfl
  · have hstored : Stored x s := ⟨hf, hx⟩
    obtain ⟨hregs, hcompared, hrest⟩ := (slaveInv_iff hstored).mp h
    obtain ⟨u, z, ha, he⟩ := runState_ended (stored_code hstored).2.2 hv
    refine slaveInv_spy (he.slaveInv (ha.fault.trans hf) (ha.regs hregs) (fun hz => ?_) fun hz => ?_)
    · subst hz
      exact ha.compared hcompared
    · subst hz
      exact ha.atRest hrest

theorem constructSlave_slaveInv (c : SlaveCfg) (p : Bool) (s : State) : SlaveInv (constructSlave c p s) := by
  rw [constructSlave_eq]
  cases hok : constructionOk c p with
  | false => exact slaveInv_of_halted rfl
  | true =>
    have hsize : 0 < c.memSize := by
      simp only [constructionOk, Bool.and_eq_true, decide_eq_true_eq] at hok
      exact Nat.pos_of_ne_zero hok.2
    refine (slaveInv_iff (x := .waitForStart) ⟨rfl, rfl⟩).mpr ⟨⟨⟨hsize, hsize⟩, ?_, nofun⟩, nofun, fun _ => ⟨rfl, rfl, rfl⟩⟩
    show 0x80#8 ∈ masks
    decide

/-- Every agent keeps the slave's invariant; only the handler and a construction reach its registers. -/
theorem slaveInv_kept : KeptByAgents SlaveInv where
  turns _ h := h
  inputs _ h := h
  handler y e h hrun := consume_slaveInv (s := State.setE _ e) h hrun
  master h _ hrun := by
    obtain ⟨m, e, env, timer, bufs, st, rfl, _⟩ := masterStep_frame hrun
    exact h
  timer h := h
  outside i h _ hrun := by
    by_cases hi : ∃ c p, i = .constructSlave c p
    · obtain ⟨c, p, rfl⟩ := hi
      cases hrun
      exact constructSlave_slaveInv c p _
    · obtain ⟨a, b, c, hs⟩ := applyInput_slave hrun fun c p hcp => hi ⟨c, p, hcp⟩
      unfold SlaveInv slaveSda
      rw [hs]
      exact h

/-- Settles O53: every agent's step keeps the invariant. -/
theorem slaveInvariantKept : Obligations.SlaveInvariantKept := fun _ _ hs h => slaveInv_kept.step hs h

end Sys2Proof.SlaveKept
end

section
/-! PROOFS. What the slave drives and what its latches hold (44_slave_fsm.md R175, R190 (e)), and the backing memory
(R184, R190 (h)), over every step. -/

namespace Sys2Proof.SlaveKept

open Sys2Proof Sys2Proof.Machine Sys2Proof.Safety Sys2Proof.Steps Sys2Proof.SlaveFsm

/-! ## The snapshot -/

/-- The four bits of a snapshot are the two latches and the two levels (30_encoding.md R61). -/
theorem snapshot_bits (s : State) :
    (snapshot s).getLsbD 3 = s.e.sda ∧ (snapshot s).getLsbD 2 = sdaAtSlave s ∧
      (snapshot s).getLsbD 1 = s.e.scl ∧ (snapshot s).getLsbD 0 = sclAtSlave s := by
  have hbits : ∀ a b c d : Bool, (bitAt a 3 ||| bitAt b 2 ||| bitAt c 1 ||| bitAt d 0).getLsbD 3 = a ∧
      (bitAt a 3 ||| bitAt b 2 ||| bitAt c 1 ||| bitAt d 0).getLsbD 2 = b ∧
      (bitAt a 3 ||| bitAt b 2 ||| bitAt c 1 ||| bitAt d 0).getLsbD 1 = c ∧
      (bitAt a 3 ||| bitAt b 2 ||| bitAt c 1 ||| bitAt d 0).getLsbD 0 = d := by decide
  exact hbits _ _ _ _

theorem classify_snapshot (s : State) :
    classify (snapshot s) = Classifier.symbolOfBits s.e.sda (sdaAtSlave s) s.e.scl (sclAtSlave s) := by
  obtain ⟨h3, h2, h1, h0⟩ := snapshot_bits s
  rw [Classifier.classify_eq_symbolOfBits, h3, h2, h1, h0]

/-- A Start is SDA's latch alone, with SDA low and SCL high. -/
theorem latches_of_start {s : State} (h : classify (snapshot s) = .start) :
    s.e.sda = true ∧ s.e.scl = false ∧ sclAtSlave s = true := by
  have hall : ∀ a b c d, Classifier.symbolOfBits a b c d = .start → a = true ∧ c = false ∧ d = true := by decide
  exact hall _ _ _ _ ((classify_snapshot s).symm.trans h)

/-- A falling edge leaves SCL low. -/
theorem scl_of_falling {s : State} (h : classify (snapshot s) = .fe0 ∨ classify (snapshot s) = .fe1) :
    sclAtSlave s = false := by
  have hall : ∀ a b c d, Classifier.symbolOfBits a b c d = .fe0 ∨ Classifier.symbolOfBits a b c d = .fe1 → d = false := by
    decide
  rw [classify_snapshot] at h
  exact hall _ _ _ _ h

/-! ## R190 (e) -/

/-- In a receive state the slave drives 0 exactly in its acknowledge phase (R190 (e)). -/
def DrivesAck (s : State) : Prop := slaveSda s = !s.s.ackPhase

/-- While the slave holds SDA low the latches hold no Start (R175). -/
def NoStart (s : State) : Prop := slaveSda s = false → s.e.sda = true → sclAtSlave s = true → s.e.scl = true

theorem driveInv_iff {x : StateName} {s : State} (h : Stored x s) :
    DriveInv s ↔ (x ∈ receiveStates → DrivesAck s) ∧ s.e.enabled = true ∧ NoStart s := by
  obtain ⟨hf, hstate, _⟩ := stored_code h
  have hcode : ∀ z, s.s.state = stateCode z ↔ x = z := fun z =>
    ⟨fun hz => stateCode_injective (hstate.symm.trans hz), fun hz => hz ▸ hstate⟩
  simp only [DriveInv, hcode, receiveStates, List.mem_cons, List.not_mem_nil, or_false]
  exact ⟨fun hinv => hinv hf, fun hinv _ => hinv⟩

theorem driveInv_of_halted {s : State} (h : s.s.fault = true) : DriveInv s := fun hf => by simp [h] at hf

/-- What the slave does to its pin: nothing, or a move at a falling edge. -/
theorem Answer.pin {s u : State} {x z : StateName} {y : Symbol} (ha : Answer s x y u z) :
    (u.e = s.e ∧ slaveSda u = slaveSda s) ∨ y = .fe0 ∨ y = .fe1 := by
  cases ha with
  | stays | start | stop | leaves | bit | addressMatched | addressOther | readback | notAcknowledged =>
    exact .inl ⟨rfl, rfl⟩
  | acknowledges _ hy _ _ => exact .inr hy
  | writeAddress hy | readAddress hy | subAddress hy _ | data hy _ _ _ => exact .inr hy
  | transmitBit hy | transmitRelease hy _ | transmitNext hy _ => exact .inr hy

/-- No answer moves the master's pins, the environment or the wiring, so SCL stays where it is. -/
theorem Answer.scl {s u : State} {x z : StateName} {y : Symbol} (ha : Answer s x y u z) :
    sclAtSlave u = sclAtSlave s := by cases ha <;> rfl

theorem Answer.enabled {s u : State} {x z : StateName} {y : Symbol} (ha : Answer s x y u z) :
    u.e.enabled = s.e.enabled := by cases ha <;> rfl

/-- An answer in a receive state drives SDA as its acknowledge phase says. -/
theorem Answer.drivesAck {s u : State} {x z : StateName} {y : Symbol} (ha : Answer s x y u z) (hz : z ∈ receiveStates)
    (h : x ∈ receiveStates → DrivesAck s) : DrivesAck u := by
  cases ha with
  | stays => exact h hz
  | bit hx _ _ _ => exact h hx
  | addressMatched => exact h (by decide)
  | acknowledges | writeAddress | subAddress | data => rfl
  | start | stop | leaves | addressOther | notAcknowledged => simp [receiveStates] at hz
  | readAddress | readback | transmitBit | transmitRelease | transmitNext => simp [receiveStates] at hz

/-- A symbol's latches: what the slave's line and its latches show when the handler consumes `y`. -/
structure Latched (y : Symbol) (s : State) : Prop where
  start : y = .start → slaveSda s = true
  falling : y = .fe0 ∨ y = .fe1 → sclAtSlave s = false
  noStart : NoStart s

/-- An answer leaves no Start in the latches: where it moved SDA, SCL is low. -/
theorem Answer.noStart {s u : State} {x z : StateName} {y : Symbol} (ha : Answer s x y u z) (h : Latched y s) :
    NoStart u := by
  obtain ⟨he, hsda⟩ | hy := ha.pin
  · intro hlow hlatch hscl
    rw [he] at hlatch ⊢
    exact h.noStart (hsda ▸ hlow) hlatch (ha.scl ▸ hscl)
  · intro _ _ hscl
    rw [ha.scl, h.falling hy] at hscl
    cases hscl

/-- A pass through Idle releases SDA. -/
theorem idleDone_pin {y : Symbol} {u t : State} (ht : IdleDone y u t) :
    t.s.fault = u.s.fault ∧ t.s.state = stateCode .waitForStart ∧ slaveSda t = true ∧ t.e.enabled = u.e.enabled := by
  unfold IdleDone at ht
  subst ht
  exact ⟨rfl, rfl, rfl, rfl⟩

/-- What an invocation leaves, from what its answer leaves. -/
theorem Ended.driveInv {y : Symbol} {u t : State} {z : StateName} (he : Ended y u z t) (hf : u.s.fault = false)
    (hack : z ∈ receiveStates → DrivesAck u) (hstart : z = .startBitReceived → slaveSda u = true)
    (henabled : u.e.enabled = true) (hno : NoStart u) : DriveInv t := by
  cases he with
  | stored hz => exact (driveInv_iff (stored_of_code (s := storedIn z u) hf rfl hz)).mpr ⟨hack, henabled, hno⟩
  | idle hz ht =>
    obtain ⟨htf, htstate, htsda, hten⟩ := idleDone_pin ht
    refine (driveInv_iff (stored_of_code (htf.trans hf) htstate rfl)).mpr
      ⟨fun hx => ?_, hten.trans henabled, fun hlow => ?_⟩
    · simp [receiveStates] at hx
    · simp [htsda] at hlow
  | startBit hz =>
    exact (driveInv_iff (x := .receiveAddress) (stored_of_code (s := addressBegun u) hf rfl rfl)).mpr ⟨fun _ => hstart hz, henabled, hno⟩

theorem driveInv_spy {y : Symbol} {s : State} (h : DriveInv s) : DriveInv (spyIfEnabled y s) := by
  obtain ⟨c, n, text, heq⟩ := spyIfEnabled_eq y s
  rw [heq]
  exact h

/-- Only Start moves to StartBitReceived, and it moves nothing else. -/
theorem Answer.startBit {s u : State} {x : StateName} {y : Symbol} (ha : Answer s x y u .startBitReceived)
    (hx : passThrough x = false) : u = s ∧ y = .start := by
  cases ha with
  | start => exact ⟨rfl, rfl⟩
  | stays => cases hx
  | bit hx' => simp [receiveStates] at hx'
  | acknowledges hx' => simp [receiveStates] at hx'

/-- A symbol consumed with the latches it came from keeps R190 (e). -/
theorem consume_driveInv {y : Symbol} {s t : State} (h : DriveInv s) (hlatched : Latched y s)
    (hrun : consume y s = .next t) : DriveInv t := by
  obtain ⟨_, k⟩ | ⟨_, _, k⟩ | ⟨x, v, hf, hx, hv, k⟩ | ⟨x, e, _, _, _, k⟩ := consume_cases y s <;> rw [k] at hrun <;>
    cases hrun
  · exact h
  · exact driveInv_of_halted rfl
  · have hstored : Stored x s := ⟨hf, hx⟩
    obtain ⟨hack, henabled, _⟩ := (driveInv_iff hstored).mp h
    obtain ⟨u, z, ha, he⟩ := runState_ended (stored_code hstored).2.2 hv
    refine driveInv_spy (he.driveInv (ha.fault.trans hf) (fun hz => ha.drivesAck hz hack) (fun hz => ?_)
      (ha.enabled.trans henabled) (ha.noStart ⟨hlatched.start, hlatched.falling, hlatched.noStart⟩))
    subst hz
    obtain ⟨rfl, hy⟩ := ha.startBit (stored_code hstored).2.2
    exact hlatched.start hy

/-- The invariant reads the slave's registers, its latches and the level of SCL alone. -/
theorem driveInv_congr {s t : State} (hs : t.s = s.s) (he : t.e = s.e) (hscl : sclAtSlave t = sclAtSlave s)
    (h : DriveInv s) : DriveInv t := by
  unfold DriveInv slaveSda at *
  rw [hs, he, hscl]
  exact h

theorem sdaAtSlave_of_driven_low {s : State} (h : slaveSda s = false) : sdaAtSlave s = false := by
  simp [sdaAtSlave, h]

/-- Whatever another agent does to the wires: with SDA held low its level cannot change, and a rise of SCL is latched. -/
theorem latchEdges_driveInv {s q : State} (hs : q.s = s.s) (he : q.e = s.e) (h : DriveInv s) :
    DriveInv (latchEdges s q) := by
  have hsda : slaveSda q = slaveSda s := by unfold slaveSda; rw [hs]
  intro hf
  rw [latchEdges_s, hs] at hf
  obtain ⟨hack, henabled, hno⟩ := h hf
  refine ⟨fun hx => ?_, (congrArg Latches.enabled he).trans henabled, fun hlow hlatch hscl => ?_⟩
  · rw [latchEdges_s, hs] at hx ⊢
    exact hsda.trans (hack hx)
  · have hlow : slaveSda s = false := hsda.symm.trans hlow
    have hq : slaveSda q = false := hsda.trans hlow
    change (q.e.sda || (q.e.enabled && (sdaAtSlave s != sdaAtSlave q))) = true at hlatch
    change (q.e.scl || (q.e.enabled && (sclAtSlave s != sclAtSlave q))) = true
    change sclAtSlave q = true at hscl
    rw [he, sdaAtSlave_of_driven_low hlow, sdaAtSlave_of_driven_low hq] at hlatch
    rw [he, henabled, hscl]
    cases hold : sclAtSlave s with
    | false => simp
    | true => simp [hno hlow (by simpa using hlatch) hold]

/-- A step of the master. -/
theorem masterStep_driveInv {s t : State} (h : DriveInv s) (hrun : masterStep s = .next t) : DriveInv t := by
  have hresume : ∀ ops {q : State}, DriveInv q → DriveInv (resume ops q) := fun ops q hq => by
    obtain ⟨acc, a, p, bufs, todo, busy, st, heq, _⟩ := resume_eq ops q
    rw [heq]
    exact hq
  obtain ⟨u, rest, q, _, hmoved, k⟩ | ⟨rest, _, _, _, ⟨_, _, k⟩ | ⟨_, k⟩⟩ | ⟨rest, _, _, _, k⟩ | ⟨_, k⟩ :=
    masterStep_cases s <;> rw [k] at hrun <;> cases hrun
  · have hq : DriveInv q := by
      cases hmoved with
      | sda b => exact latchEdges_driveInv (q := s.setM _) rfl rfl h
      | relSda => exact latchEdges_driveInv (q := s.setM _) rfl rfl h
      | scl b => exact latchEdges_driveInv (q := s.setM _) rfl rfl h
      | wait => exact h
      | get => unfold masterSample; split; exacts [h, by split <;> exact h]
    exact hresume rest (q := q.setM _) hq
  · exact h
  · exact h
  · exact hresume _ h

theorem constructSlave_driveInv (c : SlaveCfg) (p : Bool) (s : State) : DriveInv (constructSlave c p s) := by
  rw [constructSlave_eq]
  cases hok : constructionOk c p with
  | false => exact driveInv_of_halted rfl
  | true =>
    refine (driveInv_iff (x := .waitForStart) ⟨rfl, rfl⟩).mpr ⟨fun hx => ?_, rfl, nofun⟩
    simp [receiveStates] at hx

/-- An operation of host or environment. -/
theorem applyInput_driveInv {i : Input} {s t : State} (h : DriveInv s) (hrun : applyInput i s = .next t) :
    DriveInv t := by
  cases applyInput_applied hrun with
  | issue p0 p1 p2 p3 hissue =>
    obtain ⟨m, ct, bufs, st, rfl, hsdaDir, hsdaVal, hsclDir, hsclVal⟩ := issueCommand_next_frame hissue
    refine driveInv_congr (s := s) rfl rfl ?_ h
    simp only [sclAtSlave, masterScl, hsclDir, hsclVal]
  | constructMaster c p k => exact latchEdges_driveInv (q := (s.setM _).setCt _) rfl rfl h
  | envDrive l v => exact latchEdges_driveInv (q := s.setEnv _) rfl rfl h
  | constructSlave c p => exact constructSlave_driveInv c p s
  | flagClear k =>
    obtain ⟨a, b, c, hflags⟩ := setHookFlag_eq s.s k false
    rw [hflags]
    exact h
  | _ => exact h

/-- Settles O54: the handler consumes what its latches show, and no other agent can put a Start into the latches while
the slave holds SDA low. -/
theorem driveInvariantKept : Obligations.DriveInvariantKept := by
  intro s t _ hs h
  obtain ⟨x, u, hgives, hstep⟩ := step_stepped h
  obtain ⟨ts, rfl⟩ := hgives.eq
  have hu : DriveInv { s with turns := ts } := hs
  generalize { s with turns := ts } = u at hu hstep
  cases hstep with
  | timeout _ hready _ hrun =>
    have hlive : u.s.fault = false := by
      simp only [handlerReady, Bool.and_eq_true, Bool.not_eq_true'] at hready
      exact hready.2
    have hno := (hu hlive).2.2
    exact consume_driveInv (y := .timeout) (s := u.setE { u.e with tmo := false }) hu
      ⟨fun hy => (nomatch hy), fun hy => by simp at hy, hno⟩ hrun
  | snapshot _ hready _ hrun =>
    have hlive : u.s.fault = false := by
      simp only [handlerReady, Bool.and_eq_true, Bool.not_eq_true'] at hready
      exact hready.2
    obtain ⟨hack, henabled, hno⟩ := hu hlive
    have hclear : DriveInv (clearEdges u) := fun _ => ⟨hack, henabled, fun _ hlatch => by cases hlatch⟩
    have hstart : classify (snapshot u) = .start → slaveSda u = true := fun hy => by
      obtain ⟨hsda, hscl, hhigh⟩ := latches_of_start hy
      cases hlow : slaveSda u with
      | true => rfl
      | false => simp [hno hlow hsda hhigh] at hscl
    have hlatched : Latched (classify (snapshot u)) (clearEdges u) :=
      ⟨hstart, scl_of_falling (s := u), fun _ hlatch => by cases hlatch⟩
    exact consume_driveInv hclear hlatched hrun
  | master _ hrun => exact masterStep_driveInv hu hrun
  | timer _ hrun => subst hrun; exact hu
  | outside i r _ _ hrun => exact applyInput_driveInv (s := { u with inputs := r }) hu hrun
  | rest hrun => subst hrun; exact hu

/-! ## The backing memory -/

/-- Only the memory commit writes the backing memory. -/
theorem Answer.mem {s u : State} {x z : StateName} {y : Symbol} (ha : Answer s x y u z) :
    u.mem = s.mem ∨ (x = .receiveData ∧ z = .receiveData ∧ s.s.mask = 0#8 ∧ s.s.ackPhase = true ∧
      s.s.cursor < s.s.cfg.memSize ∧ u.mem = s.mem.write s.s.cursor s.s.sr ∧ u.s.memWritten = true) := by
  cases ha with
  | data _ hspent hphase hc => exact .inr ⟨rfl, rfl, hspent, hphase, hc, rfl, rfl⟩
  | _ => exact .inl rfl

theorem Ended.mem {y : Symbol} {u t : State} {z : StateName} (he : Ended y u z t) :
    t.mem = u.mem ∧ (z = .receiveData → t.s.memWritten = u.s.memWritten) := by
  cases he with
  | stored | startBit => exact ⟨rfl, fun _ => rfl⟩
  | idle hz ht =>
    unfold IdleDone at ht
    subst ht hz
    exact ⟨rfl, nofun⟩

/-- A symbol consumed writes the memory only as the commit of ReceiveData (R184). -/
theorem consume_mem {y : Symbol} {s t : State} (hrun : consume y s = .next t) :
    t.mem = s.mem ∨ (t.mem = s.mem.write s.s.cursor s.s.sr ∧ s.s.cursor < s.s.cfg.memSize ∧
      s.s.state = stateCode .receiveData ∧ s.s.mask = 0#8 ∧ s.s.ackPhase = true ∧ t.s.memWritten = true) := by
  obtain ⟨_, k⟩ | ⟨_, _, k⟩ | ⟨x, v, hf, hx, hv, k⟩ | ⟨x, e, _, _, _, k⟩ := consume_cases y s <;> rw [k] at hrun <;>
    cases hrun
  · exact .inl rfl
  · exact .inl rfl
  · obtain ⟨hstate, hpass⟩ := storedState_some hx
    obtain ⟨u, z, ha, he⟩ := runState_ended hpass hv
    obtain ⟨hmem, hflag⟩ := he.mem
    obtain ⟨c, n, text, hspy⟩ := spyIfEnabled_eq y v
    rw [hspy]
    obtain hsame | ⟨rfl, rfl, hspent, hphase, hc, hwrite, hwritten⟩ := ha.mem
    · exact .inl (hmem.trans hsame)
    · exact .inr ⟨hmem.trans hwrite, hc, hstate, hspent, hphase, (hflag rfl).trans hwritten⟩

/-- Settles O57: of the handler's actions only the commit writes the memory, of the others' only HostMemWrite. -/
theorem backingMemoryChangesOnlyByCommitOrHost : Obligations.BackingMemoryChangesOnlyByCommitOrHost := by
  intro s t h
  obtain ⟨x, u, hgives, hstep⟩ := step_stepped h
  obtain ⟨ts, rfl⟩ := hgives.eq
  have hcommit : ∀ {y e}, handlerReady s = true → consume y (State.setE { s with turns := ts } e) = .next t →
      t.mem = s.mem ∨ (t.mem = s.mem.write s.s.cursor s.s.sr ∧ s.s.cursor < s.s.cfg.memSize ∧ handlerReady s = true ∧
        s.s.state = stateCode .receiveData ∧ s.s.mask = 0#8 ∧ s.s.ackPhase = true ∧ t.s.memWritten = true) := by
    intro y e hready hrun
    obtain hsame | ⟨hwrite, hc, hrest⟩ := consume_mem hrun
    · exact .inl hsame
    · exact .inr ⟨hwrite, hc, hready, hrest⟩
  cases hstep with
  | timeout _ hready _ hrun => exact (hcommit hready hrun).imp id .inl
  | snapshot _ hready _ hrun => exact (hcommit hready hrun).imp id .inl
  | master _ hrun =>
    obtain ⟨m, e, env, timer, bufs, st, rfl, _⟩ := masterStep_frame hrun
    exact .inl rfl
  | timer _ hrun => subst hrun; exact .inl rfl
  | outside i r hnext _ hrun =>
    obtain hsame | ⟨k, v, rfl, hk, hwrite⟩ := Memories.applyInput_mem hrun
    · exact .inl hsame
    · exact .inr (.inr ⟨k, v, r, hnext, hk, hwrite⟩)
  | rest hrun => subst hrun; exact .inl rfl

end Sys2Proof.SlaveKept
end

section
/-! PROOFS. Lines and latches over every step (10_state.md R21, R22, R23). -/

namespace Sys2Proof.Lines

open Sys2Proof Sys2Proof.Machine Sys2Proof.Safety Sys2Proof.Steps

/-- Settles O27: the contributions of a wire, conjoined. -/
theorem lineLevelIsTheWiredAnd : Obligations.LineLevelIsTheWiredAnd := by
  refine ⟨fun v => ⟨rfl, rfl⟩, fun s => ⟨fun hshared => ⟨?master, ?slave, ?scl⟩, fun hshared => ⟨?ownMaster, ?ownSlave, ?ownScl⟩⟩⟩
  case master => simp [sdaAtMaster, hshared, and_assoc]
  case slave => simp [sdaAtMaster, sdaAtSlave, hshared]
  case scl => simp [sclAtSlave, hshared, and_assoc]
  case ownMaster => simp [sdaAtMaster, hshared]
  case ownSlave => simp [sdaAtSlave, hshared]
  case ownScl => simp [sclAtSlave, hshared]

/-- What R22 and R23 ask of a change of the state by anything but the handler's entry: no latch is lost, and with edge
interrupts enabled the latch of every changed level is set. -/
structure EdgesLatched (s t : State) : Prop where
  enabled : s.e.enabled = true → t.e.enabled = true
  sdaChange : s.e.enabled = true → sdaAtSlave s ≠ sdaAtSlave t → t.e.sda = true
  sclChange : s.e.enabled = true → sclAtSlave s ≠ sclAtSlave t → t.e.scl = true
  sda : s.e.sda = true → t.e.sda = true
  scl : s.e.scl = true → t.e.scl = true
  tmo : s.e.tmo = true → t.e.tmo = true

/-- A change that moves no level and clears no latch. -/
theorem EdgesLatched.of_levels {s t : State} (hsda : sdaAtSlave t = sdaAtSlave s) (hscl : sclAtSlave t = sclAtSlave s)
    (he : t.e = s.e) : EdgesLatched s t where
  enabled h := he ▸ h
  sdaChange _ h := absurd hsda.symm h
  sclChange _ h := absurd hscl.symm h
  sda h := he ▸ h
  scl h := he ▸ h
  tmo h := he ▸ h

theorem EdgesLatched.refl (s : State) : EdgesLatched s s := .of_levels rfl rfl rfl

/-- A level that differs at the end differed at one of the two changes, whose latch is kept. -/
theorem EdgesLatched.trans {s t u : State} (h : EdgesLatched s t) (k : EdgesLatched t u) : EdgesLatched s u where
  enabled hen := k.enabled (h.enabled hen)
  sdaChange hen hne := by
    by_cases hst : sdaAtSlave s = sdaAtSlave t
    · exact k.sdaChange (h.enabled hen) (hst ▸ hne)
    · exact k.sda (h.sdaChange hen hst)
  sclChange hen hne := by
    by_cases hst : sclAtSlave s = sclAtSlave t
    · exact k.sclChange (h.enabled hen) (hst ▸ hne)
    · exact k.scl (h.sclChange hen hst)
  sda hs := k.sda (h.sda hs)
  scl hs := k.scl (h.scl hs)
  tmo hs := k.tmo (h.tmo hs)

/-- `latchEdges` sets the latch of every line whose level changed. -/
theorem EdgesLatched.latchEdges {s q : State} (he : q.e = s.e) : EdgesLatched s (latchEdges s q) where
  enabled h := by rwa [latchEdges_enabled, he]
  sdaChange hen hne := by
    change (q.e.sda || (q.e.enabled && (sdaAtSlave s != sdaAtSlave q))) = true
    change sdaAtSlave s ≠ sdaAtSlave q at hne
    simp [he, hen, hne]
  sclChange hen hne := by
    change (q.e.scl || (q.e.enabled && (sclAtSlave s != sclAtSlave q))) = true
    change sclAtSlave s ≠ sclAtSlave q at hne
    simp [he, hen, hne]
  sda h := by
    change (q.e.sda || _) = true
    simp [he, h]
  scl h := by
    change (q.e.scl || _) = true
    simp [he, h]
  tmo h := by rwa [latchEdges_tmo, he]

/-- The slave's own actions. -/
theorem edgesLatched_respected : Respected EdgesLatched where
  refl := .refl
  trans := .trans
  near s x h := by rw [h]; exact .of_levels rfl rfl rfl
  release s := .latchEdges (q := s.setS _) rfl
  drive b s := .latchEdges (q := s.setS _) rfl
  fire h s := by
    obtain ⟨a, b, c, hflags⟩ := setHookFlag_eq s.s h true
    rw [fire_eq, hflags]
    split_ifs <;> exact .of_levels rfl rfl rfl
  write _ _ _ := .of_levels rfl rfl rfl

theorem consume_edgesLatched {y : Symbol} {s t : State} (h : consume y s = .next t) : EdgesLatched s t := by
  obtain ⟨_, k⟩ | ⟨_, _, k⟩ | ⟨x, u, _, _, hu, k⟩ | ⟨x, e, _, _, _, k⟩ := consume_cases y s <;> rw [k] at h <;> cases h
  · exact .refl s
  · exact .of_levels rfl rfl rfl
  · obtain ⟨c, n, text, hspy⟩ := spyIfEnabled_eq y u
    have hsym : EdgesLatched s (s.setS { s.s with sym := y }) := .of_levels rfl rfl rfl
    have hrun := hsym.trans (runState_respects edgesLatched_respected hu)
    exact hrun.trans (hspy ▸ .of_levels rfl rfl rfl)

/-- A command's entry moves no pin, so no level and no latch. -/
theorem CommandFrame.edgesLatched {s t : State} (h : CommandFrame s t) : EdgesLatched s t := by
  obtain ⟨m, ct, bufs, st, rfl, hsdaDir, hsdaVal, hsclDir, hsclVal⟩ := h
  refine .of_levels ?_ ?_ rfl
  · simp only [sdaAtSlave, masterSda, slaveSda, hsdaDir, hsdaVal]
  · simp only [sclAtSlave, masterScl, hsclDir, hsclVal]

theorem Moved1.edgesLatched {s q : State} (h : Moved1 s q) : EdgesLatched s q := by
  cases h with
  | sda b => exact .latchEdges (q := s.setM _) rfl
  | relSda => exact .latchEdges (q := s.setM _) rfl
  | scl b => exact .latchEdges (q := s.setM _) rfl
  | wait => exact .refl s
  | get =>
    unfold masterSample
    split
    · exact .of_levels rfl rfl rfl
    · split <;> exact .of_levels rfl rfl rfl

theorem masterStep_edgesLatched {s t : State} (hrun : masterStep s = .next t) : EdgesLatched s t := by
  obtain ⟨u, rest, q, _, hmoved, k⟩ | ⟨rest, _, _, _, ⟨_, _, k⟩ | ⟨_, k⟩⟩ | ⟨rest, _, _, _, k⟩ | ⟨_, k⟩ :=
    masterStep_cases s <;> rw [k] at hrun <;> cases hrun
  · have hq : EdgesLatched q (q.setM { q.m with pos := q.m.pos + 1, waiting := false }) := .of_levels rfl rfl rfl
    exact (Moved1.edgesLatched hmoved).trans (hq.trans (CommandFrame.edgesLatched (resume_frame rest _)))
  · exact .refl s
  · exact .of_levels rfl rfl rfl
  · exact CommandFrame.edgesLatched (resume_frame _ s)

/-- No operation of host and environment but a construction of the slave loses a latch. -/
theorem applyInput_edgesLatched {i : Input} {s t : State} (hrun : applyInput i s = .next t)
    (hi : ∀ c p, i ≠ .constructSlave c p) : EdgesLatched s t := by
  cases applyInput_applied hrun with
  | issue p0 p1 p2 p3 hissue => exact CommandFrame.edgesLatched (issueCommand_next_frame hissue)
  | constructMaster c p k => exact .latchEdges (q := (s.setM _).setCt _) rfl
  | envDrive l v => exact .latchEdges (q := s.setEnv _) rfl
  | constructSlave c p => exact absurd rfl (hi c p)
  | timeout => exact ⟨id, fun _ h => absurd rfl h, fun _ h => absurd rfl h, id, id, fun _ => rfl⟩
  | flagClear k =>
    obtain ⟨a, b, c, hflags⟩ := setHookFlag_eq s.s k false
    rw [hflags]
    exact .of_levels rfl rfl rfl
  | _ => exact .of_levels rfl rfl rfl

/-- The latches of changed levels, and the latches kept. -/
theorem EdgesLatched.changes {s t : State} (h : EdgesLatched s t) (hen : s.e.enabled = true) :
    (sdaAtSlave s ≠ sdaAtSlave t → t.e.sda = true) ∧ (sclAtSlave s ≠ sclAtSlave t → t.e.scl = true) :=
  ⟨h.sdaChange hen, h.sclChange hen⟩

theorem EdgesLatched.keeps {s t : State} (h : EdgesLatched s t) :
    (s.e.sda = true → t.e.sda = true) ∧ (s.e.scl = true → t.e.scl = true) ∧ (s.e.tmo = true → t.e.tmo = true) :=
  ⟨h.sda, h.scl, h.tmo⟩

/-- The handler steps only on the slave's turn or on none, and with its request up. -/
theorem not_handler_step {s u : State} {x : Option Turn} (hgives : Gives s x u) (hx : x = none ∨ x = some .slave)
    (hready : handlerReady u = true) : ¬ ((∃ x ts, s.turns = x :: ts ∧ x ≠ .slave) ∨ handlerReady s = false) := by
  rintro (⟨y, ys, hturns, hy⟩ | hnot)
  · obtain rfl | rfl := hx
    · simp [hgives.1] at hturns
    · obtain ⟨ts, hts, _⟩ := hgives
      cases hturns.symm.trans hts
      exact hy rfl
  · obtain ⟨ts, rfl⟩ := hgives.eq
    have hsame : handlerReady s = true := hready
    simp [hsame] at hnot

/-- Settles O28: every agent's step latches the levels it changes; only the handler's entry clears a latch, and it moves
no level. -/
theorem levelChangesSetTheLatch : Obligations.LevelChangesSetTheLatch := by
  intro s t h hconstruct
  obtain ⟨x, u, hgives, hstep⟩ := step_stepped h
  have hhandler := not_handler_step hgives (x := x)
  obtain ⟨ts, rfl⟩ := hgives.eq
  have hturn : EdgesLatched s { s with turns := ts } := .of_levels rfl rfl rfl
  cases hstep with
  | timeout hx hready _ hrun =>
    exact ⟨(consume_edgesLatched hrun).changes, fun hno => absurd hno (hhandler hx hready)⟩
  | snapshot hx hready _ hrun =>
    exact ⟨(consume_edgesLatched hrun).changes, fun hno => absurd hno (hhandler hx hready)⟩
  | master _ hrun =>
    have hlatched := hturn.trans (masterStep_edgesLatched hrun)
    exact ⟨hlatched.changes, fun _ => hlatched.keeps⟩
  | timer _ hrun =>
    have hlatched : EdgesLatched s t := hrun ▸ .of_levels rfl rfl rfl
    exact ⟨hlatched.changes, fun _ => hlatched.keeps⟩
  | outside i r hnext _ hrun =>
    have hi : ∀ c p, i ≠ .constructSlave c p := by
      rintro c p rfl
      refine hconstruct ⟨c, p, r, hnext, ?_⟩
      cases hrun
      rw [constructSlave_eq]
    have hinput : EdgesLatched s { s with turns := ts, inputs := r } := .of_levels rfl rfl rfl
    have hlatched := hinput.trans (applyInput_edgesLatched hrun hi)
    exact ⟨hlatched.changes, fun _ => hlatched.keeps⟩
  | rest hrun =>
    have hlatched : EdgesLatched s t := hrun ▸ hturn
    exact ⟨hlatched.changes, fun _ => hlatched.keeps⟩

end Sys2Proof.Lines
end

section
/-! PROOFS. Whole rows of the slave: the snapshot and state rows, a reserved stored index, and a byte sent on the wire
(43_classifier.md R150; 44_slave_fsm.md R165, R166, R170 to R175; 20_memory.md R43). -/

namespace Sys2Proof.SlaveFsm

open Sys2Proof Sys2Proof.Machine Sys2Proof.Safety

/-! ## Rows complete under the invariant -/

/-- A live slave that meets its invariant is in a stored state, with its cursor inside its memory. -/
theorem stored_of_slaveInv {s : State} (hf : s.s.fault = false) (h : SlaveInv s) :
    ∃ x, Stored x s ∧ s.s.cursor < s.s.cfg.memSize := by
  obtain ⟨⟨hc, _⟩, _, _, _, _, _, hstored⟩ := h hf
  obtain ⟨x, hx⟩ := Option.ne_none_iff_exists'.mp hstored
  exact ⟨x, ⟨hf, hx⟩, hc⟩

/-- Under the invariant no symbol stops a live slave. -/
theorem consume_completes {s : State} (h : SlaveInv s) (y : Symbol) : ∃ t, consume y s = .next t := by
  cases hf : s.s.fault with
  | true => exact ⟨s, Steps.consume_halted hf y⟩
  | false =>
    obtain ⟨x, hx, hc⟩ := stored_of_slaveInv hf h
    obtain ⟨t, ht⟩ := runState_completes x y (s := s.setS { s.s with sym := y }) hc
    exact ⟨_, consume_stored hf hx.2 ht⟩

/-- Settles O8: a snapshot row consumes the symbol of its table entry, which completes. -/
theorem snapshotsAreClassifiedAndConsumed : Obligations.SnapshotsAreClassifiedAndConsumed := by
  intro c s _ h
  obtain ⟨t, ht⟩ := consume_completes h (classify c)
  exact ⟨t, by rw [exec_snapInstr, ht], by rw [exec_symbolInstr, ht]⟩

/-! ## A reserved stored index -/

/-- Settles O20: the codes are enumerated, and without a stored state consuming a symbol only raises the fault. -/
theorem badStateLatches : Obligations.BadStateLatches := by
  refine ⟨by decide, fun s y hf hnone => ?_⟩
  rw [exec_symbolInstr, consume, if_neg (by simp [hf]), hnone]
  rfl

/-! ## The state rows -/

/-- Settles O22: the pass-through states as rows store the state they pass to. -/
theorem passThroughRows : Obligations.PassThroughRows := by
  refine ⟨fun s hf => ?idle, fun s hf => ?startBit⟩
  case idle =>
    have hrun : runState .idle s.s.sym s = .ok _ := runState_stays (z := .waitForStart) rfl rfl
    exact ⟨_, Steps.execState_ok hf hrun, idleDone s.s.sym s⟩
  case startBit =>
    have hrun : runState .startBitReceived s.s.sym s = .ok _ := runState_stays (z := .receiveAddress) rfl rfl
    exact Steps.execState_ok hf hrun

/-- Settles O23: with the row's state stored the dispatcher runs the same state function, which reads neither the stored
index nor the record of the symbol. -/
theorem stateRowsAreTheDispatchers : Obligations.StateRowsAreTheDispatchers := by
  intro x s hx hf hinv
  have hpass : passThrough x = false := by
    simp only [dataStates, List.mem_cons, List.not_mem_nil, or_false] at hx
    obtain rfl | rfl | rfl | rfl | rfl := hx <;> rfl
  obtain ⟨⟨hc, _⟩, _⟩ := hinv hf
  obtain ⟨t, ht⟩ := runState_completes x s.s.sym (s := s) hc
  refine ⟨t, by rw [exec_stateInstr, Steps.execState_ok hf ht], ?_⟩
  have hrelabel := runState_relabel x s.s.sym (stateCode x) s.s.sym s
  rw [ht] at hrelabel
  have hsym : ({ t with s := { t.s with sym := s.s.sym } } : State) = t := by rw [← runState_sym ht]
  have hstored : Stored x { s with s := { s.s with state := stateCode x } } := ⟨hf, storedState_stateCode hpass⟩
  exact exec_symbol_ok hstored (hrelabel.trans (congrArg Except.ok hsym))

/-! ## A byte on the wire -/

/-- `u` is in the middle of a data byte: the byte so far, the mask and the phase, and of `s` the memory, the cursors and
the parameters. -/
structure Receiving (s : State) (sr mask : Byte) (ack : Bool) (u : State) : Prop where
  stored : Stored .receiveData u
  sr : u.s.sr = sr
  mask : u.s.mask = mask
  ack : u.s.ackPhase = ack
  mem : u.mem = s.mem
  cursor : u.s.cursor = s.s.cursor
  init : u.s.initCursor = s.s.initCursor
  cfg : u.s.cfg = s.s.cfg

/-- The spy reaches none of what a byte under reception is made of. -/
theorem Receiving.spy {s u : State} {sr mask : Byte} {ack : Bool} (h : Receiving s sr mask ack u) (y : Symbol) :
    Receiving s sr mask ack (spyIfEnabled y u) := by
  obtain ⟨c, n, text, heq⟩ := spyIfEnabled_eq y u
  rw [heq]
  exact ⟨h.stored, h.sr, h.mask, h.ack, h.mem, h.cursor, h.init, h.cfg⟩

/-- Nor is the record of the symbol. -/
theorem Receiving.recorded {s u : State} {sr mask : Byte} {ack : Bool} (h : Receiving s sr mask ack u) (y : Symbol) :
    Receiving s sr mask ack (withSym y u) :=
  ⟨h.stored, h.sr, h.mask, h.ack, h.mem, h.cursor, h.init, h.cfg⟩

/-- The falling edge that follows a bit (43_classifier.md R158). -/
def falling (b : Bool) : Symbol := if b then .fe1 else .fe0

theorem falling_or (b : Bool) : falling b = .fe0 ∨ falling b = .fe1 := by cases b <;> simp [falling]

/-- Symbols consumed in two parts. -/
theorem consumeAll_append {a : List Symbol} {s u : State} (h : consumeAll a s = .next u) (b : List Symbol) :
    consumeAll (a ++ b) s = consumeAll b u := by
  induction a generalizing s with
  | nil => cases h; rfl
  | cons y r ih =>
    simp only [consumeAll, List.cons_append] at h ⊢
    split at h
    · exact ih h
    · cases h
    · cases h

theorem consumeAll_cons {y : Symbol} {s u : State} (h : exec (symbolInstr y) s = .next u) (r : List Symbol) :
    consumeAll (y :: r) s = consumeAll r u := by
  simp only [consumeAll, h]

/-- A byte with a bit entered at the mask. -/
def withBit (b : Bool) (sr mask : Byte) : Byte := if b then sr ||| mask else sr

section

variable {s u : State} {sr mask : Byte}

/-- The rising edge of a bit. -/
theorem Receiving.rise (h : Receiving s sr mask false u) (hdue : mask ≠ 0#8) (b : Bool) :
    ∃ w, exec (symbolInstr (rising b)) u = .next w ∧ Receiving s (withBit b sr mask) (mask >>> 1) false w := by
  obtain ⟨hstored, hsr, hmask, hack, hmem, hcursor, hinit, hcfg⟩ := h
  have hstep := stateFn_rising_due (x := .receiveData) (s := withSym (rising b) u) (by decide)
    (show u.s.mask ≠ 0#8 from hmask ▸ hdue) nofun b
  refine ⟨_, exec_symbol_stays hstored hstep, Receiving.spy ?_ _⟩
  refine ⟨hstored, ?_, ?_, hack, hmem, hcursor, hinit, hcfg⟩
  · show byteWithBit b u.s = withBit b sr mask
    rw [byteWithBit, hsr, hmask, withBit]
  · show u.s.mask >>> 1 = mask >>> 1
    rw [hmask]

/-- The falling edge of a bit with more to come. -/
theorem Receiving.fallBetween (h : Receiving s sr mask false u) (hdue : mask ≠ 0#8) (b : Bool) :
    ∃ w, exec (symbolInstr (falling b)) u = .next w ∧ Receiving s sr mask false w := by
  have hstep := (stateFn_falling (x := .receiveData) (by decide) (falling_or b) (withSym (falling b) u)).trans
    (ackEdge_of_due (s := withSym (falling b) u) (show u.s.mask ≠ 0#8 from h.mask ▸ hdue) _ _)
  exact ⟨_, exec_symbol_ignored h.stored hstep, (h.recorded _).spy _⟩

/-- The falling edge of the eighth bit sets the acknowledge up. -/
theorem Receiving.fallLast (h : Receiving s sr 0#8 false u) (b : Bool) :
    ∃ w, exec (symbolInstr (falling b)) u = .next w ∧ Receiving s sr 0#8 true w ∧ slaveSda w = false := by
  obtain ⟨hstored, hsr, hmask, hack, hmem, hcursor, hinit, hcfg⟩ := h
  have hstep := (stateFn_falling (x := .receiveData) (by decide) (falling_or b) (withSym (falling b) u)).trans
    (ackEdge_setUp (s := withSym (falling b) u) hmask hack _ _)
  have hexec := exec_symbol_stays hstored hstep
  rw [spyIfEnabled_falling (falling_or b)] at hexec
  exact ⟨_, hexec, ⟨hstored, hsr, hmask, rfl, hmem, hcursor, hinit, hcfg⟩, rfl⟩

/-- The symbols of some bits. -/
def bitSymbols (bits : List Bool) : List Symbol := bits.flatMap fun b => [rising b, falling b]

/-- The byte after some bits, entered from the mask on. -/
def withBits : List Bool → Byte → Byte → Byte
  | [], sr, _ => sr
  | b :: r, sr, mask => withBits r (withBit b sr mask) (mask >>> 1)

/-- Bits before the eighth are accumulated, one after the other. -/
theorem Receiving.bits (bits : List Bool) (h : Receiving s sr mask false u) (hdue : mask >>> bits.length ≠ 0#8) :
    ∃ w, consumeAll (bitSymbols bits) u = .next w ∧
      Receiving s (withBits bits sr mask) (mask >>> bits.length) false w := by
  induction bits generalizing u sr mask with
  | nil => exact ⟨u, rfl, by simpa [withBits] using h⟩
  | cons b r ih =>
    have hshift : mask >>> (b :: r).length = mask >>> 1 >>> r.length := by
      rw [← BitVec.shiftRight_add, List.length_cons, Nat.add_comm]
    rw [hshift] at hdue ⊢
    have hone : mask >>> 1 ≠ 0#8 := fun hzero => hdue (by rw [hzero]; simp)
    have hmask : mask ≠ 0#8 := fun hzero => hone (by rw [hzero]; rfl)
    obtain ⟨v, hv, hrise⟩ := h.rise hmask b
    obtain ⟨w, hw, hfall⟩ := hrise.fallBetween hone b
    obtain ⟨x, hx, hrest⟩ := ih hfall hdue
    refine ⟨x, ?_, hrest⟩
    show consumeAll (rising b :: falling b :: bitSymbols r) u = _
    rw [consumeAll_cons hv, consumeAll_cons hw, hx]

end

/-- Eight bits in wire order make the byte they came from: one comparison per byte. -/
theorem withBits_msbFirst : ∀ v : Byte,
    withBit (v.getLsbD 0) (withBits ((msbFirst v).take 7) 0#8 0x80#8) 0x01#8 = v := by decide

/-- The data of a byte sent to a slave that is ready for one, up to its acknowledge. -/
theorem receives_byte {s : State} (v : Byte) (hstored : Stored .receiveData s) (hmask : s.s.mask = 0x80#8)
    (hphase : s.s.ackPhase = false) (hsr : s.s.sr = 0#8) :
    ∃ u, consumeAll ((byteSymbols v).take 16) s = .next u ∧ Receiving s v 0#8 true u ∧ slaveSda u = false := by
  have hbegin : Receiving s 0#8 0x80#8 false s := ⟨hstored, hsr, hmask, hphase, rfl, rfl, rfl, rfl⟩
  have hseven : ((msbFirst v).take 7).length = 7 := rfl
  obtain ⟨u, hu, hbits⟩ := hbegin.bits ((msbFirst v).take 7) (by rw [hseven]; decide)
  obtain ⟨w, hw, hrise⟩ := hbits.rise (by rw [hseven]; decide) (v.getLsbD 0)
  have hlast : Receiving s v 0#8 false w := by
    rw [hseven] at hrise
    have hbyte := withBits_msbFirst v
    rwa [show (0x80#8 : Byte) >>> 7 = 0x01#8 from rfl, hbyte, show (0x01#8 : Byte) >>> 1 = 0#8 from rfl] at hrise
  obtain ⟨x, hx, hack, hsda⟩ := hlast.fallLast (v.getLsbD 0)
  refine ⟨x, ?_, hack, hsda⟩
  have hsymbols : (byteSymbols v).take 16 =
      bitSymbols ((msbFirst v).take 7) ++ [rising (v.getLsbD 0), falling (v.getLsbD 0)] := rfl
  rw [hsymbols, consumeAll_append hu, consumeAll_cons hw, consumeAll_cons hx]
  rfl

/-- The acknowledge clock commits the byte. -/
theorem Receiving.commits {s u : State} {v : Byte} (h : Receiving s v 0#8 true u)
    (hc : s.s.cursor < s.s.cfg.memSize) : ∃ t, consumeAll [.re0, .fe0] u = .next t ∧
      t.mem = s.mem.write s.s.cursor v ∧ t.s.cursor = (s.s.cursor + 1) % s.s.cfg.memSize ∧ t.s.memWritten = true ∧
      Stored .receiveData t ∧ t.s.mask = 0x80#8 ∧ t.s.ackPhase = false ∧ t.s.sr = 0#8 ∧
      t.s.initCursor = s.s.initCursor ∧ slaveSda t = true := by
  have hre := exec_symbol_ignored h.stored (y := .re0)
    (stateFn_rising_spent (x := .receiveData) (s := withSym .re0 u) (by decide) h.mask false)
  obtain ⟨w, hw, hsame⟩ : ∃ w, exec (symbolInstr .re0) u = .next w ∧ Receiving s v 0#8 true w :=
    ⟨_, hre, (h.recorded .re0).spy .re0⟩
  obtain ⟨hstored, hsr, hmask, hack, hmem, hcursor, hinit, hcfg⟩ := hsame
  have hinside : w.s.cursor < w.s.cfg.memSize := by rw [hcursor, hcfg]; exact hc
  have hfe := exec_symbol_stays hstored
    (stateFn_data (y := .fe0) (.inl rfl) (s := withSym .fe0 w) hmask hack hinside)
  rw [spyIfEnabled_falling (.inl rfl)] at hfe
  refine ⟨_, (consumeAll_cons hw _).trans (consumeAll_cons hfe []), ?_, ?_, rfl, hstored, rfl, rfl, rfl, hinit, rfl⟩
  · show w.mem.write w.s.cursor w.s.sr = _
    rw [hmem, hcursor, hsr]
  · show (w.s.cursor + 1) % w.s.cfg.memSize = _
    rw [hcursor, hcfg]

/-- Settles O21: eight bits are received and acknowledged, and the acknowledge clock stores them. -/
theorem serialByteIsStored : Obligations.SerialByteIsStored := by
  intro s v hstored hmask hphase hsr hc
  obtain ⟨u, hu, hack, hsda⟩ := receives_byte v hstored hmask hphase hsr
  obtain ⟨t, ht, hend⟩ := hack.commits hc
  refine ⟨⟨u, hu, hsda, hack.ack, hack.sr, hack.mem⟩, t, ?_, hend⟩
  have hsplit : byteSymbols v = (byteSymbols v).take 16 ++ [.re0, .fe0] := rfl
  rw [hsplit, consumeAll_append hu, ht]

end Sys2Proof.SlaveFsm
end

section
/-! PROOFS. Whose step it is (46_common_semantics.md R201, R202; 43_classifier.md R150), halted contexts, construction and
reset (60_exceptions.md R226 to R230; 70_reset_and_hazards.md R261, R262), and where a step stops. -/

namespace Sys2Proof.Scheduling

open Sys2Proof Sys2Proof.Machine Sys2Proof.Safety Sys2Proof.Steps

/-! ## A turn given, or none -/

theorem step_given {s : State} {x : Turn} {ts : List Turn} (h : s.turns = x :: ts) :
    step s = turnStep x { s with turns := ts } := by
  simp only [step, nextStep, h]

theorem step_default {s : State} (h : s.turns = []) : step s = defaultStep s := by
  simp only [step, nextStep, h]

theorem outsideReady_cons {s : State} {i : Input} {r : List Input} (h : s.inputs = i :: r) :
    outsideReady s = inputReady i s := by
  simp only [outsideReady, h]

theorem outsideStep_cons {s : State} {i : Input} {r : List Input} (h : s.inputs = i :: r) :
    outsideStep s = applyInput i { s with inputs := r } := by
  simp only [outsideStep, h]

/-- The outside's next operation takes its step where its precondition holds. -/
theorem step_outside_ready {s : State} {i : Input} {r : List Input} {ts : List Turn} (hinputs : s.inputs = i :: r)
    (hturns : s.turns = .outside :: ts) (hready : inputReady i s = true) :
    step s = applyInput i { s with turns := ts, inputs := r } := by
  have hout : outsideReady { s with turns := ts } = true := (outsideReady_cons hinputs).trans hready
  rw [step_given hturns, turnStep, if_pos hout]
  exact outsideStep_cons (s := { s with turns := ts }) hinputs

/-- Where it does not hold, the operation waits. -/
theorem step_outside_waits {s : State} {i : Input} {r : List Input} {ts : List Turn} (hinputs : s.inputs = i :: r)
    (hturns : s.turns = .outside :: ts) (hready : inputReady i s = false) :
    step s = .next { s with turns := ts } := by
  have hout : ¬ outsideReady { s with turns := ts } = true := by
    rw [outsideReady_cons (s := { s with turns := ts }) hinputs]
    exact Bool.eq_false_iff.mp hready
  rw [step_given hturns, turnStep, if_neg hout]

/-- With no turn given the outside steps when no other agent can. -/
theorem step_outside_default {s : State} {i : Input} {r : List Input} (hinputs : s.inputs = i :: r)
    (hturns : s.turns = []) (hhandler : handlerReady s = false) (hmaster : masterReady s = false)
    (htimer : timerReady s = false) (hready : inputReady i s = true) :
    step s = applyInput i { s with inputs := r } := by
  have hout : outsideReady s = true := (outsideReady_cons hinputs).trans hready
  rw [step_default hturns, defaultStep, if_neg (Bool.eq_false_iff.mp hhandler), if_neg (Bool.eq_false_iff.mp hmaster),
    if_neg (Bool.eq_false_iff.mp htimer), if_pos hout, outsideStep_cons hinputs]

/-! ## Commands placed by the host -/

theorem issueCommand_decoded {p0 p1 p2 p3 : Word} {i : Instr} (h : decode (.cmd p0 p1 p2 p3) = .ok i) (s : State) :
    issueCommand p0 p1 p2 p3 s = exec i s := by
  have hdecode : decodeCmd p0 p1 p2 p3 = .ok i := h
  simp only [issueCommand, hdecode]

theorem issueCommand_reserved {p0 p1 p2 p3 : Word} {e : DecodeError} (h : decode (.cmd p0 p1 p2 p3) = .error e)
    {s : State} (hb : s.m.busy = false) (hf : s.m.fault = false) :
    issueCommand p0 p1 p2 p3 s = .next (raiseMaster .badCommand (accept s)) := by
  have hdecode : decodeCmd p0 p1 p2 p3 = .error e := h
  simp only [issueCommand, hdecode, rejectOpcode, acceptCommand_runs hb hf]

/-- On a halted master every command only returns the latched status word. -/
theorem issueCommand_halted {p0 p1 p2 p3 : Word} {s : State} (hb : s.m.busy = false) (hf : s.m.fault = true) :
    issueCommand p0 p1 p2 p3 s = .next (returnStatus (accept s)) := by
  obtain ⟨h, _⟩ | ⟨_, _, k⟩ | ⟨_, h, _⟩ := issueCommand_cases p0 p1 p2 p3 s
  · simp [hb] at h
  · exact k
  · simp [hf] at h

/-- Settles O5: the turn's and the default step run the host's operation, which decodes the command. -/
theorem stepRunsTheIssuedCommand : Obligations.StepRunsTheIssuedCommand := by
  intro s p0 p1 p2 p3 r hinputs hb
  have hready : inputReady (.issue p0 p1 p2 p3) s = true := by simp [inputReady, hb]
  refine ⟨fun ts i hturns hi => ?given, fun i hturns hhandler htimer hi => ?default, fun ts e hturns he hf => ?reserved⟩
  case given => exact (step_outside_ready hinputs hturns hready).trans (issueCommand_decoded hi _)
  case default =>
    have hmaster : masterReady s = false := by simp [masterReady, hb]
    exact (step_outside_default hinputs hturns hhandler hmaster htimer hready).trans (issueCommand_decoded hi _)
  case reserved => exact (step_outside_ready hinputs hturns hready).trans (issueCommand_reserved he hb hf)

/-- A bus command is entered through the checks of its family (60_exceptions.md R230). -/
theorem exec_bus {i : Instr} {v : Variant} (h : busCommandOf i = some v) : ∃ run, ∀ s, exec i s = enterBus v run s := by
  cases i with
  | start | move | stop | rstart | rmove | rpark => cases h; exact ⟨_, fun _ => rfl⟩
  | _ => cases h

/-- Settles O48: the order is that of `acceptCommand`, then of the decoder, then of `checkBus`. -/
theorem commandDecodeOrder : Obligations.CommandDecodeOrder := by
  refine ⟨fun _ => rfl, fun _ => rfl, fun s p0 p1 p2 p3 hb =>
    ⟨issueCommand_halted hb, fun hf hop => ?reserved, fun hf bps tl th hi => issueCommand_decoded hi s,
      fun hf i v hi hv => ?bus⟩⟩
  case reserved => exact issueCommand_reserved (Encoding.decodesExactlyTheAssignedCodes.2.1 p0 p1 p2 p3 hop) hb hf
  case bus =>
    rw [issueCommand_decoded hi]
    obtain ⟨run, hrun⟩ := exec_bus hv
    rw [hrun, enterBus, acceptCommand_runs hb hf]
    refine ⟨fun hnone => ?_, fun hsome hother => ?_, fun _ _ => rfl⟩
    · rw [checkBus, if_pos (show (accept s).m.strategy = .none from hnone)]
    · rw [checkBus, if_neg (show ¬ (accept s).m.strategy = .none from hsome),
        if_pos (show (accept s).m.cfg.variant ≠ v from hother)]

/-! ## The handler -/

/-- The handler's step, with its turn or with none. -/
theorem step_handler {s u : State} (h : (∃ ts, s.turns = .slave :: ts ∧ u = { s with turns := ts }) ∨ (s.turns = [] ∧ u = s))
    (hready : handlerReady u = true) : step s = handlerStep u := by
  obtain ⟨ts, hturns, rfl⟩ | ⟨hturns, rfl⟩ := h
  · rw [step_given hturns, turnStep, if_pos hready]
  · rw [step_default hturns, defaultStep, if_pos hready]

/-- Settles O6: the Timeout latch goes before the snapshot, whose bits are the latches and the levels. -/
theorem stepRunsTheHandler : Obligations.StepRunsTheHandler := by
  intro s u hturn hf
  have hlive : u.s.fault = false := by
    obtain ⟨ts, _, rfl⟩ | ⟨_, rfl⟩ := hturn
    · exact hf
    · exact hf
  refine ⟨fun htmo i hi => ?timeout, fun htmo hlatch i hi => ?snapshot, SlaveKept.snapshot_bits u⟩
  case timeout =>
    have hready : handlerReady u = true := by simp [handlerReady, htmo, hlive]
    have hrow : decode (.sym 3#4) = .ok .symTimeout := rfl
    cases hrow.symm.trans hi
    rw [step_handler hturn hready, handlerStep, if_pos htmo]
    rfl
  case snapshot =>
    have hready : handlerReady u = true := by
      obtain hsda | hscl := hlatch
      · simp [handlerReady, hsda, hlive]
      · simp [handlerReady, hscl, hlive]
    have hrow : decode (.snap (snapshot u)) = .ok (snapInstr (snapshot u)) := rfl
    cases hrow.symm.trans hi
    rw [step_handler hturn hready, handlerStep, if_neg (Bool.eq_false_iff.mp htmo)]
    rfl

/-! ## Halted contexts, construction and reset -/

/-- A command accepted and ended at once, on a free master: only the status word is new. -/
theorem returnStatus_accept {s : State} (hb : s.m.busy = false) :
    returnStatus (accept s) = { s with out := { s.out with status := s.out.status ++ [statusWord s.m] } } := by
  have hm : ({ s.m with busy := false } : Master) = s.m := by rw [← hb]
  have hstatus : returnStatus (accept s) =
      { s with m := { s.m with busy := false }, out := { s.out with status := s.out.status ++ [statusWord s.m] } } := rfl
  rw [hstatus, hm]

/-- Settles O49: a command on a halted master only returns its word, and a halted slave's rows and handler do nothing. -/
theorem haltedContextsOnlyRefuse : Obligations.HaltedContextsOnlyRefuse := by
  refine ⟨fun i s hrow hf hb => ?command, fun s hf => ?master, fun i s hrow hf => ?slave, fun s hf => ?handler⟩
  case command =>
    obtain ⟨p0, p1, p2, p3, _, hexec⟩ := exec_master_row hrow s
    rw [hexec, issueCommand_halted hb hf, returnStatus_accept hb]
  case master => simp [masterReady, hf]
  case slave =>
    obtain ⟨y, hy⟩ | ⟨x, hx⟩ := exec_slave_row hrow
    · rw [hy, consume_halted hf]
    · rw [hx, execState_halted hf]
  case handler => simp [handlerReady, hf]

/-- Settles O47: the raise is written out, and a construction is `constructSlave_eq` by its two checks. -/
theorem raisingLatchesTheFault : Obligations.RaisingLatchesTheFault := by
  refine ⟨⟨raiseMaster_eq, fun _ _ => rfl, rfl, rfl, rfl, rfl, rfl, rfl, rfl, rfl, rfl, rfl, rfl⟩, fun c s => ?nullPin,
    fun c s hsize => ?noMemory, fun c s hsize => ?passes, fun c p s hfail => ?halted, fun _ _ _ _ => rfl⟩
  case nullPin =>
    rw [constructSlave_eq]
    exact ⟨rfl, rfl⟩
  case noMemory =>
    rw [constructSlave_eq]
    simp [constructionOk, constructionCode, hsize, faultCode]
  case passes =>
    rw [constructSlave_eq]
    simp [constructionOk, hsize]
  case halted =>
    rw [constructSlave_eq]
    refine ⟨rfl, ?_⟩
    obtain hp | hsize := hfail
    · simp [constructionOk, hp]
    · simp [constructionOk, hsize]

/-- Settles O51: both contexts are their reset records, at reset and after a construction. -/
theorem resetValues : Obligations.ResetValues := by
  refine ⟨fun m hm => ?master, fun t ht => ?slave⟩
  case master =>
    have hreset : ∃ c p k, m = masterReset c p k := by
      obtain rfl | ⟨c, p, k, s, rfl⟩ := hm
      · exact ⟨_, _, _, rfl⟩
      · exact ⟨c, p, k, rfl⟩
    obtain ⟨c, p, k, rfl⟩ := hreset
    exact ⟨rfl, rfl, rfl, rfl, rfl, rfl, rfl, rfl, rfl, rfl, rfl, rfl, rfl, rfl, rfl, rfl, rfl, rfl,
      fun _ _ _ _ => ⟨rfl, rfl, rfl⟩⟩
  case slave =>
    have hmem : ∀ c p s, (constructSlave c p s).mem = s.mem := fun c p s => by rw [constructSlave_eq]
    obtain rfl | ⟨c, p, s, rfl⟩ := ht
    · exact ⟨rfl, rfl, rfl, rfl, rfl, rfl, rfl, rfl, rfl, rfl, rfl, rfl, rfl, rfl, rfl, rfl, rfl, rfl, rfl, rfl, rfl,
        fun _ _ => ⟨rfl, rfl, rfl⟩, hmem⟩
    · rw [constructSlave_eq]
      refine ⟨rfl, rfl, rfl, rfl, rfl, rfl, rfl, rfl, rfl, rfl, rfl, rfl, rfl, rfl, rfl, rfl, rfl, rfl, rfl, rfl, rfl,
        fun (hp : p = true) (hsize : c.memSize ≠ 0) => ?_, hmem⟩
      simp [constructionOk, constructionCode, hp, hsize]

/-- Settles O52: at reset the slave is at rest in a memory of sixteen bytes, the master idle and both memories empty. -/
theorem resetSatisfiesInvariants : Obligations.ResetSatisfiesInvariants := by
  have hstored : Stored .waitForStart State.reset := ⟨rfl, rfl⟩
  refine ⟨(SlaveKept.slaveInv_iff hstored).mpr ⟨⟨by decide, by decide, nofun⟩, nofun, fun _ => ⟨rfl, rfl, rfl⟩⟩,
    (SlaveKept.driveInv_iff hstored).mpr ⟨fun hx => ?_, rfl, nofun⟩,
    MasterKept.masterInv_of_idle rfl rfl (fun hs => absurd rfl hs) nofun, ⟨rfl, rfl⟩, by decide, by decide⟩
  simp [receiveStates] at hx

/-! ## Where a step stops -/

/-- A master that meets its invariant is never stopped by its own step. -/
theorem masterStep_completes {s : State} (h : MasterInv s) (hready : masterReady s = true) :
    ∃ t, masterStep s = .next t := by
  obtain ⟨_, hbusy, _, _⟩ := h
  simp only [masterReady, Bool.and_eq_true] at hready
  obtain ⟨⟨hb, _⟩, _⟩ := hready
  obtain ⟨hstrategy, _, _⟩ := hbusy hb
  obtain ⟨u, rest, q, _, _, k⟩ | ⟨rest, _, _, _, ⟨_, _, k⟩ | ⟨_, k⟩⟩ | ⟨rest, _, _, hnone, k⟩ | ⟨_, k⟩ :=
    masterStep_cases s
  · exact ⟨_, k⟩
  · exact ⟨_, k⟩
  · exact ⟨_, k⟩
  · exact absurd hnone hstrategy
  · exact ⟨_, k⟩

theorem applyInput_memRead {s : State} {k : Nat} (hk : k < s.s.cfg.memSize) :
    applyInput (.memRead k) s = .next (receive (.memByte k (s.mem.read k)) s) := by
  simp only [applyInput, readMem_lt hk]

theorem applyInput_memWrite {s : State} {k : Nat} (hk : k < s.s.cfg.memSize) (v : Byte) :
    applyInput (.memWrite k v) s = .next (s.setMem (s.mem.write k v)) := by
  simp only [applyInput, writeMem_lt hk]

/-- What stops an operation of the outside: its precondition, or an index outside the memory. -/
def InputStops (i : Input) (s : State) (e : Fault) : Prop :=
  (e = .hostPrecondition ∧ ((i = .spyRead ∧ s.s.cfg.spyEn = false) ∨ ∃ h, i = .hookEvent h ∧ hookEn s.s.cfg h = false)) ∨
  (e = .memIndex ∧ ∃ k, s.s.cfg.memSize ≤ k ∧ (i = .memRead k ∨ ∃ v, i = .memWrite k v))

/-- An operation of the outside completes or stops for one of these reasons. -/
theorem applyInput_stops (i : Input) (s : State) :
    (∃ t, applyInput i s = .next t) ∨ ∃ e, applyInput i s = .fault e ∧ InputStops i s e := by
  cases i with
  | issue p0 p1 p2 p3 =>
    obtain ⟨t, ht, _⟩ := issueCommand_frame p0 p1 p2 p3 s
    exact .inl ⟨t, ht⟩
  | status => simp only [applyInput]; split <;> exact .inl ⟨_, rfl⟩
  | memRead k =>
    by_cases hk : k < s.s.cfg.memSize
    · exact .inl ⟨_, applyInput_memRead hk⟩
    · exact .inr ⟨.memIndex, by simp only [applyInput, SlaveFsm.readMem_outside (not_lt.mp hk)],
        .inr ⟨rfl, k, not_lt.mp hk, .inl rfl⟩⟩
  | memWrite k v =>
    by_cases hk : k < s.s.cfg.memSize
    · exact .inl ⟨_, applyInput_memWrite hk v⟩
    · exact .inr ⟨.memIndex, by simp only [applyInput, SlaveFsm.writeMem_outside (not_lt.mp hk)],
        .inr ⟨rfl, k, not_lt.mp hk, .inr ⟨v, rfl⟩⟩⟩
  | hookEvent k =>
    cases hen : hookEn s.s.cfg k with
    | true => exact .inl ⟨_, if_pos hen⟩
    | false => exact .inr ⟨.hostPrecondition, if_neg (by simp [hen]), .inl ⟨rfl, .inr ⟨k, rfl, hen⟩⟩⟩
  | spyRead =>
    cases hen : s.s.cfg.spyEn with
    | true => exact .inl ⟨_, if_pos hen⟩
    | false => exact .inr ⟨.hostPrecondition, if_neg (by simp [hen]), .inl ⟨rfl, .inl ⟨rfl, hen⟩⟩⟩
  | _ => exact .inl ⟨_, rfl⟩

/-- A blocked `Wait` of a master that meets its invariant waits for a countdown that runs: with the timer unable to step,
one whose done flag never comes. -/
theorem dead_of_blocked {s : State} (h : MasterInv s) (hblocked : masterBlocked s = true) (htimer : timerReady s = false) :
    s.timer.done = false ∧ s.timer.dead = true := by
  obtain ⟨_, _, _, hwaiting⟩ := h
  have hwait : s.m.waiting = true ∧ s.timer.done = false := by
    unfold masterBlocked at hblocked
    split at hblocked
    · simp only [Bool.and_eq_true, Bool.not_eq_true'] at hblocked
      exact ⟨hblocked.1.2, hblocked.2⟩
    · cases hblocked
  obtain ⟨hw, hdone⟩ := hwait
  obtain hrunning | hd := hwaiting hw
  · exact ⟨hdone, by simpa [timerReady, hrunning] using htimer⟩
  · simp [hdone] at hd

/-- Settles O58: under the invariants the handler and the master complete, so only the stuck `Wait` and the outside's
operations stop a step. -/
theorem stepStopsOnlyOutsideTheRows : Obligations.StepStopsOnlyOutsideTheRows := by
  intro s hslave hmaster
  obtain ⟨x, u, hgives, hby⟩ := step_cases s
  have hturns : x = none → s.turns = [] ∧ u = s := fun hx => by subst hx; exact hgives
  obtain ⟨ts, rfl⟩ := hgives.eq
  obtain ⟨_, _, _, ho⟩ | ⟨_, _, _, ho⟩ | ⟨hr, ho⟩ | ⟨_, ho⟩ | ⟨i, r, hi, _, ho⟩ | ho |
    ⟨hx, hblocked, hb, htimer, hhandler, hout, ho⟩ := hby <;> rw [ho]
  · obtain ⟨t, ht⟩ := SlaveFsm.consume_completes
      (s := State.setE { s with turns := ts } { s.e with tmo := false }) hslave .timeout
    exact ht ▸ ⟨nofun, nofun⟩
  · obtain ⟨t, ht⟩ := SlaveFsm.consume_completes (s := clearEdges { s with turns := ts }) hslave
      (classify (snapshot { s with turns := ts }))
    exact ht ▸ ⟨nofun, nofun⟩
  · obtain ⟨t, ht⟩ := masterStep_completes (s := { s with turns := ts }) hmaster hr
    exact ht ▸ ⟨nofun, nofun⟩
  · exact ⟨nofun, nofun⟩
  · have hhead : s.inputs.head? = some i := by rw [show s.inputs = i :: r from hi]; rfl
    obtain ⟨t, ht⟩ | ⟨e, he, hstops⟩ := applyInput_stops i { s with turns := ts, inputs := r }
    · exact ht ▸ ⟨nofun, nofun⟩
    · rw [he]
      refine ⟨fun e' heq => .inr ?_, nofun⟩
      cases heq
      rw [hhead]
      obtain ⟨rfl, ⟨rfl, hen⟩ | ⟨h, rfl, hen⟩⟩ | ⟨rfl, k, hk, rfl | ⟨v, rfl⟩⟩ := hstops
      · exact .inl ⟨rfl, .inl ⟨rfl, hen⟩⟩
      · exact .inl ⟨rfl, .inr ⟨h, rfl, hen⟩⟩
      · exact .inr ⟨rfl, k, hk, .inl rfl⟩
      · exact .inr ⟨rfl, k, hk, .inr ⟨v, rfl⟩⟩
  · exact ⟨nofun, nofun⟩
  · obtain ⟨hdone, hdead⟩ := dead_of_blocked (s := { s with turns := ts }) hmaster hblocked htimer
    refine ⟨fun e heq => .inl ?_, nofun⟩
    cases heq
    exact ⟨rfl, hb, hblocked, hdone, hdead, (hturns hx).1, hhandler, hout⟩

/-! ## The operations of host and environment -/

theorem applyInput_status {s : State} {w : Word} {r : List Word} (h : s.out.status = w :: r) :
    applyInput .status s = .next { s with
      m := { s.m with busy := false }
      out := { s.out with status := r, received := s.out.received ++ [.status w] } } := by
  simp only [applyInput, h]
  rfl

theorem applyInput_hookEvent {s : State} {h : Hook} {r : List Hook} (hen : hookEn s.s.cfg h = true)
    (hnext : s.out.hooks = h :: r) :
    applyInput (.hookEvent h) s = .next { s with
      out := { s.out with hooks := r, received := s.out.received ++ [.hook h] } } := by
  simp only [applyInput, if_pos hen, hnext]
  rfl

/-- The countdown's turn (46_common_semantics.md R202). -/
theorem step_timer {s : State} {ts : List Turn} (h : s.turns = .timer :: ts) :
    (timerReady s = true → step s = .next (timerDone { s with turns := ts })) ∧
      (timerReady s = false → step s = .next { s with turns := ts }) := by
  rw [step_given h, turnStep]
  exact ⟨fun hready => if_pos hready, fun hready => if_neg (Bool.eq_false_iff.mp hready)⟩

/-- Settles O60: readiness and effect of each operation are read off `inputReady` and `applyInput`, what none of them
reaches off `Applied`. -/
theorem hostOperations : Obligations.HostOperations := by
  refine ⟨fun s i r ts hinputs hturns => ⟨step_outside_ready hinputs hturns, step_outside_waits hinputs hturns⟩,
    fun i s t h => ⟨applyInput_slave h, applyInput_master h⟩,
    fun s => ⟨?statusReady, fun _ _ _ _ => rfl, fun _ _ _ => rfl, fun _ _ => ?bufReadReady, fun h => ?hookReady,
      fun i v h c p k l b n x hx => ?alwaysReady, fun _ _ => rfl, fun _ _ _ => rfl, fun _ _ => rfl,
      fun w r hst => applyInput_status hst, fun _ _ _ => rfl, fun _ _ => rfl, fun i hi => applyInput_memRead hi,
      fun i v hi => applyInput_memWrite hi v, fun _ => rfl, fun _ => rfl, fun h r => applyInput_hookEvent, rfl,
      fun hen => if_pos hen, rfl⟩,
    fun s v => ⟨rfl, rfl, rfl, rfl, rfl⟩,
    fun s => ⟨fun _ => rfl, fun _ => rfl, fun ts hturns => ⟨fun hrunning hdead => ?timerDone, fun hnot => ?timerRests⟩⟩⟩
  case statusReady => simp [inputReady]
  case bufReadReady => simp [inputReady]
  case hookReady =>
    simp only [inputReady, Bool.or_eq_true, Bool.not_eq_true', decide_eq_true_eq]
    cases hookEn s.s.cfg h <;> simp
  case alwaysReady =>
    simp only [List.mem_cons, List.not_mem_nil, or_false] at hx
    rcases hx with rfl | rfl | rfl | rfl | rfl | rfl | rfl | rfl | rfl | rfl | rfl | rfl <;> rfl
  case timerDone => exact (step_timer hturns).1 (by simp [timerReady, hrunning, hdead])
  case timerRests =>
    refine (step_timer hturns).2 ?_
    obtain hstopped | hdead := hnot
    · simp [timerReady, hstopped]
    · simp [timerReady, hdead]

end Sys2Proof.Scheduling
end

section
/-! PROOFS. The entry of each command of the master: CFG's choice and faults (40_delay_engine.md R92 to R95), and the
expansions the bus commands begin with (41_master_i2c.md R108 to R122; 42_master_rffe.md R131 to R138). -/

namespace Sys2Proof.Commands

open Sys2Proof Sys2Proof.Machine Sys2Proof.Safety

/-! ## CFG -/

section

variable {s : State} (hb : s.m.busy = false) (hf : s.m.fault = false)
include hb hf

theorem exec_cfg (bps : Word) (tl th : BitVec 16) : exec (.cfg bps tl th) s = .next (runCfg bps tl th (accept s)) :=
  acceptCommand_runs hb hf

/-- A wired master at a legal rate comes to the strategy choice. -/
theorem exec_cfg_legal (bps : Word) (tl th : BitVec 16) (hpins : s.m.pinsOk = true) (hclock : s.m.clockTreeOk = true)
    (hrate : (effectiveRate s.m.cfg bps).toNat ≤ (maxRate s.m.cfg).toNat) :
    exec (.cfg bps tl th) s = .next (chooseStrategy (effectiveRate s.m.cfg bps) tl th (accept s)) := by
  rw [exec_cfg hb hf, runCfg, if_neg (by simp [hpins]), if_neg (by simp [hclock]), if_neg (by simpa using hrate)]
  rfl

end

/-- With the timer's parameter not 0 the timer strategy is chosen. -/
theorem chooseStrategy_timer {s : State} {r : Word} (h : timerParam s.m.cfg r ≠ 0) (tl th : BitVec 16) :
    chooseStrategy r tl th s =
      returnStatus (configure r tl th .timer (storedWaitParam (timerParam s.m.cfg r)) s) := by
  rw [chooseStrategy, if_pos h]

/-- Else, with the clock known, the spin loop. -/
theorem chooseStrategy_spin {s : State} {r : Word} {f : Nat} (h : timerParam s.m.cfg r = 0) (hclock : s.ct.coreHz = some f)
    (hparam : waitParamSpin s.m.cfg.waitFns r.toNat f ≠ 0) (tl th : BitVec 16) :
    chooseStrategy r tl th s =
      returnStatus (configure r tl th .spin (storedWaitParam (waitParamSpin s.m.cfg.waitFns r.toNat f)) s) := by
  simp only [chooseStrategy, h, hclock, ne_eq, not_true_eq_false, if_false, if_neg hparam]

theorem chooseStrategy_unreachable {s : State} {r : Word} {f : Nat} (h : timerParam s.m.cfg r = 0)
    (hclock : s.ct.coreHz = some f) (hparam : waitParamSpin s.m.cfg.waitFns r.toNat f = 0) (tl th : BitVec 16) :
    chooseStrategy r tl th s = raiseMaster .rateUnreachable s := by
  simp only [chooseStrategy, h, hclock, ne_eq, not_true_eq_false, if_false, if_pos hparam]

/-- Else the clock requirement is raised. -/
theorem chooseStrategy_unclocked {s : State} {r : Word} (h : timerParam s.m.cfg r = 0) (hclock : s.ct.coreHz = none)
    (tl th : BitVec 16) :
    chooseStrategy r tl th s = returnStatus ((configure r tl th .none 0#32 s).setCt { s.ct with
      minCoreHzReq := raisedClockReq s.ct.minCoreHzReq (minCoreHzFor s.m.cfg.waitFns r.toNat) }) := by
  simp only [chooseStrategy, h, hclock, ne_eq, not_true_eq_false, if_false]

theorem storedWaitParam_toNat {n : Nat} (h : n < 2 ^ 32) : (storedWaitParam n).toNat = n := by
  rw [storedWaitParam, if_pos h, BitVec.toNat_ofNat, Nat.mod_eq_of_lt h]

theorem raisedClockReq_toNat {old : Word} {need : Nat} (h : max old.toNat need < 2 ^ 32) :
    (raisedClockReq old need).toNat = max old.toNat need := by
  rw [raisedClockReq, if_pos h, BitVec.toNat_ofNat, Nat.mod_eq_of_lt h]

theorem le_raisedClockReq (old : Word) (need : Nat) : old.toNat ≤ (raisedClockReq old need).toNat := by
  by_cases h : max old.toNat need < 2 ^ 32
  · rw [raisedClockReq_toNat h]
    exact le_max_left _ _
  · rw [raisedClockReq, if_neg h]
    split
    · exact le_rfl
    · next hge => exact not_lt.mp hge

/-- A free master as the record it is, so that a command that ends at once leaves it free by computation. -/
theorem exists_free {s : State} (hb : s.m.busy = false) : ∃ q : State, s = { q with m := { q.m with busy := false } } :=
  ⟨s, by rw [← hb]⟩

/-- Settles O29: the strategy choice branch by branch, then the two helper values. -/
theorem cfgConfigures : Obligations.CfgConfigures := by
  refine ⟨fun s bps tl th r hwired hr hrate => ?choice, fun c r hc => if_neg (by simp [hc]), fun c r hc => if_pos hc,
    fun n hn => ⟨storedWaitParam_ne_zero hn, storedWaitParam_toNat⟩,
    fun old need => ⟨le_raisedClockReq old need, raisedClockReq_toNat⟩, fun c => if_pos rfl, fun c bps hne => if_neg hne,
    fun c hc => ?i2c, fun c hc => ?rffe⟩
  case choice =>
    obtain ⟨hb, hf, hpins, hclock⟩ := hwired
    subst hr
    rw [exec_cfg_legal hb hf bps tl th hpins hclock hrate]
    refine ⟨fun htimer => ?timer, fun f htimer hknown hspin => ?spin, fun htimer hunknown => ?unclocked⟩
    case timer =>
      rw [chooseStrategy_timer (s := accept s) htimer]
      obtain ⟨q, rfl⟩ := exists_free hb
      rfl
    case spin =>
      rw [chooseStrategy_spin (s := accept s) htimer hknown hspin]
      obtain ⟨q, rfl⟩ := exists_free hb
      rfl
    case unclocked =>
      rw [chooseStrategy_unclocked (s := accept s) htimer hunknown]
      obtain ⟨q, rfl⟩ := exists_free hb
      rfl
  case i2c => rw [maxRate, hc]; rfl
  case rffe => rw [maxRate, hc]

/-- Settles O30: the checks of CFG in their order. -/
theorem cfgFaultsInOrder : Obligations.CfgFaultsInOrder := by
  intro s bps tl th hb hf
  refine ⟨fun hpins => ?nullPin, fun hpins hclock => ?noClockTree, fun hpins hclock hrate => ?tooHigh,
    fun f hpins hclock hrate htimer hknown hspin => ?unreachable⟩
  case nullPin =>
    rw [exec_cfg hb hf, runCfg, if_pos (show (accept s).m.pinsOk = false from hpins)]
  case noClockTree =>
    rw [exec_cfg hb hf, runCfg, if_neg (by simp [hpins]), if_pos (show (accept s).m.clockTreeOk = false from hclock)]
  case tooHigh =>
    rw [exec_cfg hb hf, runCfg, if_neg (by simp [hpins]), if_neg (by simp [hclock]), if_pos]
    exact hrate
  case unreachable =>
    rw [exec_cfg_legal hb hf bps tl th hpins hclock hrate,
      chooseStrategy_unreachable (s := accept s) htimer hknown hspin]

/-! ## What an expansion goes on with -/

/-- Two expansions that settle alike go on alike. -/
theorem resume_congr {a b : List Op} {s : State} (h : settle a s = settle b s) : resume a s = resume b s := by
  simp only [resume, h]

/-- A further byte to transmit is skipped after a not-acknowledge, and there is none once all are sent (R112, R117). -/
theorem resume_txBytes_skipped {n : Nat} {s : State} (h : s.m.ackFail = true ∨ n = 0) (buf : Word) (i : Nat)
    (r : List Op) : resume (.txBytes buf i n :: r) s = resume r s := by
  cases n with
  | zero => exact resume_congr rfl
  | succ k =>
    obtain hfail | hzero := h
    · exact resume_congr (if_pos hfail)
    · cases hzero

theorem resume_txBytes {s : State} (h : s.m.ackFail = false) (buf : Word) (i k : Nat) (r : List Op) :
    resume (.txBytes buf i (k + 1) :: r) s =
      resume (txByteOps (readBuf s buf i) ++ .txBytes buf (i + 1) k :: r) s :=
  resume_congr (if_neg (Bool.eq_false_iff.mp h))

theorem resume_rxBytes (s : State) (buf : Word) (i k count : Nat) (more : Bool) (r : List Op) :
    resume (.rxBytes buf i (k + 1) count more :: r) s =
      resume (rxByteOps (decide (0 < k) || more) ++
        ((if i < count then [.store buf i] else []) ++ .rxBytes buf (i + 1) k count more :: r)) s :=
  resume_congr rfl

/-! ## The bus commands -/

/-- The master as an accepted command finds it when its expansion starts (10_state.md R13). -/
def atEntry (s : State) : State := (accept s).setM { (accept s).m with pos := 0, waiting := false }

theorem begin_eq_resume (ops : List Op) (s : State) : beginCommand ops (accept s) = resume ops (atEntry s) := rfl

section

variable {s : State}

theorem exec_start (h : Accepts .i2c s) (a : Byte) : exec (.start a) s =
    .next (beginCommand (startOps a) (accept { s with m := { s.m with ackFail := false, addr := a } })) := by
  obtain ⟨hb, hf, hs, hv⟩ := h
  exact enterBus_accepts hb hf hs hv

theorem exec_stop (h : Accepts .i2c s) : exec .stop s = .next (entered s stopSeq) := by
  obtain ⟨hb, hf, hs, hv⟩ := h
  exact enterBus_accepts hb hf hs hv

theorem exec_move (h : Accepts .i2c s) (buf count : Word) (more : Bool) :
    exec (.move buf count more) s = .next (beginCommand (moveOps s.m.addr buf count more) (accept s)) := by
  obtain ⟨hb, hf, hs, hv⟩ := h
  exact enterBus_accepts hb hf hs hv

theorem exec_rstart (h : Accepts .rffe s) (c : BitVec 12) : exec (.rstart c) s =
    .next (beginCommand (rstartOps c) (accept { s with m := { s.m with parityErr := false } })) := by
  obtain ⟨hb, hf, hs, hv⟩ := h
  exact enterBus_accepts hb hf hs hv

theorem exec_rpark (h : Accepts .rffe s) : exec .rpark s = .next (entered s parkSeq) := by
  obtain ⟨hb, hf, hs, hv⟩ := h
  exact enterBus_accepts hb hf hs hv

/-- RMOVE's three tests (42_master_rffe.md R136). -/
theorem exec_rmove (h : Accepts .rffe s) (tx rx count : Word) : exec (.rmove tx rx count) s = .next
    (if tx ≠ 0#32 ∧ rx ≠ 0#32 then raiseMaster .moveDualDir (accept s)
     else if count = 0#32 then raiseMaster .moveZeroLen (accept s)
     else if tx = 0#32 ∧ rx = 0#32 then raiseMaster .moveNoBuffer (accept s)
     else beginCommand (rmoveOps tx rx count) (accept s)) := by
  obtain ⟨hb, hf, hs, hv⟩ := h
  exact enterBus_accepts hb hf hs hv

end

/-- Settles O31: START's expansion begins with `D1`. -/
theorem startBegins : Obligations.StartBegins := fun _ a h => exec_start h a

/-- Settles O32: both expansions begin with a drive of the clock. -/
theorem stopAndRparkBegin : Obligations.StopAndRparkBegin := ⟨fun _ h => exec_stop h, fun _ h => exec_rpark h⟩

/-- A non-zero count is a successor. -/
theorem exists_count {count : Word} (h : count ≠ 0#32) : ∃ k, count.toNat = k + 1 := by
  refine Nat.exists_eq_succ_of_ne_zero fun hzero => h (BitVec.eq_of_toNat_eq hzero)

/-- Settles O33: the first byte of a transfer is expanded at the entry, or all are skipped. -/
theorem moveBegins : Obligations.MoveBegins := by
  intro s buf count more h
  have hexec := exec_move h buf count more
  refine ⟨fun hread => ?receive, fun hwrite hack hcount => ?transmit, fun hwrite hskip hmore => ?stop,
    fun hwrite hskip hmore => ?nothing⟩
  case receive =>
    obtain ⟨k, hk⟩ : ∃ k, receiveCount count = k + 1 :=
      Nat.exists_eq_succ_of_ne_zero (Nat.ne_of_gt (lt_of_lt_of_le Nat.zero_lt_one (le_max_right _ _)))
    have hlast : decide (1 < k + 1) = decide (0 < k) := by simp
    rw [hexec, moveOps, if_pos hread, hk, hlast, begin_eq_resume, resume_rxBytes]
    rfl
  case transmit =>
    obtain ⟨k, hk⟩ : ∃ k, count.toNat = k + 1 := Nat.exists_eq_succ_of_ne_zero (Nat.ne_of_gt hcount)
    rw [hexec, moveOps, if_neg (Bool.eq_false_iff.mp hwrite), hk, begin_eq_resume,
      resume_txBytes (s := atEntry s) hack]
    rfl
  all_goals
    have hskip' : s.m.ackFail = true ∨ count.toNat = 0 := hskip.imp id fun hzero => by rw [hzero]; rfl
    rw [hexec, moveOps, if_neg (Bool.eq_false_iff.mp hwrite), hmore, begin_eq_resume,
      resume_txBytes_skipped (s := atEntry s) hskip']
    rfl

/-- Settles O40: after a not-acknowledge every byte is skipped, and only the Stop sequence is left, or nothing. -/
theorem nackSkipsBytesButStops : Obligations.NackSkipsBytesButStops := by
  intro s buf count h hwrite hack
  obtain ⟨_, _, hstop, _⟩ := moveBegins s buf count false h
  obtain ⟨_, _, _, hnothing⟩ := moveBegins s buf count true h
  exact ⟨(hstop hwrite (.inl hack) rfl).trans (exec_stop h).symm, _, hnothing hwrite (.inl hack) rfl, rfl, rfl, rfl, rfl,
    rfl, rfl, rfl, rfl, rfl⟩

/-- The twelve bits of a command in wire order. -/
theorem msbFirst_12 (c : BitVec 12) : msbFirst c = [11, 10, 9, 8, 7, 6, 5, 4, 3, 2, 1, 0].map c.getLsbD := rfl

theorem msbFirst_8 (v : Byte) : msbFirst v = [7, 6, 5, 4, 3, 2, 1, 0].map v.getLsbD := rfl

/-- A frame is its bits and the parity bit, each sent alike. -/
theorem txFrame_eq {w : Nat} (v : BitVec w) : txFrame v = (msbFirst v ++ [parity v]).flatMap txBit := by
  rw [List.flatMap_append, txFrame, List.flatMap_singleton]

/-- Settles O34: SSC is followed by the frame of the twelve bits. -/
theorem rstartBegins : Obligations.RstartBegins := by
  intro s c h
  rw [exec_rstart h, ← msbFirst_12]
  have hframe := txFrame_eq c
  unfold txBit micros at hframe
  refine congrArg Host.Outcome.next ?_
  show entered _ (sscSeq ++ txFrame c) = _
  rw [hframe]
  rfl

/-- Settles O35: the tests in their order, then the first byte or the bus park. -/
theorem rmoveTestsAndBegins : Obligations.RmoveTestsAndBegins := by
  intro s tx rx count h
  rw [exec_rmove h]
  refine ⟨fun htx hrx => ?dual, fun hone hzero => ?zero, fun htx hrx hcount => ?none, fun htx hrx hcount => ?transmit,
    fun htx hrx hcount => ?receive⟩
  case dual => rw [if_pos ⟨htx, hrx⟩]
  case zero => rw [if_neg (by rintro ⟨htx, hrx⟩; exact hone.elim htx hrx), if_pos hzero]
  case none => rw [if_neg fun hdual => hdual.1 htx, if_neg hcount, if_pos ⟨htx, hrx⟩]
  case transmit =>
    obtain ⟨k, hk⟩ := exists_count hcount
    rw [if_neg fun hdual => hdual.2 hrx, if_neg hcount, if_neg fun hnone => htx hnone.1, rmoveOps, if_pos htx, hk]
    rfl
  case receive =>
    rw [if_neg fun hdual => hdual.1 htx, if_neg hcount, if_neg fun hnone => hrx hnone.2, rmoveOps,
      if_neg (not_not.mpr htx)]
    rfl

/-! ## The sequences -/

/-- Every transmitted bit of a frame is five micro-operations. -/
theorem microCount_flatMap_txBit (bits : List Bool) : microCount (bits.flatMap txBit) = 5 * bits.length := by
  induction bits with
  | nil => rfl
  | cons b r ih =>
    have hbit : microCount (txBit b) = 5 := rfl
    rw [List.flatMap_cons, microCount_append, ih, hbit, List.length_cons]
    omega

theorem length_msbFirst {w : Nat} (v : BitVec w) : (msbFirst v).length = w := by simp [msbFirst]

theorem microCount_txFrame {w : Nat} (v : BitVec w) : microCount (txFrame v) = 5 * (w + 1) := by
  rw [txFrame_eq, microCount_flatMap_txBit, List.length_append, length_msbFirst, List.length_singleton]

/-- Settles O36: the sequences in wire order are the definitions written out; the lengths are counted. -/
theorem sequencesAreTheManuals : Obligations.SequencesAreTheManuals := by
  refine ⟨⟨fun v => rfl, fun doAck => rfl, fun v => ?frame, rfl⟩, rfl, rfl, fun v => rfl, rfl, rfl, fun b => rfl, rfl,
    microCount_txFrame, rfl, rfl, rfl, fun c => ?rstart⟩
  case frame => rw [← msbFirst_8]; exact txFrame_eq v
  case rstart =>
    have hssc : microCount sscSeq = 5 := rfl
    rw [rstartOps, microCount_append, hssc, microCount_txFrame]

end Sys2Proof.Commands
end

section
/-! PROOFS. One step of the master: a micro-operation, what stands before the next one, and `Wait`
(30_encoding.md R76; 40_delay_engine.md R96 to R98; 46_common_semantics.md R198). -/

namespace Sys2Proof.Commands

open Sys2Proof Sys2Proof.Machine Sys2Proof.Safety

theorem masterStep_micro {s : State} {u : Micro} {r : List Op} (h : s.m.todo = .micro u :: r) :
    masterStep s = microStep u r s := by
  simp only [masterStep, h]

/-! ## The sample -/

theorem masterSample_i2c {s : State} (h : s.m.cfg.variant = .i2c) :
    masterSample s = { s with m := { s.m with sampled := sdaAtMaster s } } := by
  simp only [masterSample, h]
  rfl

theorem masterSample_listed {s : State} {b : Bool} {r : List Bool} (h : s.m.cfg.variant = .rffe)
    (hs : s.env.samples = b :: r) :
    masterSample s = { s with m := { s.m with sampled := b }, env := { s.env with samples := r } } := by
  simp only [masterSample, h, hs]
  rfl

theorem masterSample_free {s : State} (h : s.m.cfg.variant = .rffe) (hs : s.env.samples = []) :
    masterSample s = { s with
      m := { s.m with sampled := Config.freeSample s.env.freeCount }
      env := { s.env with freeCount := s.env.freeCount + 1 } } := by
  simp only [masterSample, h, hs]
  rfl

/-! ## What acts before the next micro-operation -/

theorem resume_stuckTest (w : List Op) (s : State) :
    resume (.stuckTest :: w) s = resume (if s.m.sampled then w else errRec ++ w) s := by
  cases h : s.m.sampled with
  | true => exact resume_congr (if_pos h)
  | false => exact resume_congr (if_neg (Bool.eq_false_iff.mp h))

theorem resume_txByte (v : Byte) (w : List Op) (s : State) :
    resume (.txByte v :: w) s = resume (if s.m.ackFail then w else txByteOps v ++ w) s := by
  cases h : s.m.ackFail with
  | true => exact resume_congr (if_pos h)
  | false => exact resume_congr (if_neg (Bool.eq_false_iff.mp h))

theorem resume_txBytes_succ (b : Word) (i k : Nat) (w : List Op) (s : State) :
    resume (.txBytes b i (k + 1) :: w) s =
      resume (if s.m.ackFail then w else txByteOps (readBuf s b i) ++ .txBytes b (i + 1) k :: w) s := by
  cases h : s.m.ackFail with
  | true => exact resume_txBytes_skipped (.inl h) b i w
  | false => exact resume_txBytes h b i k w

/-- The accumulated byte with a bit shifted in. -/
theorem shiftInAcc_eq (m : Master) :
    shiftInAcc m = { m with acc := (m.acc <<< 1) ||| (if m.sampled then 1#8 else 0#8) } := by
  cases h : m.sampled <;> simp [shiftInAcc, h]

/-- The items of an expansion that take no step, each with what it goes on with. -/
theorem advance_actions (w : List Op) (q : State) :
    advance (.orAck :: w) q = advance w { q with m := { q.m with ackFail := q.m.ackFail || q.m.sampled } } ∧
    advance (.shiftAcc :: w) q =
      advance w { q with m := { q.m with acc := (q.m.acc <<< 1) ||| (if q.m.sampled then 1#8 else 0#8) } } ∧
    advance (.parityTest :: w) q = advance w { q with
      m := { q.m with parityErr := q.m.parityErr || (q.m.sampled != parity q.m.acc) } } ∧
    (∀ b i, advance (.store b i :: w) q = advance w { q with bufs := q.bufs.write (bufKey b i) q.m.acc }) := by
  refine ⟨rfl, ?shift, rfl, fun _ _ => rfl⟩
  rw [← shiftInAcc_eq]
  rfl

/-! ## Whether the master has its step -/

/-- Only an armed `Wait` whose done flag is down blocks (40_delay_engine.md R97). -/
theorem masterReady_of_not_armed {s : State} {u : Micro} {r : List Op} (hb : s.m.busy = true) (hf : s.m.fault = false)
    (htodo : s.m.todo = .micro u :: r) (hnot : ¬ (u = .wait ∧ s.m.waiting = true ∧ s.timer.done = false)) :
    masterReady s = true := by
  have hfree : masterBlocked s = false := by
    cases u with
    | wait =>
      cases hw : s.m.waiting with
      | false => simp [masterBlocked, htodo, hw]
      | true =>
        cases hd : s.timer.done with
        | true => simp [masterBlocked, htodo, hd]
        | false => exact absurd ⟨rfl, hw, hd⟩ hnot
    | _ => simp [masterBlocked, htodo]
  simp [masterReady, hb, hf, hfree]

theorem step_master {s u : State} {ts : List Turn} (hturns : s.turns = .master :: ts) (hu : u = { s with turns := ts }) :
    (masterReady u = true → step s = masterStep u) ∧ (masterReady u = false → step s = .next u) := by
  rw [Scheduling.step_given hturns, turnStep, ← hu]
  exact ⟨fun hready => if_pos hready, fun hready => if_neg (Bool.eq_false_iff.mp hready)⟩

/-- Settles O37: each micro-operation's step, each action before the next one, and the master's turn. -/
theorem microOperationsAct : Obligations.MicroOperationsAct := by
  refine ⟨fun s u rest htodo => ?micro, fun _ _ _ => rfl, fun _ => rfl, fun w q => ?actions,
    fun _ _ _ => masterReady_of_not_armed, fun _ _ _ => step_master⟩
  case micro =>
    rw [masterStep_micro htodo]
    refine ⟨fun b hu => ?_, fun hu => ?_, fun b hu => ?_, fun hu hv => ?_, fun b r hu hv hs => ?_, fun hu hv hs => ?_⟩ <;>
      subst hu
    · rfl
    · rfl
    · rfl
    · rw [microStep, masterSample_i2c hv]
    · rw [microStep, masterSample_listed hv hs]
    · rw [microStep, masterSample_free hv hs]
  case actions =>
    obtain ⟨hor, hshift, hparity, hstore⟩ := advance_actions w q
    exact ⟨hor, hshift, hparity, hstore, resume_stuckTest w _, fun v => resume_txByte v w _,
      fun b i => resume_congr rfl, fun b i k => resume_txBytes_succ b i k w _,
      fun b i n m => resume_congr rfl, fun b i k n m => resume_rxBytes _ b i k n m w, fun b i => resume_congr rfl,
      fun b i k => resume_congr rfl, fun b i => resume_congr rfl, fun b i k => resume_congr rfl⟩

/-! ## Wait -/

/-- The product counts `M.TL` ticks while SCL is driven low and `M.TH` while it is driven high (R96, R98). -/
theorem waitCount_eq (m : Master) :
    waitCount m = m.waitParam.toNat * (if m.sclVal = false then m.tl else m.th).toNat := by
  cases h : m.sclVal <;> simp [waitCount, delayTicks, h]

/-- Settles O38: the branches of a step at a `Wait`. -/
theorem waitBlocksUntilDone : Obligations.WaitBlocksUntilDone := by
  intro s rest n htodo hn
  rw [← waitCount_eq] at hn
  subst hn
  rw [masterStep_micro htodo]
  refine ⟨fun hzero => ?empty, fun hspin => ?spin, fun hne htimer hw => ?arms, fun hne htimer hw hd => ?blocks,
    fun hne htimer hw hd => ?passes⟩
  case empty => simp only [microStep, waitStep, if_pos hzero]
  case spin => simp only [microStep, waitStep, hspin, ite_self]
  case arms =>
    simp only [microStep, waitStep, if_neg hne, htimer, hw, Bool.false_eq_true, if_false]
    rfl
  case blocks => simp [masterReady, masterBlocked, htodo, hne, htimer, hw, hd]
  case passes => simp only [microStep, waitStep, if_neg hne, htimer, hw, hd, if_true]

/-- Settles O39: the sample of START decides whether the eight Stop sequences come before the start condition. -/
theorem stuckLineRunsEightStops : Obligations.StuckLineRunsEightStops := by
  intro s a rest hv htodo hrest
  rw [masterStep_micro htodo, microStep, masterSample_i2c hv, advance, resume_stuckTest, hrest]
  cases h : sdaAtMaster s with
  | true => rfl
  | false => rfl

end Sys2Proof.Commands
end

section
/-! PROOFS. Bus commands run to their ends by the master alone under Spin (46_common_semantics.md R199): how long they
take (41_master_i2c.md, 42_master_rffe.md), and what three of them leave. -/

namespace Sys2Proof.Runs

open Sys2Proof Sys2Proof.Machine Sys2Proof.Safety Sys2Proof.Commands

/-! ## How long an expansion takes -/

/-- From `s` the expansion runs to its end in `k` steps of the master, keeping what a running command keeps. -/
def Finishes (ops : List Op) (s : State) (k : Nat) : Prop :=
  ∃ q, runMaster k (resume ops s) = .next (resume [] q) ∧ Ran k s q

theorem Finishes.nil (s : State) : Finishes [] s 0 := ⟨s, rfl, .refl s⟩

/-- An expansion that settles as another does finishes as it does. -/
theorem Finishes.congr {a b : List Op} {s : State} {k : Nat} (h : Finishes b s k) (heq : resume a s = resume b s) :
    Finishes a s k := by
  unfold Finishes
  rw [heq]
  exact h

/-- A part made of micro-operations and actions that take no step, then the rest. -/
theorem Finishes.flat {a r : List Op} {s : State} {j k : Nat} (hflat : ∀ o ∈ a, flatOp o = true)
    (hj : microCount a = j) (hspin : s.m.strategy = .spin)
    (hrest : ∀ q : State, q.m.strategy = .spin → (.orAck ∉ a → q.m.ackFail = s.m.ackFail) → Finishes r q k) :
    Finishes (a ++ r) s (j + k) := by
  subst hj
  obtain ⟨t, hrun, hran, hack⟩ := flat_runs a r s hflat hspin
  obtain ⟨q, hend, hran'⟩ := hrest t (hran.strategy.trans hspin) hack
  exact ⟨q, by rw [runMaster_add hrun, hend], hran.trans hran'⟩

/-- An expansion that is one such part. -/
theorem Finishes.flat_all {a : List Op} {s : State} {j : Nat} (hflat : ∀ o ∈ a, flatOp o = true)
    (hj : microCount a = j) (hspin : s.m.strategy = .spin) : Finishes a s j := by
  have h := Finishes.flat (r := []) hflat hj hspin fun q _ _ => .nil q
  rwa [List.append_nil, Nat.add_zero] at h

theorem flat_micros {us : List Micro} : ∀ o ∈ micros us, flatOp o = true := by
  intro o ho
  obtain ⟨u, _, rfl⟩ := List.mem_map.mp ho
  rfl

theorem flat_append {a b : List Op} (ha : ∀ o ∈ a, flatOp o = true) (hb : ∀ o ∈ b, flatOp o = true) :
    ∀ o ∈ a ++ b, flatOp o = true := fun o ho => (List.mem_append.mp ho).elim (ha o) (hb o)

theorem flat_flatMap {α : Type} {l : List α} {f : α → List Op} (h : ∀ x, ∀ o ∈ f x, flatOp o = true) :
    ∀ o ∈ l.flatMap f, flatOp o = true := by
  intro o ho
  obtain ⟨x, _, hx⟩ := List.mem_flatMap.mp ho
  exact h x o hx

theorem flat_txFrame {w : Nat} (v : BitVec w) : ∀ o ∈ txFrame v, flatOp o = true := by
  rw [txFrame_eq]
  exact flat_flatMap fun _ => flat_micros

theorem flat_txByteOps (v : Byte) : ∀ o ∈ txByteOps v, flatOp o = true :=
  flat_append (flat_append (flat_flatMap fun _ => flat_micros) flat_micros) (by simp [flatOp])

theorem flat_rxByteOps (doAck : Bool) : ∀ o ∈ rxByteOps doAck, flatOp o = true := by cases doAck <;> decide

section

variable {r : List Op} {k : Nat} (hrest : ∀ q : State, q.m.strategy = .spin → Finishes r q k)
include hrest

/-- The bytes of a transmitting MOVE: as many as were sent before the first not-acknowledge (R117). -/
theorem Finishes.txBytes (buf : Word) (n : Nat) : ∀ (i : Nat) (s : State), s.m.strategy = .spin →
    ∃ j, j ≤ n ∧ Finishes (.txBytes buf i n :: r) s (46 * j + k) := by
  have hnone : ∀ (i : Nat) {n : Nat} {s : State}, s.m.strategy = .spin → s.m.ackFail = true ∨ n = 0 →
      ∃ j, j ≤ n ∧ Finishes (.txBytes buf i n :: r) s (46 * j + k) := fun i _ s hspin hskip =>
    ⟨0, Nat.zero_le _, by simpa using (hrest s hspin).congr (resume_txBytes_skipped hskip buf i r)⟩
  induction n with
  | zero => exact fun i s hspin => hnone i hspin (.inr rfl)
  | succ n ih =>
    intro i s hspin
    cases hack : s.m.ackFail with
    | true => exact hnone i hspin (.inl hack)
    | false =>
      obtain ⟨t, hrun, hran, _⟩ := flat_runs (txByteOps (readBuf s buf i)) (.txBytes buf (i + 1) n :: r) s
        (flat_txByteOps _) hspin
      obtain ⟨j, hj, q, hend, hran'⟩ := ih (i + 1) t (hran.strategy.trans hspin)
      have hcount : microCount (txByteOps (readBuf s buf i)) = 46 := rfl
      rw [hcount] at hrun hran
      have htotal : 46 * (j + 1) + k = 46 + (46 * j + k) := by omega
      refine ⟨j + 1, Nat.succ_le_succ hj, ?_⟩
      rw [htotal]
      exact Finishes.congr ⟨q, by rw [runMaster_add hrun, hend], hran.trans hran'⟩ (resume_txBytes hack buf i n r)

/-- The bytes of RMOVE's transmission (42_master_rffe.md R136). -/
theorem Finishes.rsendBytes (buf : Word) (n : Nat) : ∀ (i : Nat) (s : State), s.m.strategy = .spin →
    Finishes (.rsendBytes buf i n :: r) s (45 * n + k) := by
  induction n with
  | zero =>
    intro i s hspin
    have hnone : Finishes (.rsendBytes buf i 0 :: r) s k := (hrest s hspin).congr (resume_congr rfl)
    rwa [Nat.mul_zero, Nat.zero_add]
  | succ n ih =>
    intro i s hspin
    have htotal : 45 * (n + 1) + k = 45 + (45 * n + k) := by omega
    rw [htotal]
    exact (Finishes.flat (flat_txFrame (readBuf s buf i)) (microCount_txFrame _) hspin
      fun q hq _ => ih (i + 1) q hq).congr (resume_congr rfl)

/-- The bytes RMOVE receives (42_master_rffe.md R136). -/
theorem Finishes.rreadBytes (buf : Word) (n : Nat) : ∀ (i : Nat) (s : State), s.m.strategy = .spin →
    Finishes (.rreadBytes buf i n :: r) s (45 * n + k) := by
  induction n with
  | zero =>
    intro i s hspin
    have hnone : Finishes (.rreadBytes buf i 0 :: r) s k := (hrest s hspin).congr (resume_congr rfl)
    rwa [Nat.mul_zero, Nat.zero_add]
  | succ n ih =>
    intro i s hspin
    have htotal : 45 * (n + 1) + k = 45 + (45 * n + k) := by omega
    have hflat : ∀ o ∈ rreadByteOps ++ [.store buf i], flatOp o = true :=
      flat_append (by decide) (by simp [flatOp])
    rw [htotal]
    exact (Finishes.flat hflat rfl hspin fun q hq _ => ih (i + 1) q hq).congr (resume_congr rfl)

end

/-- The bytes of a receiving MOVE; the last one without `more` brings its own Stop sequence (41_master_i2c.md R113,
R117). -/
theorem Finishes.rxBytes (buf : Word) (count : Nat) (more : Bool) (n : Nat) :
    ∀ (i : Nat) (s : State), s.m.strategy = .spin →
      Finishes [.rxBytes buf i (n + 1) count more] s (46 * (n + 1) + if more then 0 else 7) := by
  induction n with
  | zero =>
    intro i s hspin
    have hcount : microCount (rxByteOps more ++ if i < count then [.store buf i] else []) =
        46 * 1 + if more then 0 else 7 := by
      rw [microCount_append]
      cases more <;> split <;> rfl
    have hflat : ∀ o ∈ rxByteOps more ++ (if i < count then [.store buf i] else []), flatOp o = true :=
      flat_append (flat_rxByteOps more) (by split <;> simp [flatOp])
    have hlast : ∀ q : State, Finishes [.rxBytes buf (i + 1) 0 count more] q 0 := fun q =>
      (Finishes.nil q).congr (resume_congr rfl)
    refine (Finishes.flat (k := 0) hflat hcount hspin fun q _ _ => hlast q).congr ?_
    rw [resume_rxBytes, List.append_assoc]
    simp
  | succ n ih =>
    intro i s hspin
    have hcount : microCount (rxByteOps true ++ if i < count then [.store buf i] else []) = 46 := by
      rw [microCount_append]
      split <;> rfl
    have hflat : ∀ o ∈ rxByteOps true ++ (if i < count then [.store buf i] else []), flatOp o = true :=
      flat_append (flat_rxByteOps true) (by split <;> simp [flatOp])
    have htotal : (46 * (n + 1 + 1) + if more then 0 else 7) = 46 + (46 * (n + 1) + if more then 0 else 7) := by omega
    rw [htotal]
    refine (Finishes.flat hflat hcount hspin fun q hq _ => ih (i + 1) q hq).congr ?_
    rw [resume_rxBytes, List.append_assoc]
    simp

/-- START: two micro-operations to the stuck test, eight Stop sequences where it fails, and the address byte, which the
cleared flag lets through (41_master_i2c.md R110, R112). -/
theorem Finishes.start (a : Byte) {s : State} (hspin : s.m.strategy = .spin) (hack : s.m.ackFail = false) :
    ∃ k, (k = 53 ∨ k = 117) ∧ Finishes (startOps a) s k := by
  have haddress : ∀ q : State, q.m.strategy = .spin → q.m.ackFail = false → Finishes [.txByte a] q 46 :=
    fun q hq hqack => (Finishes.flat_all (flat_txByteOps a) rfl hq).congr
      (by rw [resume_txByte, hqack, List.append_nil]; rfl)
  have hcondition : ∀ q : State, q.m.strategy = .spin → q.m.ackFail = false →
      Finishes (micros [.scl true, .wait, .sda false, .wait, .scl false] ++ [.txByte a]) q (5 + 46) :=
    fun q hq hqack => .flat flat_micros rfl hq fun t ht htack => haddress t ht ((htack (by decide)).trans hqack)
  obtain ⟨t, hrun, hran, htack⟩ := flat_runs (micros [.sda true, .get]) (.stuckTest ::
    (micros [.scl true, .wait, .sda false, .wait, .scl false] ++ [.txByte a])) s flat_micros hspin
  have htspin := hran.strategy.trans hspin
  have hclear : t.m.ackFail = false := (htack (by decide)).trans hack
  have hfrom : ∀ {k}, Finishes (.stuckTest ::
      (micros [.scl true, .wait, .sda false, .wait, .scl false] ++ [.txByte a])) t k → Finishes (startOps a) s (2 + k) :=
    fun ⟨q, hend, hq⟩ => ⟨q, (runMaster_add hrun).trans hend, hran.trans hq⟩
  cases hsample : t.m.sampled with
  | true =>
    refine ⟨53, .inl rfl, hfrom (k := 51) ((hcondition t htspin hclear).congr ?_)⟩
    rw [resume_stuckTest, hsample]
    rfl
  | false =>
    have herrRec : Finishes (errRec ++ (micros [.scl true, .wait, .sda false, .wait, .scl false] ++ [.txByte a])) t
        (64 + 51) := .flat (by decide) rfl htspin fun q hq hqack => hcondition q hq ((hqack (by decide)).trans hclear)
    refine ⟨117, .inr rfl, hfrom (herrRec.congr ?_)⟩
    rw [resume_stuckTest, hsample]
    rfl

/-! ## Every bus command -/

/-- A command whose expansion finishes after `k` steps is done, its status word returned, the next one accepted. -/
theorem ends_of_finishes {i : Instr} {s s' : State} {ops : List Op} {k : Nat}
    (hexec : exec i s = .next (beginCommand ops (accept s'))) (hfinishes : Finishes ops (atEntry s') k)
    (hfault : s'.m.fault = false) (hstatus : s'.out.status = s.out.status) :
    ∃ t u, exec i s = .next t ∧ runMaster k t = .next u ∧
      u.m.busy = false ∧ u.m.todo = [] ∧ u.m.pos = k ∧ u.m.fault = false ∧
      u.out.status = s.out.status ++ [statusWord u.m] ∧
      (∀ p0 p1 p2 p3, inputReady (.issue p0 p1 p2 p3) u = true) ∧ inputReady .status u = true ∧
      (s.out.status = [] → applyInput .status u = .next { u with
        out := { u.out with status := [], received := u.out.received ++ [.status (statusWord u.m)] } }) := by
  obtain ⟨q, hrun, hran⟩ := hfinishes
  have hwords : (resume [] q).out.status = s.out.status ++ [statusWord (resume [] q).m] := by
    show q.out.status ++ _ = _
    rw [hran.status]
    exact congrArg (· ++ _) hstatus
  have hpos : q.m.pos = k := hran.pos.trans (Nat.zero_add k)
  refine ⟨_, resume [] q, hexec, hrun, rfl, rfl, hpos, hran.fault.trans hfault, hwords, fun _ _ _ _ => rfl, ?_,
    fun hnone => ?_⟩
  · simp [inputReady]
  · rw [hnone] at hwords
    exact Scheduling.applyInput_status hwords

/-- The expansion of a receiving or transmitting MOVE (41_master_i2c.md R117). -/
theorem Finishes.move (buf count : Word) (more : Bool) {s : State} (hspin : s.m.strategy = .spin) (addr : Byte) :
    ∃ k, CommandLength (.move buf count more) addr k ∧ Finishes (moveOps addr buf count more) s k := by
  unfold CommandLength moveOps
  dsimp only
  split
  · obtain ⟨n, hn⟩ : ∃ n, receiveCount count = n + 1 :=
      Nat.exists_eq_succ_of_ne_zero (Nat.ne_of_gt (lt_of_lt_of_le Nat.zero_lt_one (le_max_right _ _)))
    rw [hn]
    exact ⟨_, rfl, .rxBytes buf count.toNat more n 0 s hspin⟩
  · have htail : ∀ q : State, q.m.strategy = .spin → Finishes (if more then [] else stopSeq) q (if more then 0 else 7) := by
      intro q hq
      split
      · exact .nil q
      · exact .flat_all flat_micros rfl hq
    obtain ⟨j, hj, hfinishes⟩ := Finishes.txBytes htail buf count.toNat 0 s hspin
    exact ⟨_, ⟨j, hj, rfl⟩, hfinishes⟩

/-- The expansion of an RMOVE (42_master_rffe.md R136). -/
theorem Finishes.rmove (tx rx count : Word) {s : State} (hspin : s.m.strategy = .spin) :
    Finishes (rmoveOps tx rx count) s ((if tx = 0#32 then 7 else 0) + 45 * count.toNat) := by
  unfold rmoveOps
  by_cases htx : tx = 0#32
  · rw [if_neg (not_not.mpr htx), if_pos htx]
    exact .flat flat_micros rfl hspin fun q hq _ => .rreadBytes (fun t _ => .nil t) rx count.toNat 0 q hq
  · rw [if_pos htx, if_neg htx, Nat.zero_add]
    exact .rsendBytes (k := 0) (fun t _ => .nil t) tx count.toNat 0 s hspin

/-- Settles O41: each expansion finishes after its number of micro-operations, and the command with it. -/
theorem everyCommandEnds : Obligations.EveryCommandEnds := by
  intro s i v hi h hspin hlegal
  have hfault : s.m.fault = false := h.2.1
  suffices hends : ∃ s' ops k, exec i s = .next (beginCommand ops (accept s')) ∧ CommandLength i s.m.addr k ∧
      Finishes ops (atEntry s') k ∧ s'.m.fault = false ∧ s'.out.status = s.out.status by
    obtain ⟨s', ops, k, hexec, hlength, hfinishes, hf, hst⟩ := hends
    obtain ⟨t, u, ht, hu, hend⟩ := ends_of_finishes hexec hfinishes hf hst
    exact ⟨t, k, u, ht, hlength, hu, hend⟩
  cases i with
  | start a =>
    cases hi
    obtain ⟨k, hk, hfinishes⟩ := Finishes.start a
      (s := atEntry { s with m := { s.m with ackFail := false, addr := a } }) hspin rfl
    exact ⟨_, _, k, exec_start h a, hk, hfinishes, hfault, rfl⟩
  | move buf count more =>
    cases hi
    obtain ⟨k, hk, hfinishes⟩ := Finishes.move buf count more (s := atEntry s) hspin s.m.addr
    exact ⟨s, _, k, exec_move h buf count more, hk, hfinishes, hfault, rfl⟩
  | stop =>
    cases hi
    exact ⟨s, stopSeq, 7, exec_stop h, rfl, .flat_all flat_micros rfl hspin, hfault, rfl⟩
  | rstart c =>
    cases hi
    refine ⟨_, rstartOps c, 70, exec_rstart h c, rfl, .flat_all ?_ ?_ hspin, hfault, rfl⟩
    · exact flat_append flat_micros (flat_txFrame c)
    · have hssc : microCount sscSeq = 5 := rfl
      rw [rstartOps, microCount_append, hssc, microCount_txFrame]
  | rmove tx rx count =>
    cases hi
    obtain ⟨hone, hcount, hsome⟩ := hlegal tx rx count rfl
    have hdual : ¬ (tx ≠ 0#32 ∧ rx ≠ 0#32) := fun hboth => hone.elim hboth.1 hboth.2
    have hnone : ¬ (tx = 0#32 ∧ rx = 0#32) := fun hboth => hsome.elim (· hboth.1) (· hboth.2)
    have hexec := exec_rmove h tx rx count
    rw [if_neg hdual, if_neg hcount, if_neg hnone] at hexec
    exact ⟨s, _, _, hexec, rfl, .rmove tx rx count hspin, hfault, rfl⟩
  | rpark =>
    cases hi
    exact ⟨s, parkSeq, 7, exec_rpark h, rfl, .flat_all flat_micros rfl hspin, hfault, rfl⟩
  | _ => cases hi

end Sys2Proof.Runs
end

section
/-! PROOFS. What three bus commands leave when they have run to their ends under Spin: the state after each
micro-operation is computed, not only how many there are (41_master_i2c.md R108 to R114; 42_master_rffe.md R134 to
R139). -/

namespace Sys2Proof.Runs

open Sys2Proof Sys2Proof.Machine Sys2Proof.Safety Sys2Proof.Commands

/-! ## The state an expansion runs to -/

/-- What a micro-operation does to pins and sample; a `Wait` under Spin does nothing. -/
def act : Micro → State → State
  | .sda b => masterSetSda b
  | .relSda => masterReleaseSda
  | .scl b => masterSetScl b
  | .get => masterSample
  | .wait => id

/-- A micro-operation executed and counted. -/
def microDone (u : Micro) (s : State) : State :=
  (act u s).setM { (act u s).m with pos := (act u s).m.pos + 1, waiting := false }

/-- An item of a flat expansion executed. -/
def opDone : Op → State → State
  | .micro u, s => microDone u s
  | .orAck, s => s.setM (orAckFail s.m)
  | .shiftAcc, s => s.setM (shiftInAcc s.m)
  | .parityTest, s => s.setM (testParity s.m)
  | .store buf i, s => writeBuf s buf i s.m.acc
  | _, s => s

/-- A flat expansion executed. -/
def opsDone (ops : List Op) (s : State) : State := ops.foldl (fun q o => opDone o q) s

@[simp] theorem opsDone_nil (s : State) : opsDone [] s = s := rfl

@[simp] theorem opsDone_cons (o : Op) (r : List Op) (s : State) : opsDone (o :: r) s = opsDone r (opDone o s) := rfl

theorem opsDone_append (a b : List Op) (s : State) : opsDone (a ++ b) s = opsDone b (opsDone a s) :=
  List.foldl_append

/-- A settled expansion with another `M.todo`. -/
def withTodo (l : List Op) (p : State × List Op) : State × List Op := (p.1.setM { p.1.m with todo := l }, p.2)

theorem ite_withTodo {c : Prop} [Decidable c] {l : List Op} {a b x y : State × List Op} (ha : a = withTodo l x)
    (hb : b = withTodo l y) : (if c then a else b) = withTodo l (if c then x else y) := by
  rw [ha, hb, apply_ite (withTodo l)]

/-- Settling an expansion does not read what was left of the last one, `M.todo`. -/
theorem settle_todo (ops l : List Op) :
    ∀ s : State, settle ops (s.setM { s.m with todo := l }) = withTodo l (settle ops s) := by
  induction ops with
  | nil => exact fun _ => rfl
  | cons o r ih =>
    intro s
    cases o with
    | micro u => rfl
    | orAck => exact ih (s.setM (orAckFail s.m))
    | shiftAcc => exact ih (s.setM (shiftInAcc s.m))
    | parityTest => exact ih (s.setM (testParity s.m))
    | store b i => exact ih (writeBuf s b i s.m.acc)
    | stuckTest => exact ite_withTodo (c := s.m.sampled = true) (ih s) rfl
    | txByte v => exact ite_withTodo (c := s.m.ackFail = true) (ih s) rfl
    | txBytes b i n =>
      cases n with
      | zero => exact ih s
      | succ k => exact ite_withTodo (c := s.m.ackFail = true) (ih s) rfl
    | rxBytes b i n _ _ | rsendBytes b i n | rreadBytes b i n =>
      cases n with
      | zero => exact ih s
      | succ k => rfl

theorem resume_todo (ops l : List Op) (s : State) : resume ops (s.setM { s.m with todo := l }) = resume ops s := by
  unfold resume
  rw [settle_todo]
  rfl

/-- Sampling does not read `M.todo` either. -/
theorem act_todo (u : Micro) (l : List Op) (s : State) :
    act u (s.setM { s.m with todo := l }) = (act u s).setM { (act u s).m with todo := l } := by
  cases u with
  | get =>
    cases hv : s.m.cfg.variant with
    | i2c =>
      simp only [act]
      rw [masterSample_i2c hv, masterSample_i2c (show (s.setM { s.m with todo := l }).m.cfg.variant = .i2c from hv)]
      rfl
    | rffe =>
      have hv' : (s.setM { s.m with todo := l }).m.cfg.variant = .rffe := hv
      simp only [act]
      cases hs : s.env.samples with
      | nil => rw [masterSample_free hv hs, masterSample_free hv' hs]; rfl
      | cons b r => rw [masterSample_listed hv hs, masterSample_listed hv' hs]; rfl
  | _ => rfl

theorem microStep_spin (u : Micro) (r : List Op) {s : State} (hspin : s.m.strategy = .spin) :
    microStep u r s = .next (advance r (act u s)) := by
  cases u with
  | wait => simp only [microStep, waitStep, hspin, ite_self, act, id]
  | _ => rfl

/-- One micro-operation under Spin. -/
theorem masterStep_resume_micro (u : Micro) (r : List Op) {s : State} (hspin : s.m.strategy = .spin) :
    masterStep (resume (.micro u :: r) s) = .next (resume r (microDone u s)) := by
  have hspin' : (s.setM { s.m with todo := .micro u :: r }).m.strategy = .spin := hspin
  rw [resume_micro, masterStep_micro rfl, microStep_spin u r hspin', advance, act_todo]
  exact congrArg Host.Outcome.next (resume_todo r _ (microDone u s))

theorem act_strategy (u : Micro) (s : State) : (act u s).m.strategy = s.m.strategy := by
  cases u with
  | get =>
    obtain ⟨b, v, heq, _⟩ := masterSample_eq s
    rw [act, heq]
    rfl
  | _ => rfl

theorem opDone_strategy (o : Op) (s : State) : (opDone o s).m.strategy = s.m.strategy := by
  cases o with
  | micro u => exact act_strategy u s
  | _ => rfl

/-- An action that takes no step is done before the rest goes on. -/
theorem resume_action {o : Op} (hflat : flatOp o = true) (hmicro : ∀ u, o ≠ .micro u) (r : List Op) (s : State) :
    resume (o :: r) s = resume r (opDone o s) := by
  cases o with
  | micro u => exact absurd rfl (hmicro u)
  | orAck | shiftAcc | parityTest | store b i => rfl
  | _ => cases hflat

/-- A flat part of an expansion runs to the state it computes, in as many steps as it holds micro-operations. -/
theorem runMaster_flat {ops : List Op} (r : List Op) (k : Nat) : ∀ {s : State}, (∀ o ∈ ops, flatOp o = true) →
    s.m.strategy = .spin →
    runMaster (microCount ops + k) (resume (ops ++ r) s) = runMaster k (resume r (opsDone ops s)) := by
  induction ops with
  | nil => intro s _ _; exact congrArg (runMaster · _) (Nat.zero_add k)
  | cons o ops ih =>
    intro s hflat hspin
    have hrest := ih (s := opDone o s) (fun x hx => hflat x (List.mem_cons_of_mem _ hx))
      ((opDone_strategy o s).trans hspin)
    by_cases hmicro : ∃ u, o = .micro u
    · obtain ⟨u, rfl⟩ := hmicro
      have hone : runMaster 1 (resume (.micro u :: (ops ++ r)) s) = .next (resume (ops ++ r) (microDone u s)) := by
        simp only [runMaster, masterStep_resume_micro u _ hspin]
      rw [microCount_micro, Nat.add_assoc, List.cons_append, runMaster_add hone]
      exact hrest
    · have haction : ∀ u, o ≠ .micro u := fun u hu => hmicro ⟨u, hu⟩
      have hcount : microCount (o :: ops) = microCount ops := by
        cases o with
        | micro u => exact absurd rfl (haction u)
        | _ => rfl
      rw [hcount, List.cons_append, resume_action (hflat o (List.mem_cons_self ..)) haction]
      exact hrest

/-- The last part of an expansion. -/
theorem runMaster_flat_end {ops : List Op} {k : Nat} {s : State} (hflat : ∀ o ∈ ops, flatOp o = true)
    (hcount : microCount ops = k) (hspin : s.m.strategy = .spin) :
    runMaster k (resume ops s) = .next (resume [] (opsDone ops s)) := by
  have h := runMaster_flat [] 0 hflat hspin
  rwa [List.append_nil, Nat.add_zero, hcount] at h

/-! ## STOP and RPARK -/

/-- What a micro-operation other than `G` leaves in the master's registers. -/
def pinDone (m : Master) : Micro → Master
  | .sda b => { m with sdaDir := .out, sdaVal := b, pos := m.pos + 1, waiting := false }
  | .relSda => { m with sdaDir := .inp, pos := m.pos + 1, waiting := false }
  | .scl b => { m with sclDir := .out, sclVal := b, pos := m.pos + 1, waiting := false }
  | .get | .wait => { m with pos := m.pos + 1, waiting := false }

/-- Micro-operations without a sample move the master's pins, and latches with them, nothing else. -/
theorem opsDone_pins {us : List Micro} : .get ∉ us → ∀ s : State,
    ∃ e, opsDone (micros us) s = { s with e := e, m := us.foldl pinDone s.m } := by
  induction us with
  | nil => exact fun _ s => ⟨s.e, rfl⟩
  | cons u us ih =>
    intro hget s
    obtain ⟨e, he⟩ := ih (fun h => hget (List.mem_cons_of_mem _ h)) (microDone u s)
    refine ⟨e, he.trans ?_⟩
    cases u with
    | get => exact absurd (List.mem_cons_self ..) hget
    | _ => rfl

theorem microCount_micros (us : List Micro) : microCount (micros us) = us.length := by
  induction us with
  | nil => rfl
  | cons u us ih => exact (microCount_micro u _).trans ((congrArg (1 + ·) ih).trans (Nat.add_comm ..))

/-- A command made of such micro-operations, from its entry to its end. -/
theorem runMaster_pins {us : List Micro} {s : State} (hget : .get ∉ us) (hspin : s.m.strategy = .spin) :
    ∃ e, runMaster us.length (resume (micros us) (atEntry s)) = .next (returnStatus { s with
      e := e, m := { us.foldl pinDone (atEntry s).m with todo := [] } }) := by
  obtain ⟨e, he⟩ := opsDone_pins hget (atEntry s)
  refine ⟨e, (runMaster_flat_end (s := atEntry s) flat_micros (microCount_micros us) hspin).trans ?_⟩
  rw [he]
  rfl

/-- The registers after STOPSEQ (41_master_i2c.md R108). -/
theorem pinDone_stopSeq (m : Master) :
    [.scl false, .wait, .sda false, .wait, .scl true, .wait, .sda true].foldl pinDone m = { m with
      pos := m.pos + 7, waiting := false, sdaDir := .out, sdaVal := true, sclDir := .out, sclVal := true } := by
  cases m
  rfl

/-- The registers after PARKSEQ (42_master_rffe.md R138). -/
theorem pinDone_parkSeq (m : Master) :
    [.scl true, .sda false, .wait, .relSda, .scl false, .wait, .relSda].foldl pinDone m = { m with
      pos := m.pos + 7, waiting := false, sdaDir := .inp, sdaVal := false, sclDir := .out, sclVal := false } := by
  cases m
  rfl

/-- Settles O42: each is seven micro-operations without a sample. -/
theorem stopAndRparkRunToTheirEnds : Obligations.StopAndRparkRunToTheirEnds := by
  refine ⟨fun s h hspin => ?stop, fun s h hspin => ?rpark⟩
  case stop =>
    obtain ⟨e, hrun⟩ := runMaster_pins (us := [.scl false, .wait, .sda false, .wait, .scl true, .wait, .sda true])
      (s := s) (by decide) hspin
    rw [pinDone_stopSeq] at hrun
    refine ⟨_, _, exec_stop h, hrun, ?_⟩
    obtain ⟨q, rfl⟩ := exists_free h.1
    rfl
  case rpark =>
    obtain ⟨e, hrun⟩ := runMaster_pins (us := [.scl true, .sda false, .wait, .relSda, .scl false, .wait, .relSda])
      (s := s) (by decide) hspin
    rw [pinDone_parkSeq] at hrun
    refine ⟨_, _, exec_rpark h, hrun, ?_⟩
    obtain ⟨q, rfl⟩ := exists_free h.1
    rfl

/-! ## START on a bus where nobody answers -/

/-- `n` micro-operations of a START entered in `s`, on a bus of the master's own where nobody holds SDA, before its
acknowledge: no flag is raised yet, and the address and the status words returned are those of `s`. -/
structure Starting (s : State) (n : Nat) (t : State) : Prop where
  strategy : t.m.strategy = .spin
  variant : t.m.cfg.variant = .i2c
  unshared : t.shared = false
  released : t.env.mSda = true
  parityErr : t.m.parityErr = false
  fault : t.m.fault = false
  faultCode : t.m.faultCode = 0#4
  ackFail : t.m.ackFail = false
  addr : t.m.addr = s.m.addr
  out : t.out = s.out
  pos : t.m.pos = n

section

variable {s t : State} {n : Nat}

theorem microDone_get_i2c (h : t.m.cfg.variant = .i2c) : microDone .get t =
    { t with m := { t.m with sampled := sdaAtMaster t, pos := t.m.pos + 1, waiting := false } } := by
  rw [microDone, act, masterSample_i2c h]
  rfl

theorem Starting.after_micro (h : Starting s n t) (u : Micro) : Starting s (n + 1) (microDone u t) := by
  obtain ⟨hs, hv, hu, hr, hp, hf, hc, hack, haddr, hout, hpos⟩ := h
  cases u with
  | get =>
    rw [microDone_get_i2c hv]
    exact ⟨hs, hv, hu, hr, hp, hf, hc, hack, haddr, hout, congrArg (· + 1) hpos⟩
  | _ => exact ⟨hs, hv, hu, hr, hp, hf, hc, hack, haddr, hout, congrArg (· + 1) hpos⟩

theorem Starting.after_micros (h : Starting s n t) (us : List Micro) :
    Starting s (n + us.length) (opsDone (micros us) t) := by
  induction us generalizing n t with
  | nil => exact h
  | cons u us ih =>
    have hlength : n + (u :: us).length = n + 1 + us.length := by rw [List.length_cons]; omega
    rw [hlength]
    exact ih (h.after_micro u)

/-- The micro-operations of START run, and what follows them goes on. -/
theorem Starting.runs (h : Starting s n t) (us : List Micro) : ∃ q, q = opsDone (micros us) t ∧
    Starting s (n + us.length) q ∧
    ∀ {ops r j k}, ops = micros us ++ r → us.length + k = j →
      runMaster j (resume ops t) = runMaster k (resume r q) := by
  refine ⟨_, rfl, h.after_micros us, fun {ops r j k} hops hj => ?_⟩
  rw [hops, ← hj, ← microCount_micros us]
  exact runMaster_flat r k flat_micros h.strategy

/-- Alone on its bus the master samples its own contribution (10_state.md R21). -/
theorem Starting.sampled (h : Starting s n t) :
    (microDone .get t).m.sampled = contribution t.m.sdaDir t.m.sdaVal := by
  rw [microDone_get_i2c h.variant]
  show sdaAtMaster t = _
  rw [sdaAtMaster, h.unshared, h.released, if_neg Bool.false_ne_true, Bool.and_true]
  rfl

/-- The acknowledge slot: nobody answers, the released line is sampled high (41_master_i2c.md R112). -/
theorem Starting.ackSlot (h : Starting s n t) : ∃ q, Starting s (n + 6) q ∧
    q.m.sampled = true ∧ q.m.sdaDir = .inp ∧ q.m.sclDir = .out ∧ q.m.sclVal = false ∧
    ∀ r, runMaster 6 (resume (micros [.relSda, .wait, .scl true, .wait, .get, .scl false] ++ r) t) =
      .next (resume r q) := by
  obtain ⟨q, hq, hstarting, -⟩ := h.runs [.relSda, .wait, .scl true, .wait]
  have hreleased : q.m.sdaDir = .inp := by
    obtain ⟨e, hpins⟩ := opsDone_pins (us := [.relSda, .wait, .scl true, .wait]) (by decide) t
    rw [hq, hpins]
    rfl
  have hsampled : (microDone .get q).m.sampled = true := by rw [hstarting.sampled, hreleased]; rfl
  have hdir : (microDone .get q).m.sdaDir = q.m.sdaDir := by rw [microDone_get_i2c hstarting.variant]
  obtain ⟨t', ht', -, hrun⟩ := h.runs [.relSda, .wait, .scl true, .wait, .get, .scl false]
  have hsplit : t' = microDone (.scl false) (microDone .get q) := by rw [ht', hq]; rfl
  subst hsplit
  exact ⟨_, (hstarting.after_micro _).after_micro _, hsampled, hdir.trans hreleased, rfl, rfl, fun r =>
    hrun (k := 0) rfl rfl⟩

end

/-- The micro-operations of the eight data bits of TXBYTE. -/
def dataMicros (v : Byte) : List Micro :=
  (msbFirst v).flatMap fun b => [.sda b, .wait, .scl true, .wait, .scl false]

theorem txByteOps_eq (v : Byte) : txByteOps v =
    micros (dataMicros v) ++ (micros [.relSda, .wait, .scl true, .wait, .get, .scl false] ++ [.orAck]) := rfl

/-- START from its entry to the accumulation of its acknowledge: the stuck test passes, the address byte is sent and
nobody answers (41_master_i2c.md R110, R112). -/
theorem Starting.run_start {s : State} (h : Starting s 0 s) (a : Byte) : ∃ t, Starting s 53 t ∧
    t.m.sampled = true ∧ t.m.sdaDir = .inp ∧ t.m.sclDir = .out ∧ t.m.sclVal = false ∧
    runMaster 53 (resume (startOps a) s) = .next (resume [.orAck] t) := by
  obtain ⟨t1, ht1, hstuck, hrun1⟩ := h.runs [.sda true, .get]
  have hsampled : t1.m.sampled = true := by rw [ht1]; exact (h.after_micro (.sda true)).sampled
  obtain ⟨t2, -, hcondition, hrun2⟩ := hstuck.runs [.scl true, .wait, .sda false, .wait, .scl false]
  obtain ⟨t3, -, hdata, hrun3⟩ := hcondition.runs (dataMicros a)
  obtain ⟨t4, hend, hhigh, hsda, hscl, hlow, hrun4⟩ := hdata.ackSlot
  refine ⟨t4, hend, hhigh, hsda, hscl, hlow, ?_⟩
  calc runMaster 53 (resume (startOps a) s)
    _ = runMaster 51 (resume (.stuckTest ::
          (micros [.scl true, .wait, .sda false, .wait, .scl false] ++ [.txByte a])) t1) := hrun1 rfl rfl
    _ = runMaster 51 (resume (micros [.scl true, .wait, .sda false, .wait, .scl false] ++ [.txByte a]) t1) := by
      rw [resume_stuckTest, if_pos hsampled]
    _ = runMaster 46 (resume [.txByte a] t2) := hrun2 rfl rfl
    _ = runMaster 46 (resume (txByteOps a) t2) := by
      rw [resume_txByte, hcondition.ackFail, if_neg Bool.false_ne_true, List.append_nil]
    _ = runMaster 6 (resume (micros [.relSda, .wait, .scl true, .wait, .get, .scl false] ++ [.orAck]) t3) :=
      hrun3 (txByteOps_eq a) rfl
    _ = .next (resume [.orAck] t4) := hrun4 _

/-- The status word of a master whose only flag is `M.ackFail` (30_encoding.md R72). -/
theorem statusWord_ackFail_only {m : Master} (hack : m.ackFail = true) (hparity : m.parityErr = false)
    (hfault : m.fault = false) (hcode : m.faultCode = 0#4) : statusWord m = 0x00000001#32 := by
  rw [statusWord, hack, hparity, hfault, hcode]
  rfl

/-- Settles O43: the sample of the acknowledge slot becomes `M.ackFail`, the only bit of the status word. -/
theorem startAloneIsNotAcknowledged : Obligations.StartAloneIsNotAcknowledged := by
  intro s a h hspin hunshared hreleased hparity hcode
  have hexec := exec_start h a
  obtain ⟨_, hfault, _, hvariant⟩ := h
  rw [begin_eq_resume] at hexec
  have hentry : Starting (atEntry { s with m := { s.m with ackFail := false, addr := a } }) 0
      (atEntry { s with m := { s.m with ackFail := false, addr := a } }) :=
    ⟨hspin, hvariant, hunshared, hreleased, hparity, hfault, hcode, rfl, rfl, rfl, rfl⟩
  obtain ⟨t, hend, hhigh, hsda, hscl, hlow, hrun⟩ := hentry.run_start a
  have hack : (orAckFail t.m).ackFail = true := by rw [orAckFail, hhigh]; exact Bool.or_true _
  have hword : statusWord { orAckFail t.m with todo := [] } = 0x00000001#32 :=
    statusWord_ackFail_only hack hend.parityErr hend.fault hend.faultCode
  refine ⟨_, _, hexec, hrun, rfl, hend.pos, hack, hend.addr, hsda, hscl, hlow, ?_⟩
  show t.out.status ++ [statusWord { orAckFail t.m with todo := [] }] = _
  rw [hword, hend.out]
  rfl

/-! ## One received byte of RMOVE -/

/-- RREADBYTE on its way in `t`: the samples to come, the bits shifted in so far; buffers, parity flag and the status
words returned are those of `s`. -/
structure Receiving (s : State) (l : List Bool) (acc : Byte) (t : State) : Prop where
  strategy : t.m.strategy = .spin
  variant : t.m.cfg.variant = .rffe
  samples : t.env.samples = l
  acc : t.m.acc = acc
  bufs : t.bufs = s.bufs
  parityErr : t.m.parityErr = s.m.parityErr
  out : t.out = s.out

/-- `M.acc` with a bit shifted in (42_master_rffe.md R134). -/
def shiftIn (acc : Byte) (b : Bool) : Byte := (acc <<< 1) ||| (BitVec.ofBool b).setWidth 8

/-- Eight bits shifted in, first one bit 7, are the byte, whatever stood in `M.acc`. -/
theorem foldl_shiftIn (acc v : Byte) : ([7, 6, 5, 4, 3, 2, 1, 0].map v.getLsbD).foldl shiftIn acc = v := by
  ext i hi
  interval_cases i <;> simp [shiftIn]

section

variable {s t : State} {l : List Bool} {acc : Byte}

theorem Receiving.after_micro (h : Receiving s l acc t) {u : Micro} (hget : u ≠ .get) :
    Receiving s l acc (microDone u t) := by
  obtain ⟨hsp, hv, hs, ha, hb, hp, ho⟩ := h
  cases u with
  | get => exact absurd rfl hget
  | _ => exact ⟨hsp, hv, hs, ha, hb, hp, ho⟩

theorem Receiving.after_micros {us : List Micro} (hget : .get ∉ us) (h : Receiving s l acc t) :
    Receiving s l acc (opsDone (micros us) t) := by
  induction us generalizing t with
  | nil => exact h
  | cons u us ih =>
    exact ih (fun hmem => hget (List.mem_cons_of_mem _ hmem))
      (h.after_micro fun hu => hget (hu ▸ List.mem_cons_self ..))

/-- RXBIT takes the environment's next sample (42_master_rffe.md R134, R139). -/
theorem Receiving.after_rxBit {b : Bool} (h : Receiving s (b :: l) acc t) :
    Receiving s l acc (opsDone rxBit t) ∧ (opsDone rxBit t).m.sampled = b := by
  obtain ⟨q, hq⟩ : ∃ q, q = opsDone (micros [.scl true, .wait, .scl false]) t := ⟨_, rfl⟩
  have hsplit : opsDone rxBit t = microDone .wait (microDone .get q) := by rw [hq]; rfl
  obtain ⟨hsp, hv, hs, ha, hb, hp, ho⟩ := hq ▸ h.after_micros (us := [.scl true, .wait, .scl false]) (by decide)
  rw [hsplit, microDone, microDone, act, act, masterSample_listed hv hs]
  exact ⟨⟨hsp, hv, rfl, ha, hb, hp, ho⟩, rfl⟩

/-- As many bits as there are samples, each shifted in. -/
theorem Receiving.after_bits {bits : List Bool} (h : Receiving s (bits ++ l) acc t) :
    Receiving s l (bits.foldl shiftIn acc)
      (opsDone (List.replicate bits.length (rxBit ++ [.shiftAcc])).flatten t) := by
  induction bits generalizing acc t with
  | nil => exact h
  | cons b bits ih =>
    obtain ⟨⟨hsp, hv, hs, ha, hb, hp, ho⟩, hsampled⟩ := h.after_rxBit
    rw [List.length_cons, List.replicate_succ, List.flatten_cons, opsDone_append, opsDone_append]
    refine ih ⟨hsp, hv, hs, ?_, hb, hp, ho⟩
    rw [← ha, ← hsampled]
    rfl

end

/-- RREADBYTE of eight samples and a parity sample, stored (42_master_rffe.md R134, R136). -/
theorem Receiving.rreadByte {s t : State} {acc v : Byte} {p : Bool} {l : List Bool} (buf : Word) (i : Nat)
    (h : Receiving s ([7, 6, 5, 4, 3, 2, 1, 0].map v.getLsbD ++ p :: l) acc t) :
    ∃ q, q.m.acc = v ∧ q.bufs = s.bufs.write (bufKey buf i) v ∧
      q.m.parityErr = (s.m.parityErr || (p != parity v)) ∧ q.env.samples = l ∧ q.out = s.out ∧
      ∀ r k, runMaster (45 + k) (resume (rreadByteOps ++ .store buf i :: r) t) = runMaster k (resume r q) := by
  have hlength : ([7, 6, 5, 4, 3, 2, 1, 0].map v.getLsbD).length = 8 := rfl
  have hbits := h.after_bits
  rw [foldl_shiftIn, hlength] at hbits
  have hflat : ∀ o ∈ rreadByteOps ++ [.store buf i], flatOp o = true := flat_append (by decide) (by simp [flatOp])
  have hcount : microCount (rreadByteOps ++ [.store buf i]) = 45 := rfl
  obtain ⟨q, hq⟩ : ∃ q, q = opsDone rxBit (opsDone (List.replicate 8 (rxBit ++ [.shiftAcc])).flatten t) := ⟨_, rfl⟩
  obtain ⟨⟨_, _, hsamples, hacc, hbufs, hparity, hout⟩, hsampled⟩ := hbits.after_rxBit
  rw [← hq] at hsamples hacc hbufs hparity hout hsampled
  have hlast : opsDone (rreadByteOps ++ [.store buf i]) t = opDone (.store buf i) (opDone .parityTest q) := by
    simp only [hq, rreadByteOps, opsDone_append, opsDone_cons, opsDone_nil]
  refine ⟨opDone (.store buf i) (opDone .parityTest q), hacc, congrArg₂ (·.write (bufKey buf i) ·) hbufs hacc, ?_,
    hsamples, hout, fun r k => ?_⟩
  · show (q.m.parityErr || (q.m.sampled != parity q.m.acc)) = _
    rw [hparity, hsampled, hacc]
  · have hrun := runMaster_flat r k hflat h.strategy
    rwa [hlast, hcount, List.append_assoc, List.singleton_append] at hrun

/-- Settles O44: the bus park takes no sample, the byte takes nine. -/
theorem rffeByteIsTheSamples : Obligations.RffeByteIsTheSamples := by
  intro s rx v p r h hspin hrx hsamples
  have hexec := exec_rmove h 0#32 rx 1#32
  rw [if_neg (fun hdual => hdual.1 rfl), if_neg (by decide), if_neg (fun hnone => hrx hnone.2),
    begin_eq_resume] at hexec
  obtain ⟨_, _, _, hvariant⟩ := h
  have hentry : Receiving s ([7, 6, 5, 4, 3, 2, 1, 0].map v.getLsbD ++ p :: r) s.m.acc (atEntry s) :=
    ⟨hspin, hvariant, hsamples, rfl, rfl, rfl, rfl⟩
  obtain ⟨t, ht⟩ : ∃ t, t = opsDone parkSeq (atEntry s) := ⟨_, rfl⟩
  have hpark : Receiving s _ _ t := ht ▸ hentry.after_micros (by decide)
  obtain ⟨q, hacc, hbufs, hparity, hleft, hout, hrun⟩ := hpark.rreadByte rx 0
  refine ⟨_, resume [] q, hexec, ?_, rfl, hacc, hbufs, hparity, hleft, ?_⟩
  · calc runMaster 52 (resume (rmoveOps 0#32 rx 1#32) (atEntry s))
      _ = runMaster 45 (resume [.rreadBytes rx 0 1] t) := by
        rw [ht]
        exact runMaster_flat (ops := parkSeq) _ 45 flat_micros hspin
      _ = runMaster 45 (resume (rreadByteOps ++ [.store rx 0, .rreadBytes rx 1 0]) t) :=
        congrArg (runMaster 45) (resume_congr rfl)
      _ = runMaster 0 (resume [.rreadBytes rx 1 0] q) := hrun _ 0
      _ = .next (resume [] q) := congrArg Host.Outcome.next (resume_congr rfl)
  · show q.out.status ++ _ = _
    rw [hout]
    rfl

end Sys2Proof.Runs
end
